-- ==== Sys2Proof/Word.lean ====
section
/-! DEFINITION. The widths of the Huffman coding block's values (rules R7 and R9): every value of the block is
an unsigned bit vector, numbered from its least significant bit. -/

namespace Sys2Proof

/-- One byte: a stream byte, a code length (`LEN_W` = 8), a register number. -/
abbrev Byte := BitVec 8

/-- A symbol, "one byte value (0–255)" (R14, `NSYMBOLS` = 256 in R7). -/
abbrev Sym := BitVec 8

/-- A 32-bit command word (`CMD_W`, R7); codes are 32 bits too (`CODE_W`). -/
abbrev Word := BitVec 32

/-- A 64-bit value: the DATA operand, a RESULT, a frequency, a bit count (`DATA_W`, `FREQ_W`, `CNT_W`, R7). -/
abbrev Data := BitVec 64

/-- A 9-bit node id (R35, R72). -/
abbrev NodeId := BitVec 9

/-- A table with one entry per symbol (R32 to R34): any symbol is a legal index (R71). -/
abbrev Table (α : Type) := Vector α 256

/-- The all-ones answer of a read past the end of an enumeration or of the arena (R148, R149, R187). -/
abbrev allOnes : Data := BitVec.allOnes 64

end Sys2Proof
end

