-- ==== Sys2Proof/Config.lean ====
section
/-! DEFINITION. The parameters of the block: the fixed ones of rule R7 and the constant of rule R43, and the two
capacities that rule R8 leaves to the implementation. The latencies `LAT` and `RST_LAT` of R8 are time, which the
model does not have (R362). -/

namespace Sys2Proof.Config

/-- `MAX_CODE_LEN` (R7): the longest code. -/
def maxCodeLen : Nat := 32

/-- The first sum of frequencies that BUILD refuses: `2 ^ NODEFREQ_W` (R143). -/
def freqLimit : Nat := 2 ^ 64

/-- The Kraft sum of a complete code, in units of `2 ^ (-32)` (R181). -/
def kraftWhole : Nat := 2 ^ 32

/-- `NNODES_MAX` (R7): the slots of the node arena. -/
def nnodesMax : Nat := 511

/-- The constant of control register ID: "HCB1" and spec revision 1 (R43). -/
def idValue : Data := 0x0000000148434231#64

/-- The greatest control register number (R41). -/
def lastReg : Nat := 0x0C

/-- One less than `IN_DEPTH`; an implementation fixes it, and no value of it can be proved. -/
opaque inDepthPred : Nat

/-- One less than `OUT_DEPTH`; an implementation fixes it, and no value of it can be proved. -/
opaque outDepthPred : Nat

/-- `IN_DEPTH` ≥ 1 (R8): the capacity of the IN FIFO. It "changes no value" (item U3 of file 93): only the pin
`in_ready` shows it. -/
def inDepth : Nat := inDepthPred + 1

/-- `OUT_DEPTH` ≥ 1 (R8): the capacity of the OUT FIFO. It "changes no value" (item U4 of file 93): back-pressure
only delays the block (R77). -/
def outDepth : Nat := outDepthPred + 1

end Sys2Proof.Config
end

