-- ==== Sys2Proof/Syntax.lean ====
section
/-! DEFINITION. The 21 commands of the block (rules R101, R105 and R110), one constructor per row of
spec/opcode_table.json, with the operands the command reads: fields of its word, and DATA for the four commands
that use it. -/

namespace Sys2Proof

/-- What one transfer on the command channel carries (R100): the 32-bit word and the 64-bit DATA operand. -/
structure Command where
  word : Word
  data : Data
deriving DecidableEq, Repr

/-- A decoded command. Every field is an unsigned integer taken as it stands in the word (R102); a command that
does not use DATA has no DATA operand here, because it ignores it (R100). -/
inductive Instr where
  /-- NOP (R290). -/
  | nop
  /-- CLR (R291). -/
  | clr
  /-- SETFREQ sym, count (R141); the count is DATA. -/
  | setfreq (sym : Sym) (count : Data)
  /-- RDFREQ sym (R142). -/
  | rdfreq (sym : Sym)
  /-- BUILD (R143). -/
  | build
  /-- RDNODE id (R148). -/
  | rdnode (idx : NodeId)
  /-- RDNFREQ id (R149). -/
  | rdnfreq (idx : NodeId)
  /-- SETLEN sym, len (R180). -/
  | setlen (sym : Sym) (len : Byte)
  /-- GENCODE (R181). -/
  | gencode
  /-- RDLEN sym (R185). -/
  | rdlen (sym : Sym)
  /-- RDCODE sym (R186). -/
  | rdcode (sym : Sym)
  /-- RDENT index (R187). -/
  | rdent (k : Byte)
  /-- WRSYM sym (R221). -/
  | wrsym (sym : Sym)
  /-- WRBITS len, bits (R222); the bits are the low `len` bits of DATA. -/
  | wrbits (len : Byte) (bits : Data)
  /-- FLUSH (R223). -/
  | flush
  /-- BWRST (R224). -/
  | bwrst
  /-- BRSTART budget (R250); the budget is DATA. -/
  | brstart (budget : Data)
  /-- RDBITS len (R252). -/
  | rdbits (len : Byte)
  /-- DECSYM (R254). -/
  | decsym
  /-- DECODE count (R256); the count is DATA. -/
  | decode (count : Data)
  /-- RDREG reg (R292). -/
  | rdreg (reg : Byte)
deriving DecidableEq, Repr

end Sys2Proof
end

