-- ==== Sys2Proof/WellFormed.lean ====
section
/-! DEFINITION. Well-formedness: which command words are legal, by the formats of rule R101, and which operand
values of a legal command its own rule accepts (R106). Neither is assumed by the machine: an illegal word and an
operand out of range each raise an error that the machine models. -/

namespace Sys2Proof

/-- The five formats of a command word (R101). -/
inductive Format where
  | n | s | sl | l | i
deriving DecidableEq, Repr

/-- The bits the format reserves are all 0 (R101). -/
def Format.reservedZero : Format → Word → Bool
  | .n,  w => w.extractLsb' 0 26 == 0#26
  | .s,  w => w.extractLsb' 0 18 == 0#18
  | .sl, w => w.extractLsb' 0 10 == 0#10
  | .l,  w => w.extractLsb' 18 8 == 0#8 && w.extractLsb' 0 10 == 0#10
  | .i,  w => w.extractLsb' 0 17 == 0#17

/-- The format of an opcode (the column `used by` of R101); opcodes 0x15 to 0x3F are reserved (R107). -/
def Format.ofOpcode : Nat → Option Format
  | 0x00 | 0x01 | 0x04 | 0x08 | 0x0E | 0x0F | 0x10 | 0x12 | 0x13 => some .n
  | 0x02 | 0x03 | 0x09 | 0x0A | 0x0B | 0x0C | 0x14 => some .s
  | 0x07 => some .sl
  | 0x0D | 0x11 => some .l
  | 0x05 | 0x06 => some .i
  | _ => none

/-- The word is legal: its opcode is not reserved and every bit its format reserves is 0 (R101, R103, R107). -/
def Command.wf (c : Command) : Bool :=
  match Format.ofOpcode (c.word.extractLsb' 26 6).toNat with
  | some f => f.reservedZero c.word
  | none => false

/-- The operand lies in the range its command accepts (R106); every other command accepts every operand. -/
def Instr.wf : Instr → Bool
  | .setlen _ len => len.toNat ≤ Config.maxCodeLen
  | .wrbits len _ => len.toNat ≤ Config.maxCodeLen
  | .rdbits len => len.toNat ≤ Config.maxCodeLen
  | .rdreg reg => reg.toNat ≤ Config.lastReg
  | _ => true

end Sys2Proof
end

