-- ==== Sys2Proof/Decode.lean ====
section
/-! DEFINITION. Decoding a command word by the opcode map of rule R105, as rule R103 orders it, and encoding a
command into its word (R105's assembly formula). Decoding is total: every word is a command or is illegal under a
name of its own. -/

namespace Sys2Proof

/-- Why a word is illegal (R103, R107). Either way the block raises ILLEGAL_CMD with argument 0. -/
inductive IllegalWord where
  /-- Opcode 0x15 to 0x3F. -/
  | reservedOpcode
  /-- A reserved bit of the opcode's row is 1. -/
  | reservedBit
deriving DecidableEq, Repr

/-- The answer of the decoder. -/
inductive Decoded where
  | instr (i : Instr)
  | illegal (why : IllegalWord)
deriving DecidableEq, Repr

/-- One row of the opcode map (R105): a word is the row's command if and only if `w & mask = match`. -/
structure OpcodeRow where
  matchBits : Word
  mask : Word
deriving DecidableEq, Repr

/-- `ROW` of R103: the opcode map of R105, by opcode. -/
def opcodeRow : Nat → Option OpcodeRow
  | 0x00 => some ⟨0x00000000#32, 0xFFFFFFFF#32⟩
  | 0x01 => some ⟨0x04000000#32, 0xFFFFFFFF#32⟩
  | 0x02 => some ⟨0x08000000#32, 0xFC03FFFF#32⟩
  | 0x03 => some ⟨0x0C000000#32, 0xFC03FFFF#32⟩
  | 0x04 => some ⟨0x10000000#32, 0xFFFFFFFF#32⟩
  | 0x05 => some ⟨0x14000000#32, 0xFC01FFFF#32⟩
  | 0x06 => some ⟨0x18000000#32, 0xFC01FFFF#32⟩
  | 0x07 => some ⟨0x1C000000#32, 0xFC0003FF#32⟩
  | 0x08 => some ⟨0x20000000#32, 0xFFFFFFFF#32⟩
  | 0x09 => some ⟨0x24000000#32, 0xFC03FFFF#32⟩
  | 0x0A => some ⟨0x28000000#32, 0xFC03FFFF#32⟩
  | 0x0B => some ⟨0x2C000000#32, 0xFC03FFFF#32⟩
  | 0x0C => some ⟨0x30000000#32, 0xFC03FFFF#32⟩
  | 0x0D => some ⟨0x34000000#32, 0xFFFC03FF#32⟩
  | 0x0E => some ⟨0x38000000#32, 0xFFFFFFFF#32⟩
  | 0x0F => some ⟨0x3C000000#32, 0xFFFFFFFF#32⟩
  | 0x10 => some ⟨0x40000000#32, 0xFFFFFFFF#32⟩
  | 0x11 => some ⟨0x44000000#32, 0xFFFC03FF#32⟩
  | 0x12 => some ⟨0x48000000#32, 0xFFFFFFFF#32⟩
  | 0x13 => some ⟨0x4C000000#32, 0xFFFFFFFF#32⟩
  | 0x14 => some ⟨0x50000000#32, 0xFC03FFFF#32⟩
  | _ => none

/-- Field OP, bits [31:26] (R102). -/
def opField (w : Word) : BitVec 6 := w.extractLsb' 26 6

/-- Field SYM, bits [25:18] (R102). -/
def symField (w : Word) : Byte := w.extractLsb' 18 8

/-- Field LEN, bits [17:10] (R102). -/
def lenField (w : Word) : Byte := w.extractLsb' 10 8

/-- Field IDX, bits [25:17] (R102). -/
def idxField (w : Word) : NodeId := w.extractLsb' 17 9

/-- The command of an opcode, its fields read from the word and DATA (R102, R103); none for a reserved opcode. -/
def instrOf (c : Command) : Nat → Option Instr
  | 0x00 => some .nop
  | 0x01 => some .clr
  | 0x02 => some (.setfreq (symField c.word) c.data)
  | 0x03 => some (.rdfreq (symField c.word))
  | 0x04 => some .build
  | 0x05 => some (.rdnode (idxField c.word))
  | 0x06 => some (.rdnfreq (idxField c.word))
  | 0x07 => some (.setlen (symField c.word) (lenField c.word))
  | 0x08 => some .gencode
  | 0x09 => some (.rdlen (symField c.word))
  | 0x0A => some (.rdcode (symField c.word))
  | 0x0B => some (.rdent (symField c.word))
  | 0x0C => some (.wrsym (symField c.word))
  | 0x0D => some (.wrbits (lenField c.word) c.data)
  | 0x0E => some .flush
  | 0x0F => some .bwrst
  | 0x10 => some (.brstart c.data)
  | 0x11 => some (.rdbits (lenField c.word))
  | 0x12 => some .decsym
  | 0x13 => some (.decode c.data)
  | 0x14 => some (.rdreg (symField c.word))
  | _ => none

/-- `decode` of R103: the opcode selects the row, a reserved bit that is 1 makes the word illegal, and the row's
fields are then read. DATA is carried to the commands that use it and changes nothing else (R100). -/
def decode (c : Command) : Decoded :=
  match opcodeRow (opField c.word).toNat, instrOf c (opField c.word).toNat with
  | some row, some i =>
    if c.word &&& row.mask = row.matchBits then .instr i else .illegal .reservedBit
  | _, _ => .illegal .reservedOpcode

/-- The word of format N: `OP << 26` (R101, R105). -/
def wordN (op : BitVec 6) : Word := op.zeroExtend 32 <<< 26

/-- The word of format S: `(OP << 26) | (SYM << 18)` (R101, R105). -/
def wordS (op : BitVec 6) (sym : Byte) : Word := wordN op ||| (sym.zeroExtend 32 <<< 18)

/-- The word of format SL: `(OP << 26) | (SYM << 18) | (LEN << 10)` (R101, R105). -/
def wordSL (op : BitVec 6) (sym len : Byte) : Word := wordS op sym ||| (len.zeroExtend 32 <<< 10)

/-- The word of format L: `(OP << 26) | (LEN << 10)` (R101, R105). -/
def wordL (op : BitVec 6) (len : Byte) : Word := wordN op ||| (len.zeroExtend 32 <<< 10)

/-- The word of format I: `(OP << 26) | (IDX << 17)` (R101, R105). -/
def wordI (op : BitVec 6) (idx : NodeId) : Word := wordN op ||| (idx.zeroExtend 32 <<< 17)

/-- The word of a command (R105). -/
def encodeWord : Instr → Word
  | .nop => wordN 0x00#6
  | .clr => wordN 0x01#6
  | .setfreq sym _ => wordS 0x02#6 sym
  | .rdfreq sym => wordS 0x03#6 sym
  | .build => wordN 0x04#6
  | .rdnode idx => wordI 0x05#6 idx
  | .rdnfreq idx => wordI 0x06#6 idx
  | .setlen sym len => wordSL 0x07#6 sym len
  | .gencode => wordN 0x08#6
  | .rdlen sym => wordS 0x09#6 sym
  | .rdcode sym => wordS 0x0A#6 sym
  | .rdent k => wordS 0x0B#6 k
  | .wrsym sym => wordS 0x0C#6 sym
  | .wrbits len _ => wordL 0x0D#6 len
  | .flush => wordN 0x0E#6
  | .bwrst => wordN 0x0F#6
  | .brstart _ => wordN 0x10#6
  | .rdbits len => wordL 0x11#6 len
  | .decsym => wordN 0x12#6
  | .decode _ => wordN 0x13#6
  | .rdreg reg => wordS 0x14#6 reg

/-- The DATA operand of a command; a command that does not use DATA is sent with DATA = 0 (R110). -/
def encodeData : Instr → Data
  | .setfreq _ count => count
  | .wrbits _ bits => bits
  | .brstart budget => budget
  | .decode count => count
  | _ => 0#64

/-- The command as the host sends it: its word and its DATA (R100). -/
def encode (i : Instr) : Command := ⟨encodeWord i, encodeData i⟩

/-- The transfer whose word is bits 31 to 0 and whose DATA is bits 95 to 32 of a number; the opcode table gives a
row its 32 word bits, so DATA is 0 there. -/
def commandOfTableWord (nbits w : Nat) : Command :=
  ⟨BitVec.ofNat 32 (w % 2 ^ nbits), BitVec.ofNat 64 ((w % 2 ^ nbits) / 2 ^ 32)⟩

/-- What the decoder reads from an instruction whose bits, numbered as spec/opcode_table.json numbers them, are
`w`. -/
def decodeTableWord (nbits w : Nat) : Option Instr :=
  match decode (commandOfTableWord nbits w) with
  | .instr i => some i
  | .illegal _ => none

end Sys2Proof
end

