-- ==== Sys2Proof/Machine/State.lean ====
section
/-! DEFINITION. Everything the block holds (file 10_state.md), its two streams and its command and response ports
(file 20_memory.md), and the host's side of those ports: the second agent of rule R15. All of it is plain data. -/

namespace Sys2Proof.Machine

/-- MODE: what kind of code table LEN and CODE hold (R36). -/
inductive Mode where
  /-- 0, NONE: no valid table. -/
  | none
  /-- 1, EMPTY: a valid table with no symbols. -/
  | empty
  /-- 2, SINGLE: a valid table with exactly one symbol, of length 1. -/
  | single
  /-- 3, MULTI: a valid table with two or more symbols. -/
  | multi
deriving DecidableEq, Repr

/-- ERRCODE (R310); codes 8 to 15 are never recorded and have no constructor. -/
inductive ErrCode where
  | none | illegalCmd | format | truncated | lenOverflow | freqOverflow | noTable | noSym
deriving DecidableEq, Repr

/-- `rsp_status` (R104); status 3 is never sent and has no constructor. -/
inductive Status where
  | ok | error | rejected
deriving DecidableEq, Repr

/-- A response: status and RESULT (R104). -/
structure Response where
  status : Status
  result : Data
deriving DecidableEq, Repr

/-- One slot of the node arena (R35). -/
structure Node where
  /-- LEAF: a leaf, not an internal node. -/
  leaf : Bool
  /-- SYM: the leaf's symbol; 0 in an internal node. -/
  sym : Sym
  /-- LEFT: id of the left child (bit "0"); 0 in a leaf. -/
  left : NodeId
  /-- RIGHT: id of the right child (bit "1"); 0 in a leaf. -/
  right : NodeId
  /-- FREQ: the leaf's frequency, or the sum of the children's frequencies. -/
  freq : Data
deriving DecidableEq, Repr

/-- How far a command held on an empty IN has come (R76): the local variables of the pseudocode of RDBITS, DECSYM
and DECODE (R252, R253, R256), which the command needs to continue. -/
structure Progress where
  /-- `v`: the bits read so far, as a number. -/
  val : Nat
  /-- `l`: how many bits `val` holds. -/
  len : Nat
  /-- `i`: the symbols this DECODE has pushed. -/
  done : Nat
deriving DecidableEq, Repr

/-- The things the host can do to the block, "and nothing else" (R89). -/
inductive HostAction where
  /-- Issue a command: one transfer on the command channel. -/
  | issue (c : Command)
  /-- Take the waiting response. -/
  | takeResponse
  /-- Append a byte to IN. -/
  | feed (b : Byte)
  /-- Take a byte from OUT. -/
  | takeOut
  /-- Assert `rst_n` (R351). Where it meets a command that executes, `pushed` says how many of the bytes that the
  command pushes to OUT were pushed before the reset took effect: the host chooses when it asserts `rst_n`. -/
  | reset (pushed : Nat)
deriving DecidableEq, Repr

/-- Everything the block holds, the ports, and the host's side. -/
structure State where
  /-- FREQ, 256 entries of 64 bits (R32). -/
  freq : Table Data
  /-- LEN, 256 entries of 8 bits (R33). -/
  len : Table Byte
  /-- CODE, 256 entries of 32 bits (R34). -/
  code : Table Word
  /-- NODE, 511 slots (R35); slots at or above NNODES are never observable. -/
  nodes : Vector Node 511
  /-- NNODES, 10 bits (R35). -/
  nnodes : BitVec 10
  /-- MODE, 2 bits (R36). -/
  mode : Mode
  /-- BW_ACC, 8 bits (R38): the pending bits in its low BW_NBITS bits. -/
  bwAcc : Byte
  /-- BW_NBITS, 3 bits (R38). -/
  bwNbits : BitVec 3
  /-- BW_BITCNT, 64 bits (R38). -/
  bwBitcnt : Data
  /-- BR_BUDGET, 64 bits (R39). -/
  brBudget : Data
  /-- BR_POS, 64 bits (R39). -/
  brPos : Data
  /-- BR_BYTE, 8 bits (R39). -/
  brByte : Byte
  /-- BR_NBITS, 4 bits (R39). -/
  brNbits : BitVec 4
  /-- ERR: the block is in the error state (R40). -/
  err : Bool
  /-- ERRCODE, 4 bits (R40, R310). -/
  errCode : ErrCode
  /-- ERRARG, 64 bits (R40, R311). -/
  errArg : Data
  /-- ERRCMD, 32 bits (R40). -/
  errCmd : Word
  /-- IN: the bytes the host has supplied and the block has not consumed, oldest first (R74). -/
  inq : List Byte
  /-- OUT: the bytes the block has produced and the host has not yet taken, oldest first (R75). -/
  out : List Byte
  /-- The accepted command that has had no response: it executes or is held (R88). -/
  cmd : Option Command
  /-- Set while that command is held on an empty IN, with what it needs to continue (R76, R326). -/
  hold : Option Progress
  /-- The response channel: the response that waits to be taken (R88). -/
  rsp : Option Response
  /-- The host: what it does next, in the order in which its transfers take place (R15, R89). -/
  script : List HostAction
  /-- The host: the responses of this run it has taken, in order, since the last `rst_n` (R364). -/
  rspLog : List Response
  /-- The host: the OUT bytes delivered to it since the last `rst_n`, in order (R364). -/
  received : List Byte
deriving DecidableEq, Repr

/-- An arena slot with every field 0 (the spec's choice for a model that needs a value, R350). -/
def Node.zero : Node := ⟨false, 0#8, 0#9, 0#9, 0#64⟩

/-- The state after reset, with the streams and ports empty and a host that does nothing (R350, R352, R353). -/
def State.reset : State where
  freq := Vector.replicate 256 0#64
  len := Vector.replicate 256 0#8
  code := Vector.replicate 256 0#32
  nodes := Vector.replicate 511 Node.zero
  nnodes := 0#10
  mode := .none
  bwAcc := 0#8
  bwNbits := 0#3
  bwBitcnt := 0#64
  brBudget := 0#64
  brPos := 0#64
  brByte := 0#8
  brNbits := 0#4
  err := false
  errCode := .none
  errArg := 0#64
  errCmd := 0#32
  inq := []
  out := []
  cmd := Option.none
  hold := Option.none
  rsp := Option.none
  script := []
  rspLog := []
  received := []

/-- The reasons a step could stop with a fault: none. Every error of the block is a defined next state (R316), a
rejected command has a response (R317), and a command held on an empty IN waits and is "never an error" (R76), so
no constructor is needed and nobody raises one. -/
inductive Fault where
deriving DecidableEq, Repr

/-- The reasons a step could be refused. -/
inductive Refusal where
  /-- The instruction of this mnemonic has no meaning in the model. Raised by an arm of `exec` alone; safe (nothing
  is claimed of such a step). No arm raises it: all 21 commands have their meaning. -/
  | notModelled (mnemonic : String)
deriving DecidableEq, Repr

end Sys2Proof.Machine
end

