-- ==== Sys2Proof/Machine/Flags.lean ====
section
/-! DEFINITION. The status bits. The block has no condition codes (R44); its only status bits are the fields of
STATUS (R42), built here from ERR, ERRCODE and MODE. -/

namespace Sys2Proof.Machine

/-- The number of a mode (R36). -/
def Mode.bits : Mode → BitVec 2
  | .none => 0
  | .empty => 1
  | .single => 2
  | .multi => 3

/-- The number of an error code (R310). -/
def ErrCode.bits : ErrCode → BitVec 4
  | .none => 0
  | .illegalCmd => 1
  | .format => 2
  | .truncated => 3
  | .lenOverflow => 4
  | .freqOverflow => 5
  | .noTable => 6
  | .noSym => 7

/-- `rsp_status` (R104). -/
def Status.bits : Status → BitVec 2
  | .ok => 0
  | .error => 1
  | .rejected => 2

/-- STATUS (R42): ERR in bit 0, ERRCODE in bits 7:4, MODE in bits 9:8, every other bit 0. -/
def State.statusWord (s : State) : Data :=
  (BitVec.ofBool s.err).zeroExtend 64 ||| (s.errCode.bits.zeroExtend 64 <<< 4)
    ||| (s.mode.bits.zeroExtend 64 <<< 8)

/-- `rsp_status` while a response waits (R88, R104). -/
def State.rspStatus (s : State) : Option (BitVec 2) := s.rsp.map fun r => r.status.bits

end Sys2Proof.Machine
end

