-- ==== Sys2Proof/Machine/Ops.lean ====
section
/-! DEFINITION. The named operations that the commands share: table access (R11), the lists Present and Live and
the values derived from LEN (R13, R37), responding (R104), error entry and the error-state check (R316, R317),
leaving the error state by reset (R350 to R352), the two streams, and the host's actions (R89). -/

namespace Sys2Proof.Machine

/-- `TABLE[s]` (R11). -/
def tableGet {α : Type} (t : Table α) (s : Sym) : α := t[s.toNat]'s.isLt

/-- `TABLE[s] <- v` (R11). -/
def tableSet {α : Type} (t : Table α) (s : Sym) (v : α) : Table α := t.set s.toNat v s.isLt

/-- Every entry of a table at one value. -/
def tableFill {α : Type} (v : α) : Table α := Vector.replicate 256 v

/-- The 256 symbols in ascending order. -/
def allSyms : List Sym := (List.range 256).map (BitVec.ofNat 8)

/-- The entries of a table with their symbols, in ascending order of the symbol. -/
def entries {α : Type} (t : Table α) : List (Sym × α) := allSyms.zip t.toList

/-- `Present`: the symbols with a nonzero length, ascending (R13). -/
def present (len : Table Byte) : List Sym := ((entries len).filter fun e => e.2 != 0#8).map Prod.fst

/-- `Live`: the symbols with a nonzero frequency, ascending (R13). -/
def live (freq : Table Data) : List Sym := ((entries freq).filter fun e => e.2 != 0#64).map Prod.fst

/-- The lengths of the present symbols, in the order of Present. -/
def presentLens (len : Table Byte) : List Nat :=
  ((entries len).filter fun e => e.2 != 0#8).map fun e => e.2.toNat

/-- NSYM (R37). -/
def nsym (len : Table Byte) : Nat := (present len).length

/-- MAXLEN: the greatest length, 0 when Present is empty (R37). -/
def maxLen (len : Table Byte) : Nat := (presentLens len).foldl max 0

/-- The least of a list of numbers, 0 for the empty list. -/
def leastOf : List Nat → Nat
  | [] => 0
  | a :: as => as.foldl min a

/-- MINLEN: the least nonzero length, 0 when Present is empty (R37). -/
def minLen (len : Table Byte) : Nat := leastOf (presentLens len)

/-- `bits(v, l)`: the low `l` bits of `v`, the most significant first (R10). -/
def bitsOf (v : Nat) : Nat → List Bool
  | 0 => []
  | l + 1 => v.testBit l :: bitsOf v l

/-- The command ends: its response is sent, and the block holds no command (R104, R82). -/
def State.respond (s : State) (st : Status) (v : Data) : State :=
  { s with cmd := none, hold := none, rsp := some ⟨st, v⟩ }

/-- `respond(v)` of the pseudocode: status OK (R11, R104). -/
def State.respondOk (s : State) (v : Data) : State := s.respond .ok v

/-- Error entry, `raise E(arg)` in a command of word `w`: the first error is recorded, a later one (only an RDREG
in the error state can raise one) leaves the error registers as they are, and the response is ERROR with RESULT 0
(R316). -/
def State.raise (s : State) (e : ErrCode) (arg : Data) (w : Word) : State :=
  if s.err then s.respond .error 0#64
  else { s with err := true, errCode := e, errArg := arg, errCmd := w }.respond .error 0#64

/-- The response to a command that the error state keeps from executing: REJECTED, "no state change at all"
(R317). -/
def State.reject (s : State) : State := s.respond .rejected 0#64

/-- The error-state check, the first step of every command but NOP, CLR and RDREG (R317). -/
def State.unlessErr (s : State) (body : State → State) : State :=
  if s.err then s.reject else body s

/-- MODE becomes NONE, and with it every CODE entry 0 (R34, R141, R180). -/
def State.dropTable (s : State) : State :=
  { s with mode := .none, code := tableFill 0#32 }

/-- `RESET_STATE()`: every register and table at its reset value; the streams, the ports and the host's side stay
(R350). -/
def State.resetState (s : State) : State :=
  { State.reset with
    inq := s.inq, out := s.out, cmd := s.cmd, hold := s.hold, rsp := s.rsp,
    script := s.script, rspLog := s.rspLog, received := s.received }

/-- A rising clock edge with `rst_n` = 0: RESET_STATE, IN emptied, the executing or held command abandoned without
a response and a waiting response dropped; OUT is not changed (R351, R352). A new run begins, so the host's record of
the run's responses and OUT bytes starts empty (R364). -/
def State.hardReset (s : State) : State :=
  { s.resetState with inq := [], cmd := none, hold := none, rsp := none, rspLog := [], received := [] }

/-- `rst_n` meets a command that would have taken the block from `s` to `t`: of the bytes the command pushes to
OUT, the first `k` were pushed before the reset and stay (R351, R352). -/
def State.abandon (k : Nat) (s t : State) : State :=
  { s with out := s.out ++ (t.out.drop s.out.length).take k }.hardReset

/-- `OutPush(b)` (R11, R77). -/
def State.outPush (s : State) (b : Byte) : State := { s with out := s.out ++ [b] }

/-- The command waits for a byte on IN, with what it needs to continue; nothing else changes (R76). -/
def State.holdWith (s : State) (p : Progress) : State := { s with hold := some p }

/-- Where a command stands when it starts or continues (R76). -/
def State.progress (s : State) : Progress := s.hold.getD ⟨0, 0, 0⟩

/-- `cmd_ready`: no command is executing and no response is waiting (R88). -/
def State.cmdReady (s : State) : Bool := s.cmd.isNone && s.rsp.isNone

/-- `rsp_valid`: a response waits to be taken (R88). -/
def State.rspValid (s : State) : Bool := s.rsp.isSome

/-- `out_valid`: the OUT FIFO holds a byte (R88). -/
def State.outValid (s : State) : Bool := !s.out.isEmpty

/-- `in_ready` as an implementation of capacity `IN_DEPTH` shows it (R88). The step does not ask it: a model
"treats both streams as unbounded" (D30). -/
def State.inReady (s : State) : Bool := decide (s.inq.length < Config.inDepth)

/-- The command is held: it waits and IN is still empty (R76). -/
def State.held (s : State) : Bool := s.hold.isSome && s.inq.isEmpty

/-- The host's next action, where the ports allow it; an action they do not allow waits and nothing changes (R88,
R89, R360). Asserting `rst_n` is always allowed (R363). -/
def State.hostMove (s : State) : State :=
  match s.script with
  | [] => s
  | .issue c :: rest => if s.cmdReady then { s with cmd := some c, script := rest } else s
  | .takeResponse :: rest =>
    match s.rsp with
    | some r => { s with rsp := none, rspLog := s.rspLog ++ [r], script := rest }
    | none => s
  | .feed b :: rest => { s with inq := s.inq ++ [b], script := rest }
  | .takeOut :: rest =>
    match s.out with
    | b :: bs => { s with out := bs, received := s.received ++ [b], script := rest }
    | [] => s
  | .reset _ :: rest => { s with script := rest }.hardReset

/-- The host's next action is to assert `rst_n`: the number of OUT bytes the executing command pushes before it,
and the actions after it. -/
def State.resetNext (s : State) : Option (Nat × List HostAction) :=
  match s.script with
  | .reset k :: rest => some (k, rest)
  | _ => none

end Sys2Proof.Machine
end

