-- ==== Sys2Proof/Machine/Operands.lean ====
section
/-! DEFINITION. What the operand fields of a command name: the control register map (R41), a node slot (R72), an
entry of Present (R187), and the operand ranges of R106. -/

namespace Sys2Proof.Machine

/-- A length or bit count that its command accepts: 0 to 32 (R106). -/
def lenAccepted (len : Byte) : Bool := len.toNat ≤ Config.maxCodeLen

/-- A register number that names a register: 0x00 to 0x0C (R73, R106). -/
def regAccepted (reg : Byte) : Bool := reg.toNat ≤ Config.lastReg

/-- `REGVAL(r)`: the contents of control register `r`, zero-extended (R41). The numbers above 0x0C name no
register; RDREG does not read them. -/
def State.regVal (s : State) (reg : Byte) : Data :=
  match reg.toNat with
  | 0x00 => s.statusWord
  | 0x01 => BitVec.ofNat 64 (nsym s.len)
  | 0x02 => BitVec.ofNat 64 (maxLen s.len)
  | 0x03 => BitVec.ofNat 64 (minLen s.len)
  | 0x04 => s.nnodes.zeroExtend 64
  | 0x05 => s.bwBitcnt
  | 0x06 => s.bwNbits.zeroExtend 64
  | 0x07 => s.brBudget
  | 0x08 => s.brPos
  | 0x09 => s.brNbits.zeroExtend 64
  | 0x0A => s.errArg
  | 0x0B => s.errCmd.zeroExtend 64
  | _ => Config.idValue

/-- Slot `i` of the arena when it is in use: `i < NNODES` (R72). -/
def State.nodeAt (s : State) (i : NodeId) : Option Node :=
  if i.toNat < s.nnodes.toNat then s.nodes[i.toNat]? else none

/-- RDNODE's result: `{RIGHT, LEFT, SYM, LEAF}`, zero-extended (R148). -/
def Node.pack (n : Node) : Data :=
  (BitVec.ofBool n.leaf).zeroExtend 64 ||| (n.sym.zeroExtend 64 <<< 1) ||| (n.left.zeroExtend 64 <<< 9)
    ||| (n.right.zeroExtend 64 <<< 18)

/-- RDENT's result for a present symbol: `{CODE[s], LEN[s], s}`, zero-extended (R187). -/
def State.packEntry (s : State) (x : Sym) : Data :=
  x.zeroExtend 64 ||| ((tableGet s.len x).zeroExtend 64 <<< 8) ||| ((tableGet s.code x).zeroExtend 64 <<< 16)

end Sys2Proof.Machine
end

