-- ==== Sys2Proof/Machine/CodeTable.lean ====
section
/-! DEFINITION. The code-table generator: CANON and MATCH (R182, R184) and the commands SETLEN, GENCODE, RDLEN,
RDCODE and RDENT (R180, R181, R185 to R187). -/

namespace Sys2Proof.Machine

/-- The Kraft sum in units of `2 ^ (-32)`: the sum of `2 ^ (32 - LEN[s])` over Present, unbounded (R181). -/
def kraftSum (len : Table Byte) : Nat :=
  ((presentLens len).map fun l => 2 ^ (Config.maxCodeLen - l)).sum

/-- `x` comes before `y` or is `y` in the order of CANON: length ascending, then symbol ascending (R182). -/
def canonLe (len : Table Byte) (x y : Sym) : Bool :=
  (tableGet len x).toNat < (tableGet len y).toNat
    || ((tableGet len x).toNat == (tableGet len y).toNat && decide (x.toNat ≤ y.toNat))

/-- `order` of CANON: Present sorted by length, then symbol (R182). -/
def canonOrder (len : Table Byte) : List Sym :=
  (present len).insertionSort fun x y => canonLe len x y = true

/-- The loop of CANON over the symbols after the first: the next code is the previous plus one, shifted left by
the increase in length (R182). -/
def canonAssign (len : Table Byte) : (code prev : Nat) → List Sym → Table Word → Table Word
  | _, _, [], tab => tab
  | code, prev, s :: rest, tab =>
    let l := (tableGet len s).toNat
    let c := (code + 1) <<< (l - prev)
    canonAssign len c l rest (tableSet tab s (BitVec.ofNat 32 c))

/-- `CANON()` on the table `tab` (R182): the first symbol in order gets code 0. -/
def canonTable (len : Table Byte) (tab : Table Word) : Table Word :=
  match canonOrder len with
  | [] => tab
  | s :: rest => canonAssign len 0 (tableGet len s).toNat rest (tableSet tab s 0#32)

/-- `MATCH(v, l)`: the symbol whose code has length `l` and value `v` (R184). At most one matches in a MULTI
table; the lowest is taken. -/
def matchCode (len : Table Byte) (code : Table Word) (v l : Nat) : Option Sym :=
  (present len).find? fun s => (tableGet len s).toNat == l && (tableGet code s).toNat == v

/-- The body of SETLEN (R180). -/
def State.loadLen (s : State) (sym : Sym) (len : Byte) : State :=
  if lenAccepted len then
    ({ s with len := tableSet s.len sym len, nnodes := 0#10 }.dropTable).respondOk 0#64
  else s.raise .format (len.zeroExtend 64) (encodeWord (.setlen sym len))

/-- SETLEN (R180). -/
def execSetlen (sym : Sym) (len : Byte) (s : State) : Host.Outcome State Fault Refusal :=
  .next (s.unlessErr fun s => s.loadLen sym len)

/-- GENCODE refuses the lengths: MODE is NONE, every CODE entry 0 (R181, R319). -/
def State.refuseTable (s : State) (arg : Nat) : State :=
  s.dropTable.raise .format (BitVec.ofNat 64 arg) (encodeWord .gencode)

/-- The body of GENCODE (R181). -/
def State.genCode (s : State) : State :=
  let cleared := { s with code := tableFill 0#32 }
  match present s.len with
  | [] => { cleared with mode := .empty }.respondOk 0#64
  | [x] =>
    if tableGet s.len x = 1#8 then { cleared with mode := .single }.respondOk 1#64
    else s.refuseTable (tableGet s.len x).toNat
  | _ :: _ :: _ =>
    if maxLen s.len > Config.maxCodeLen then s.refuseTable (maxLen s.len)
    else if kraftSum s.len ≠ Config.kraftWhole then s.refuseTable (kraftSum s.len)
    else
      { cleared with code := canonTable s.len cleared.code, mode := .multi }.respondOk
        (BitVec.ofNat 64 (nsym s.len))

/-- GENCODE (R181). -/
def execGencode (s : State) : Host.Outcome State Fault Refusal :=
  .next (s.unlessErr State.genCode)

/-- RDLEN (R185). -/
def execRdlen (sym : Sym) (s : State) : Host.Outcome State Fault Refusal :=
  .next (s.unlessErr fun s => s.respondOk ((tableGet s.len sym).zeroExtend 64))

/-- RDCODE (R186). -/
def execRdcode (sym : Sym) (s : State) : Host.Outcome State Fault Refusal :=
  .next (s.unlessErr fun s => s.respondOk ((tableGet s.code sym).zeroExtend 64))

/-- RDENT (R187): the entry of the `k`-th present symbol, or all ones past the last. -/
def execRdent (k : Byte) (s : State) : Host.Outcome State Fault Refusal :=
  .next (s.unlessErr fun s =>
    match (present s.len)[k.toNat]? with
    | some x => s.respondOk (s.packEntry x)
    | none => s.respondOk allOnes)

end Sys2Proof.Machine
end

