-- ==== Sys2Proof/Machine/BitReader.lean ====
section
/-! DEFINITION. The bit reader: GETBIT, DECODE1 and the early length check (R251, R253, R255) and the commands
BRSTART, RDBITS, DECSYM and DECODE (R250, R252, R254, R256). A command that needs a byte while IN is empty stops
where it stands, with what it needs to continue in the field `hold` (R76); when the host has supplied a byte, the
same meaning runs again from there. -/

namespace Sys2Proof.Machine

/-- What GETBIT answers. -/
inductive BitRead where
  /-- The budget is used up: the calling command raises TRUNCATED. -/
  | truncated
  /-- IN is empty and a byte is needed: the command holds. -/
  | hold
  /-- The next bit, and the state with it consumed. -/
  | bit (b : Bool) (s : State)
deriving DecidableEq, Repr

/-- One bit of BR_BYTE taken (the last four lines of R251). -/
def State.takeBit (s : State) : BitRead :=
  .bit (s.brByte.getLsbD (s.brNbits.toNat - 1))
    { s with brNbits := s.brNbits - 1#4, brPos := s.brPos + 1#64 }

/-- `GETBIT()` (R251): the budget is checked before a byte is taken, and a byte is taken only when none of
BR_BYTE's bits is left. -/
def State.getBit (s : State) : BitRead :=
  if s.brPos = s.brBudget then .truncated
  else if s.brNbits = 0#4 then
    match s.inq with
    | [] => .hold
    | b :: rest => { s with inq := rest, brByte := b, brNbits := 8#4 }.takeBit
  else s.takeBit

/-- The bits that can be read before IN runs dry: a bound on the turns of the loops below. -/
def State.availBits (s : State) : Nat := s.brNbits.toNat + 8 * s.inq.length

/-- What a run of bits read for one value or symbol answers. -/
inductive SymRead where
  /-- The budget ran out; the bits read are consumed. -/
  | truncated (s : State)
  /-- IN is empty; `v` and `l` are the bits read so far. -/
  | hold (v l : Nat) (s : State)
  /-- The value or symbol read. -/
  | got (v : Nat) (s : State)
deriving DecidableEq, Repr

/-- The loop of RDBITS, `k` bits still to read: `v <- (v << 1) | GETBIT()` (R252). -/
def readBits : (k : Nat) → (v l : Nat) → State → SymRead
  | 0, v, _, s => .got v s
  | k + 1, v, l, s =>
    match s.getBit with
    | .truncated => .truncated s
    | .hold => .hold v l s
    | .bit b s' => readBits k (2 * v + b.toNat) (l + 1) s'

/-- The body of RDBITS (R252). -/
def State.readCmd (s : State) (len : Byte) : State :=
  if lenAccepted len then
    match readBits (len.toNat - s.progress.len) s.progress.val s.progress.len s with
    | .truncated t => t.raise .truncated 0#64 (encodeWord (.rdbits len))
    | .hold v l t => t.holdWith ⟨v, l, 0⟩
    | .got v t => t.respondOk (BitVec.ofNat 64 v)
  else s.raise .illegalCmd (len.zeroExtend 64) (encodeWord (.rdbits len))

/-- The loop of DECODE1 (R253), from `l` bits already read with value `v`: bits are read until those read so far
are a code. Each turn takes one of the bits that `availBits` counts, so more turns than that are never made and
the first case is not reached when `fuel` exceeds `availBits`. -/
def decode1 : (fuel : Nat) → (v l : Nat) → State → SymRead
  | 0, v, l, s => .hold v l s
  | fuel + 1, v, l, s =>
    match s.getBit with
    | .truncated => .truncated s
    | .hold => .hold v l s
    | .bit b s' =>
      match matchCode s'.len s'.code (2 * v + b.toNat) (l + 1) with
      | some x => .got x.toNat s'
      | none => decode1 fuel (2 * v + b.toNat) (l + 1) s'

/-- `DECODE1()` begun or continued (R253). -/
def State.decodeSym (s : State) (v l : Nat) : SymRead := decode1 (s.availBits + 1) v l s

/-- `Present[0]` (R254, R256). A SINGLE table has one present symbol (R47); the value for a table with none is
never used. -/
def State.onlySym (s : State) : Sym := (present s.len).headD 0#8

/-- The body of DECSYM (R254). -/
def State.decsymCmd (s : State) : State :=
  match s.mode with
  | .none => s.raise .noTable 0#64 (encodeWord .decsym)
  | .empty => s.raise .noSym 0#64 (encodeWord .decsym)
  | .single => s.respondOk (s.onlySym.zeroExtend 64)
  | .multi =>
    match s.decodeSym s.progress.val s.progress.len with
    | .truncated t => t.raise .truncated 0#64 (encodeWord .decsym)
    | .hold v l t => t.holdWith ⟨v, l, 0⟩
    | .got x t => t.respondOk (BitVec.ofNat 64 x)

/-- `EARLY_CHECK(n)` fails: `n × MINLEN > BR_BUDGET − BR_POS`, the product unbounded (R255). -/
def State.tooShort (s : State) (n : Nat) : Bool :=
  decide (n * minLen s.len > s.brBudget.toNat - s.brPos.toNat)

/-- The loop of DECODE in MULTI mode, `i` symbols pushed and `l` bits of the next read with value `v` (R256). Each
turn but the last takes at least one of the bits that `availBits` counts, so the first case is not reached when
`fuel` exceeds `availBits`. -/
def decodeLoop (count : Data) : (fuel : Nat) → (i v l : Nat) → State → State
  | 0, i, v, l, s => s.holdWith ⟨v, l, i⟩
  | fuel + 1, i, v, l, s =>
    if i ≥ count.toNat then s.respondOk count
    else
      match s.decodeSym v l with
      | .truncated t => t.raise .truncated (BitVec.ofNat 64 i) (encodeWord (.decode count))
      | .hold v' l' t => t.holdWith ⟨v', l', i⟩
      | .got x t => decodeLoop count fuel (i + 1) 0 0 (t.outPush (BitVec.ofNat 8 x))

/-- The loop of DECODE, continued from where the command stands. -/
def State.decodeMulti (s : State) (count : Data) : State :=
  decodeLoop count (s.availBits + 1) s.progress.done s.progress.val s.progress.len s

/-- The command has read a bit or pushed a symbol before it was held, so its checks are behind it. -/
def State.underway (s : State) : Bool := decide (s.progress.len > 0 ∨ s.progress.done > 0)

/-- The body of DECODE (R256). -/
def State.decodeCmd (s : State) (count : Data) : State :=
  if s.mode = .none then s.raise .noTable 0#64 (encodeWord (.decode count))
  else if count = 0#64 then s.respondOk 0#64
  else if s.mode = .empty then s.raise .format count (encodeWord (.decode count))
  else if !s.underway && s.tooShort count.toNat then
    s.raise .truncated 0#64 (encodeWord (.decode count))
  else if s.mode = .single then
    { s with out := s.out ++ List.replicate count.toNat s.onlySym }.respondOk count
  else s.decodeMulti count

/-- BRSTART (R250). -/
def execBrstart (budget : Data) (s : State) : Host.Outcome State Fault Refusal :=
  .next (s.unlessErr fun s =>
    { s with brBudget := budget, brPos := 0#64, brByte := 0#8, brNbits := 0#4 }.respondOk 0#64)

/-- RDBITS (R252). -/
def execRdbits (len : Byte) (s : State) : Host.Outcome State Fault Refusal :=
  .next (s.unlessErr fun s => s.readCmd len)

/-- DECSYM (R254). -/
def execDecsym (s : State) : Host.Outcome State Fault Refusal :=
  .next (s.unlessErr State.decsymCmd)

/-- DECODE (R256). -/
def execDecode (count : Data) (s : State) : Host.Outcome State Fault Refusal :=
  .next (s.unlessErr fun s => s.decodeCmd count)

end Sys2Proof.Machine
end

