-- ==== Sys2Proof/Machine/BitWriter.lean ====
section
/-! DEFINITION. The bit writer: PUTBIT and PUTCODE (R220) and the commands WRSYM, WRBITS, FLUSH and BWRST (R221 to
R224). -/

namespace Sys2Proof.Machine

/-- `PUTBIT(b)` (R220): the bit joins BW_ACC; the eighth sends the byte to OUT and empties BW_ACC. -/
def State.putBit (s : State) (b : Bool) : State :=
  let acc := (s.bwAcc <<< 1) ||| (BitVec.ofBool b).zeroExtend 8
  let cnt := s.bwBitcnt + 1#64
  if s.bwNbits.toNat + 1 = 8 then
    { s with bwAcc := 0#8, bwNbits := 0#3, bwBitcnt := cnt }.outPush acc
  else { s with bwAcc := acc, bwNbits := s.bwNbits + 1#3, bwBitcnt := cnt }

/-- The bits of a list, in order, by PUTBIT. -/
def State.putBits (s : State) (bs : List Bool) : State := bs.foldl State.putBit s

/-- `PUTCODE(c, L)`: `bits(c, L)`, most significant bit first (R220). -/
def State.putCode (s : State) (c l : Nat) : State := s.putBits (bitsOf c l)

/-- The body of WRSYM (R221). -/
def State.writeSym (s : State) (sym : Sym) : State :=
  if s.mode = .none then s.raise .noTable 0#64 (encodeWord (.wrsym sym))
  else if tableGet s.len sym = 0#8 then
    s.raise .noSym (sym.zeroExtend 64) (encodeWord (.wrsym sym))
  else (s.putCode (tableGet s.code sym).toNat (tableGet s.len sym).toNat).respondOk 0#64

/-- WRSYM (R221). -/
def execWrsym (sym : Sym) (s : State) : Host.Outcome State Fault Refusal :=
  .next (s.unlessErr fun s => s.writeSym sym)

/-- WRBITS (R222): `DATA[L-1:0]`; the bits of DATA at and above `L` are ignored. -/
def execWrbits (len : Byte) (bits : Data) (s : State) : Host.Outcome State Fault Refusal :=
  .next (s.unlessErr fun s =>
    if lenAccepted len then (s.putCode bits.toNat len.toNat).respondOk 0#64
    else s.raise .illegalCmd (len.zeroExtend 64) (encodeWord (.wrbits len bits)))

/-- The byte FLUSH sends: the pending bits, zero-padded on the low-order side (R223). -/
def State.paddedByte (s : State) : Byte := s.bwAcc <<< (8 - s.bwNbits.toNat)

/-- FLUSH (R223). -/
def execFlush (s : State) : Host.Outcome State Fault Refusal :=
  .next (s.unlessErr fun s =>
    if s.bwNbits.toNat > 0 then
      ({ s with bwAcc := 0#8, bwNbits := 0#3 }.outPush s.paddedByte).respondOk s.bwBitcnt
    else s.respondOk s.bwBitcnt)

/-- BWRST (R224). -/
def execBwrst (s : State) : Host.Outcome State Fault Refusal :=
  .next (s.unlessErr fun s =>
    { s with bwAcc := 0#8, bwNbits := 0#3, bwBitcnt := 0#64 }.respondOk 0#64)

end Sys2Proof.Machine
end

