-- ==== Sys2Proof/Machine/Control.lean ====
section
/-! DEFINITION. The control commands NOP, CLR and RDREG (R290 to R292), the only ones that execute in the error
state (R317), and what the block does with an illegal word (R103, R317). -/

namespace Sys2Proof.Machine

/-- NOP (R290). -/
def execNop (s : State) : Host.Outcome State Fault Refusal := .next (s.respondOk 0#64)

/-- CLR (R291): RESET_STATE and an empty IN, the response after them; OUT keeps its bytes. -/
def execClr (s : State) : Host.Outcome State Fault Refusal :=
  .next ({ s.resetState with inq := [] }.respondOk 0#64)

/-- RDREG (R292). In the error state it executes; one that names no register then responds ERROR and leaves the
error registers as they are (R316). -/
def execRdreg (reg : Byte) (s : State) : Host.Outcome State Fault Refusal :=
  .next (if regAccepted reg then s.respondOk (s.regVal reg)
    else s.raise .illegalCmd (reg.zeroExtend 64) (encodeWord (.rdreg reg)))

/-- An illegal word: ILLEGAL_CMD with argument 0, or REJECTED in the error state (R103, R317, R318). -/
def State.illegalWord (s : State) (w : Word) : State :=
  s.unlessErr fun s => s.raise .illegalCmd 0#64 w

end Sys2Proof.Machine
end

