-- ==== Sys2Proof/Machine/TreeBuilder.lean ====
section
/-! DEFINITION. The tree builder: the steps of BUILD (R140 to R147) and the commands SETFREQ, RDFREQ, BUILD,
RDNODE and RDNFREQ (R141 to R149). -/

namespace Sys2Proof.Machine

/-- `total`: the sum of all 256 frequencies, unbounded (R143). -/
def freqTotal (freq : Table Data) : Nat := ((entries freq).map fun e => e.2.toNat).sum

/-- `key(k)`: a node's frequency and its id (R140). -/
abbrev Key := Nat × Nat

/-- The lexicographic order of keys: lower frequency first, then lower id (R140). -/
def keyLt (a b : Key) : Bool := a.1 < b.1 || (a.1 == b.1 && a.2 < b.2)

/-- The least of the keys `a :: q` (R140). -/
def minKey (a : Key) (q : List Key) : Key := q.foldl (fun m k => if keyLt k m then k else m) a

/-- `min(Q)` and `Q \ { min(Q) }` (R145); none for the empty queue. -/
def extractMin : List Key → Option (Key × List Key)
  | [] => none
  | a :: q => let m := minKey a q; some (m, (a :: q).erase m)

/-- The leaf of a live symbol (R144). -/
def leafNode (freq : Table Data) (s : Sym) : Node := ⟨true, s, 0#9, 0#9, tableGet freq s⟩

/-- The leaves, in ascending symbol order: NODE[0 .. n-1] (R144). -/
def leafNodes (freq : Table Data) : List Node := (live freq).map (leafNode freq)

/-- The internal node over the two extracted keys: the first becomes the left child (R145). -/
def joinNode (a b : Key) : Node :=
  ⟨false, 0#8, BitVec.ofNat 9 a.2, BitVec.ofNat 9 b.2, BitVec.ofNat 64 (a.1 + b.1)⟩

/-- The loop of PAIR, `j` turns of it left: two least keys out, their node appended to the arena, its key in
(R145). The queue has two keys at every turn that PAIR makes. -/
def pairLoop : (j : Nat) → List Key → List Node → List Node
  | 0, _, arena => arena
  | j + 1, q, arena =>
    match extractMin q with
    | none => arena
    | some (a, q1) =>
      match extractMin q1 with
      | none => arena
      | some (b, q2) => pairLoop j (q2 ++ [(a.1 + b.1, arena.length)]) (arena ++ [joinNode a b])

/-- The queue PAIR starts from: the keys of the leaves (R145). -/
def leafKeys (leaves : List Node) : List Key := leaves.zipIdx.map fun (n, k) => (n.freq.toNat, k)

/-- The arena after PAIR on the leaves: n leaves, then n - 1 internal nodes in the order of their making (R145). -/
def pairNodes (leaves : List Node) : List Node :=
  pairLoop (leaves.length - 1) (leafKeys leaves) leaves

/-- One turn of the loop of DEPTHS: the children of node `id` are one deeper than it (R146). -/
def depthStep (arena : List Node) (d : List Nat) (id : Nat) : List Nat :=
  match arena[id]? with
  | some n => (d.set n.left.toNat (d.getD id 0 + 1)).set n.right.toNat (d.getD id 0 + 1)
  | none => d

/-- DEPTHS: the depth of every node of an arena with `n` leaves, walking the internal ids from `2n - 2` down to
`n` (R146). -/
def nodeDepths (n : Nat) (arena : List Node) : List Nat :=
  ((List.range' n (n - 1)).reverse).foldl (depthStep arena) (List.replicate (2 * n - 1) 0)

/-- `LEN[NODE[k].SYM] <- depth(k)` for every leaf, from a cleared LEN (R144, R146). -/
def depthLens (syms : List Sym) (depths : List Nat) : Table Byte :=
  (syms.zip depths).foldl (fun t p => tableSet t p.1 (BitVec.ofNat 8 p.2)) (tableFill 0#8)

/-- Slots 0 to `arena.length - 1` take the arena's nodes; the others keep what they hold (R143). -/
def writeArena (nodes : Vector Node 511) (arena : List Node) : Vector Node 511 :=
  (arena.zipIdx).foldl (fun v p => v.setIfInBounds p.2 p.1) nodes

/-- NODE and NNODES take an arena (R144, R145). -/
def State.setArena (s : State) (arena : List Node) : State :=
  { s with nodes := writeArena s.nodes arena, nnodes := BitVec.ofNat 10 arena.length }

/-- BUILD of two or more symbols: PAIR, DEPTHS and then LIMIT_AND_CANON (R145 to R147). -/
def State.buildTree (s : State) (syms : List Sym) : State :=
  let n := syms.length
  let arena := pairNodes (leafNodes s.freq)
  let len := depthLens syms (nodeDepths n arena)
  let built := { s.setArena arena with len := len }
  if maxLen len > Config.maxCodeLen then
    built.dropTable.raise .lenOverflow (BitVec.ofNat 64 (maxLen len)) (encodeWord .build)
  else
    { built with code := canonTable len (tableFill 0#32), mode := .multi }.respondOk (BitVec.ofNat 64 n)

/-- The body of BUILD (R143). -/
def State.build (s : State) : State :=
  if freqTotal s.freq ≥ Config.freqLimit then s.raise .freqOverflow 0#64 (encodeWord .build)
  else
    let leaves :=
      { s.setArena (leafNodes s.freq) with len := tableFill 0#8, code := tableFill 0#32 }
    match live s.freq with
    | [] => { leaves with mode := .empty }.respondOk 0#64
    | [x] => { leaves with len := tableSet leaves.len x 1#8, mode := .single }.respondOk 1#64
    | syms => s.buildTree syms

/-- SETFREQ (R141). -/
def execSetfreq (sym : Sym) (count : Data) (s : State) : Host.Outcome State Fault Refusal :=
  .next (s.unlessErr fun s =>
    ({ s with freq := tableSet s.freq sym count }.dropTable).respondOk 0#64)

/-- RDFREQ (R142). -/
def execRdfreq (sym : Sym) (s : State) : Host.Outcome State Fault Refusal :=
  .next (s.unlessErr fun s => s.respondOk (tableGet s.freq sym))

/-- BUILD (R143). -/
def execBuild (s : State) : Host.Outcome State Fault Refusal :=
  .next (s.unlessErr State.build)

/-- RDNODE (R148). -/
def execRdnode (idx : NodeId) (s : State) : Host.Outcome State Fault Refusal :=
  .next (s.unlessErr fun s =>
    match s.nodeAt idx with
    | some n => s.respondOk n.pack
    | none => s.respondOk allOnes)

/-- RDNFREQ (R149). -/
def execRdnfreq (idx : NodeId) (s : State) : Host.Outcome State Fault Refusal :=
  .next (s.unlessErr fun s =>
    match s.nodeAt idx with
    | some n => s.respondOk n.freq
    | none => s.respondOk allOnes)

end Sys2Proof.Machine
end

