-- ==== Sys2Proof/Machine/Dispatch.lean ====
section
/-! DEFINITION. The one match from a command to its meaning, in the order of spec/opcode_table.json. -/

namespace Sys2Proof.Machine

def exec (i : Instr) (s : State) : Host.Outcome State Fault Refusal :=
  match i with
  | .nop => Sys2Proof.Machine.execNop s
  | .clr => Sys2Proof.Machine.execClr s
  | .setfreq sym count => Sys2Proof.Machine.execSetfreq sym count s
  | .rdfreq sym => Sys2Proof.Machine.execRdfreq sym s
  | .build => Sys2Proof.Machine.execBuild s
  | .rdnode idx => Sys2Proof.Machine.execRdnode idx s
  | .rdnfreq idx => Sys2Proof.Machine.execRdnfreq idx s
  | .setlen sym len => Sys2Proof.Machine.execSetlen sym len s
  | .gencode => Sys2Proof.Machine.execGencode s
  | .rdlen sym => Sys2Proof.Machine.execRdlen sym s
  | .rdcode sym => Sys2Proof.Machine.execRdcode sym s
  | .rdent k => Sys2Proof.Machine.execRdent k s
  | .wrsym sym => Sys2Proof.Machine.execWrsym sym s
  | .wrbits len bits => Sys2Proof.Machine.execWrbits len bits s
  | .flush => Sys2Proof.Machine.execFlush s
  | .bwrst => Sys2Proof.Machine.execBwrst s
  | .brstart budget => Sys2Proof.Machine.execBrstart budget s
  | .rdbits len => Sys2Proof.Machine.execRdbits len s
  | .decsym => Sys2Proof.Machine.execDecsym s
  | .decode count => Sys2Proof.Machine.execDecode count s
  | .rdreg reg => Sys2Proof.Machine.execRdreg reg s

end Sys2Proof.Machine
end

