-- ==== Sys2Proof/Machine/Step.lean ====
section
/-! DEFINITION. One step of the two agents (R15). The block moves while it can: it executes the command it has
accepted. When it cannot, because it holds no command or the command is held on an empty IN, the host does the
next thing it has to do. -/

namespace Sys2Proof.Machine

/-- The block executes the accepted command: the word is decoded and its command executed, or it is illegal
(R103). -/
def runCommand (c : Command) (s : State) : Host.Outcome State Fault Refusal :=
  match decode c with
  | .instr i => exec i s
  | .illegal _ => .next (s.illegalWord c.word)

/-- The block executes the accepted command while the host asserts `rst_n`: the command is abandoned (R351,
R352). -/
def runAbandoned (c : Command) (k : Nat) (rest : List HostAction) (s : State) :
    Host.Outcome State Fault Refusal :=
  match runCommand c s with
  | .next t => .next { s.abandon k t with script := rest }
  | .fault r => .fault r
  | .refused r => .refused r

/-- One step. A command that can go on runs to its response or until it is held (R76, R82); otherwise the host
moves. A block and a host that can do nothing stay as they are: the run has ended (R364) or hangs (R76, R90). -/
def step (s : State) : Host.Outcome State Fault Refusal :=
  match s.cmd with
  | none => .next s.hostMove
  | some c =>
    if s.held then .next s.hostMove
    else
      match s.resetNext with
      | none => runCommand c s
      | some (k, rest) => runAbandoned c k rest s

/-- The state with a command on the block's command port, accepted and not begun, and no host action pending that
could abandon it: the next step decodes and executes exactly that command. -/
def State.withFetchWord (s : State) (nbits w : Nat) : State :=
  { s with cmd := some (commandOfTableWord nbits w), hold := none, script := [] }

end Sys2Proof.Machine
end

