-- ==== Sys2Proof/Safety.lean ====
section
/-! DEFINITION. What counts as a safe state and as the end of a run, and the bit-string views of the two streams,
in the terms that the statements use. -/

namespace Sys2Proof.Machine

/-- The bits of a byte in stream order, bit 7 first (R78). -/
def byteBits (b : Byte) : List Bool := bitsOf b.toNat 8

/-- The number a bit string denotes, its first bit most significant (R10). -/
def bitsValue (bs : List Bool) : Nat := bs.foldl (fun v b => 2 * v + b.toNat) 0

/-- The bits the writer has put and the host has not taken: those of OUT, then the pending ones (R220, R225). -/
def State.writerBits (s : State) : List Bool :=
  s.out.flatMap byteBits ++ bitsOf s.bwAcc.toNat s.bwNbits.toNat

/-- The bits the reader has before it must hold: those left of BR_BYTE, then those of IN (R251). -/
def State.readerBits (s : State) : List Bool :=
  bitsOf s.brByte.toNat s.brNbits.toNat ++ s.inq.flatMap byteBits

/-- The budget that is left: `BR_BUDGET − BR_POS` (R255). -/
def State.budgetLeft (s : State) : Nat := s.brBudget.toNat - s.brPos.toNat

/-- How many bytes GETBIT takes from IN for the next `k` bits: the least number whose bits, with the BR_NBITS bits
left of BR_BYTE, are `k` or more, since a byte is taken only when a bit is needed and none is held (R251). -/
def State.bytesFor (s : State) (k : Nat) : Nat := (k - s.brNbits.toNat + 7) / 8

/-- The state in which the reader has consumed its next `k` bits, and nothing else has changed: IN has lost
`bytesFor k` bytes, BR_BYTE is the last of them, and BR_NBITS counts its bits that are left (R251). -/
def State.afterBits (s : State) (k : Nat) : State :=
  { s with
    brPos := s.brPos + BitVec.ofNat 64 k
    brByte := (s.inq.take (s.bytesFor k)).getLast?.getD s.brByte
    brNbits := BitVec.ofNat 4 (s.brNbits.toNat + 8 * s.bytesFor k - k)
    inq := s.inq.drop (s.bytesFor k) }

/-- `LEN[x]` as a number. -/
def State.lenOf (s : State) (x : Sym) : Nat := (tableGet s.len x).toNat

/-- `CODE[x]` as a number. -/
def State.codeOf (s : State) (x : Sym) : Nat := (tableGet s.code x).toNat

/-- The code of a symbol as the bit string that is sent: `bits(CODE[x], LEN[x])` (R34). -/
def State.codeBits (s : State) (x : Sym) : List Bool := bitsOf (s.codeOf x) (s.lenOf x)

/-- The lengths describe a complete code of two or more symbols (R47 item 4, R181). -/
def CompleteLens (len : Table Byte) : Prop :=
  2 ≤ nsym len ∧ (∀ x ∈ present len, (tableGet len x).toNat ≤ 32) ∧ kraftSum len = 2 ^ 32

/-- The invariants of R47, and with them those that other rules state: an absent symbol has code 0 (R186), no
length is above 32 outside the error state (R185), the error registers are clear until an error (R40), NNODES
counts slots of the arena (R35), and at most one command is outstanding (R88). -/
structure State.Inv (s : State) : Prop where
  noneCode : s.mode = .none → ∀ x, s.codeOf x = 0
  emptyTable : s.mode = .empty → present s.len = []
  singleTable : s.mode = .single → ∃ x, present s.len = [x] ∧ s.lenOf x = 1 ∧ s.codeOf x = 0
  multiTable : s.mode = .multi → CompleteLens s.len ∧ s.code = canonTable s.len (tableFill 0#32)
  absentCode : ∀ x, s.lenOf x = 0 → s.codeOf x = 0
  lenBound : s.err = false → ∀ x, s.lenOf x ≤ 32
  writerAcc : s.bwAcc.toNat < 2 ^ s.bwNbits.toNat
  readerBits : s.brNbits.toNat ≤ 8
  readerPos : s.brPos.toNat ≤ s.brBudget.toNat
  errIff : s.err = false ↔ s.errCode = .none
  errClear : s.err = false → s.errArg = 0#64 ∧ s.errCmd = 0#32
  arena : s.nnodes.toNat ≤ 511
  oneOutstanding : s.cmd.isSome → s.rsp = none
  holdOutstanding : s.hold.isSome → s.cmd.isSome

/-- The FREQ field of slot `i`, as a number. -/
def slotFreq (v : Vector Node 511) (i : Nat) : Nat := ((v[i]?.getD Node.zero).freq).toNat

/-- The id of the left child of slot `i`. -/
def slotLeft (v : Vector Node 511) (i : Nat) : Nat := ((v[i]?.getD Node.zero).left).toNat

/-- The id of the right child of slot `i`. -/
def slotRight (v : Vector Node 511) (i : Nat) : Nat := ((v[i]?.getD Node.zero).right).toNat

/-- Node `c` is in the queue when node `id` is made: it exists and no earlier internal node took it (R145). -/
def inQueue (n : Nat) (v : Vector Node 511) (id c : Nat) : Prop :=
  c < id ∧ ∀ j, n ≤ j → j < id → slotLeft v j ≠ c ∧ slotRight v j ≠ c

/-- The order of keys: lower frequency first, then lower id (R140). -/
def keyBefore (v : Vector Node 511) (a b : Nat) : Prop :=
  slotFreq v a < slotFreq v b ∨
    (slotFreq v a = slotFreq v b ∧ a < b)

/-- `x` comes before `y` in the order of CANON (R182). -/
def canonBefore (s : State) (x y : Sym) : Prop :=
  s.lenOf x < s.lenOf y ∨ (s.lenOf x = s.lenOf y ∧ x.toNat < y.toNat)

/-- Commands of this run that the host has still to issue. A run is a reset followed by its commands, so what comes
after the host's next `rst_n` belongs to a later run (R364). -/
def commandsLeft : List HostAction → Bool
  | .issue _ :: _ => true
  | .reset _ :: _ => false
  | _ :: rest => commandsLeft rest
  | [] => false

/-- The conditions at which a run ends: every command has been issued and its response taken, none executes or is
held, and the host has taken every OUT byte. Bytes the host might still supply and takes that find nothing do not
matter (R364). -/
def State.runEnded (s : State) : Bool :=
  !commandsLeft s.script && s.cmd.isNone && s.rsp.isNone && s.out.isEmpty

/-- The run that ended did so successfully: no response had status ERROR or REJECTED (R364). -/
def State.runSucceeded (s : State) : Bool := s.runEnded && s.rspLog.all fun r => r.status == .ok

/-- The run that ended did so in error: some command responded ERROR (R364). -/
def State.runInError (s : State) : Bool := s.runEnded && s.rspLog.any fun r => r.status == .error

/-- The end of the run that `s` is in: the first state, from `s` on and within `n` steps, at which its conditions
hold; none if they hold at none of them, as in a run that hangs or that `rst_n` cuts short (R364). -/
def State.runEnd : (n : Nat) → State → Option State
  | 0, s => if s.runEnded then some s else none
  | n + 1, s =>
    if s.runEnded then some s
    else if s.resetNext.isSome then none
    else
      match step s with
      | .next t => State.runEnd n t
      | _ => none

/-- The arena as far as it is in use; the other slots are no part of an observation (R364). -/
def State.usedNodes (s : State) : List Node := s.nodes.toList.take s.nnodes.toNat

/-- The observation of a run (R364). -/
structure Observation where
  /-- The list of responses, status and RESULT per command. -/
  responses : List Response
  /-- The bytes OUT delivered since the reset. -/
  delivered : List Byte
  /-- The bytes left in IN. -/
  inLeft : List Byte
  /-- The slots of the arena in use. -/
  tree : List Node
  /-- The rest of the final state: the tables and registers of file 10; its arena, streams, ports and host side are
  those of the reset state. -/
  final : State
deriving DecidableEq, Repr

/-- What is observed of the run that ends in `s` (R364). -/
def State.observation (s : State) : Observation where
  responses := s.rspLog
  delivered := s.received
  inLeft := s.inq
  tree := s.usedNodes
  final := { s with
    nodes := State.reset.nodes, inq := [], out := [], cmd := none, hold := none, rsp := none,
    script := [], rspLog := [], received := [] }

/-- Where the block is in the error state, the run has an ERROR response, taken or waiting; so a run that ends
successfully ends outside the error state (R316, R364). -/
def State.ErrorAnswered (s : State) : Prop :=
  s.err = true → ∃ r ∈ s.rspLog ++ s.rsp.toList, r.status = .error

/-- A command executed on its own to an OK response. -/
def execOk (i : Instr) (s : State) : Option State :=
  match exec i s with
  | .next t => if t.rsp.map Response.status = some .ok then some t else none
  | _ => none

/-- Commands executed one after the other, each to an OK response; none if one of them gives no such response. -/
def execAllOk : List Instr → State → Option State
  | [], s => some s
  | i :: is, s => (execOk i s).bind (execAllOk is)

end Sys2Proof.Machine
end

