-- ==== Sys2Proof/Certificates/Slice0/Obligations.lean ====
section
/-! DEFINITION. The statements for the provers, each from the numbered rules its docstring cites. Where a
statement has the premise `s.hold = none`, it speaks of a command that begins; one that continues after a hold is
HeldCommandContinues (log entry 2). -/

open Sys2Proof Sys2Proof.Machine

/-! ### Encoding -/

/-- Words written out from the encodings of the rules and vectors decode to their commands (R105, R110). -/
def Obligations.WrittenWordsDecode : Prop :=
  decode ⟨0x00000000#32, 7#64⟩ = .instr .nop ∧
  decode ⟨0x09040000#32, 5#64⟩ = .instr (.setfreq 0x41#8 5#64) ∧
  decode ⟨0x14060000#32, 0#64⟩ = .instr (.rdnode 3#9) ∧
  decode ⟨0x17FC0000#32, 0#64⟩ = .instr (.rdnode 510#9) ∧
  decode ⟨0x1D07FC00#32, 0#64⟩ = .instr (.setlen 0x41#8 255#8) ∧
  decode ⟨0x34008000#32, 0xDEADBEEF#64⟩ = .instr (.wrbits 32#8 0xDEADBEEF#64) ∧
  decode ⟨0x4C000000#32, 10#64⟩ = .instr (.decode 10#64) ∧
  decode ⟨0x53FC0000#32, 0#64⟩ = .instr (.rdreg 0xFF#8) ∧
  decode ⟨0x54000000#32, 0#64⟩ = .illegal .reservedOpcode ∧
  decode ⟨0x34040000#32, 0#64⟩ = .illegal .reservedBit

/-- Every command is what its own encoding decodes to, at every value of every operand (R101 to R105). -/
def Obligations.DecodeOfEncode : Prop :=
  ∀ i : Instr, decode (encode i) = .instr i

/-- A word that decodes is the word of the command it decodes to, so no two words are one command (R103). -/
def Obligations.EncodeOfDecode : Prop :=
  ∀ (c : Command) (i : Instr), decode c = .instr i → encodeWord i = c.word

/-- A word is legal exactly when its opcode is at most 0x14 and every bit its format reserves is 0 (R103, R107). -/
def Obligations.LegalWordsByFormat : Prop :=
  ∀ c : Command, (∃ i, decode c = .instr i) ↔
    ((opField c.word).toNat ≤ 0x14 ∧
      ∀ f, Format.ofOpcode (opField c.word).toNat = some f → f.reservedZero c.word = true)

/-- DATA never changes how a word decodes: the command differs in its DATA operand only, and a command that does
not use DATA not at all (R100). -/
def Obligations.DataNeverChangesDecoding : Prop :=
  ∀ (w : Word) (d d' : Data),
    (∀ why, decode ⟨w, d⟩ = .illegal why ↔ decode ⟨w, d'⟩ = .illegal why) ∧
    (∀ i, decode ⟨w, d⟩ = .instr i →
      decode ⟨w, d'⟩ = .instr (match i with
        | .setfreq sym _ => .setfreq sym d'
        | .wrbits len _ => .wrbits len d'
        | .brstart _ => .brstart d'
        | .decode _ => .decode d'
        | j => j))

/-! ### The step, the host and the ports -/

/-- A command on the port whose word decodes to `i` is executed as `i`, when no `rst_n` meets it; the step does
nothing beside it (R103).
A step is one move of one agent: the model's choice, log entries 3 and 13. -/
def Obligations.StepRunsDecodedCommand : Prop :=
  ∀ (s : State) (c : Command) (i : Instr),
    s.cmd = some c → s.held = false → s.resetNext = none → decode c = .instr i → step s = exec i s

/-- An illegal word raises ILLEGAL_CMD with argument 0 and changes nothing but the error registers; in the error
state it is rejected (R103, R107, R317). -/
def Obligations.IllegalWordRaises : Prop :=
  ∀ (s : State) (c : Command) (why : IllegalWord),
    s.cmd = some c → s.held = false → s.resetNext = none → decode c = .illegal why →
    (s.err = false → step s = .next { s with
      err := true, errCode := .illegalCmd, errArg := 0#64, errCmd := c.word,
      cmd := none, hold := none, rsp := some ⟨.error, 0#64⟩ }) ∧
    (s.err = true → step s = .next { s with
      cmd := none, hold := none, rsp := some ⟨.rejected, 0#64⟩ })

/-- Every step has a next state: no command, word or host action stops the machine (D34).
That errors, rejections and holds are next states is the model's reading, log entry 1. -/
def Obligations.EveryStepAnswers : Prop :=
  ∀ s : State, ∃ t, step s = .next t

/-- What each action of the host does when the block cannot move: a command is accepted only when none is
outstanding, a byte of IN joins at its end, a byte of OUT leaves at its front, and what cannot be done yet waits
(R74, R75, R83, R88, R89).
That the host moves only when the block cannot, in the order of `script`, and that what cannot be done waits: the
model's choice, log entry 3; that IN is unbounded: log entry 4. -/
def Obligations.HostActionsAtThePorts : Prop :=
  ∀ (s : State) (rest : List HostAction), s.cmd = none ∨ s.held = true →
    (∀ c, s.script = .issue c :: rest →
      (s.cmd = none → s.rsp = none → step s = .next { s with cmd := some c, script := rest }) ∧
      ((s.cmd ≠ none ∨ s.rsp ≠ none) → step s = .next s)) ∧
    (s.script = .takeResponse :: rest →
      (∀ r, s.rsp = some r →
        step s = .next { s with rsp := none, rspLog := s.rspLog ++ [r], script := rest }) ∧
      (s.rsp = none → step s = .next s)) ∧
    (∀ b, s.script = .feed b :: rest → step s = .next { s with inq := s.inq ++ [b], script := rest }) ∧
    (s.script = .takeOut :: rest →
      (∀ b bs, s.out = b :: bs →
        step s = .next { s with out := bs, received := s.received ++ [b], script := rest }) ∧
      (s.out = [] → step s = .next s))

/-- `rst_n` gives every register and table its reset value, empties IN, and drops a command and a waiting response.
OUT is not changed where no command executes; where one does, legal or illegal, the bytes it had pushed stay behind
those that were there (R350 to R352). What the unused arena slots hold is left open. That the host's action says how
many bytes were pushed before: the model's form of R352, log entry 5; that the host's record of the run starts empty
and its further actions stay: log entry 10. -/
def Obligations.ResetPinGivesResetState : Prop :=
  ∀ (s : State) (k : Nat) (rest : List HostAction), s.script = .reset k :: rest →
    (s.cmd = none ∨ s.held = true → ∃ v : Vector Node 511, step s = .next { State.reset with
      nodes := v, out := s.out, script := rest }) ∧
    (∀ (c : Command) (t : State) (pushed : List Byte),
      s.cmd = some c → s.held = false → runCommand c s = .next t → t.out = s.out ++ pushed →
      ∃ v : Vector Node 511, step s = .next { State.reset with
        nodes := v, out := s.out ++ pushed.take k, script := rest })

/-- Every command ends with exactly one response and leaves the port free, or it is one of the three reader
commands, stands held on an empty IN and has had no response (R76, R104). A reader command holds when it needs a bit
and the bits before IN runs dry are fewer than the budget left: RDBITS of more bits, DECSYM whose code they do not
hold, DECODE whose next symbol they do not hold; the bits there are consumed, the symbols complete among them are in
OUT, and nothing else is changed (R76, R251 to R253, R256).
That a hold keeps what was read before it: the model's reading of R76, log entry 2. -/
def Obligations.OneResponseOrHeld : Prop :=
  (∀ (i : Instr) (s t : State), exec i s = .next t →
    (∃ r, t.rsp = some r ∧ t.cmd = none ∧ t.hold = none ∧ (r.status ≠ .ok → r.result = 0#64)) ∨
    (((∃ len, i = .rdbits len) ∨ i = .decsym ∨ ∃ n, i = .decode n) ∧
      t.hold.isSome = true ∧ t.inq = [] ∧ t.cmd = s.cmd ∧ t.rsp = s.rsp)) ∧
  ∀ s : State, s.err = false → s.hold = none → s.readerBits.length < s.budgetLeft →
    (s.afterBits s.readerBits.length).inq = [] ∧ (s.afterBits s.readerBits.length).brNbits = 0#4 ∧
    (∀ len : Byte, len.toNat ≤ 32 → s.readerBits.length < len.toNat →
      exec (.rdbits len) s = .next { s.afterBits s.readerBits.length with
        hold := some ⟨bitsValue s.readerBits, s.readerBits.length, 0⟩ }) ∧
    (s.mode = .multi → (∀ x ∈ present s.len, ¬ s.codeBits x <+: s.readerBits) →
      exec .decsym s = .next { s.afterBits s.readerBits.length with
        hold := some ⟨bitsValue s.readerBits, s.readerBits.length, 0⟩ }) ∧
    (∀ (xs : List Sym) (tail : List Bool) (count : Data), s.Inv → s.mode = .multi →
      xs.length < count.toNat → (∀ x ∈ xs, x ∈ present s.len) →
      s.readerBits = xs.flatMap s.codeBits ++ tail → (∀ x ∈ present s.len, ¬ s.codeBits x <+: tail) →
      (∃ x ∈ present s.len, count.toNat * s.lenOf x ≤ s.budgetLeft) →
      exec (.decode count) s = .next { s.afterBits s.readerBits.length with
        out := s.out ++ xs, hold := some ⟨bitsValue tail, tail.length, xs.length⟩ })

/-- Holding loses nothing: a command that was held and continues after the host has supplied bytes ends exactly as
it would have, had the bytes been in IN before it began (R76).
That a hold keeps what was read before it: the model's reading of R76, log entry 2. -/
def Obligations.HeldCommandContinues : Prop :=
  ∀ (i : Instr) (s t : State) (bytes : List Byte), exec i s = .next t → t.hold.isSome = true →
    exec i { t with inq := bytes } = exec i { s with inq := s.inq ++ bytes }

/-- No command touches the host's side; OUT only grows at its end; IN only loses bytes at its front (R74, R75,
R83).
The host's side (`script`, `rspLog`, `received`) is the model's own, log entry 10. -/
def Obligations.StreamsKeepTheirOrder : Prop :=
  ∀ (i : Instr) (s t : State), exec i s = .next t →
    t.script = s.script ∧ t.rspLog = s.rspLog ∧ t.received = s.received ∧
    s.out <+: t.out ∧ t.inq <:+ s.inq

/-- Each table and register is written only by the commands its rule names, and by CLR (R32, R33, R35, R36, R38,
R39). -/
def Obligations.OnlyNamedWritersChangeState : Prop :=
  ∀ (i : Instr) (s t : State), exec i s = .next t → i ≠ .clr →
    ((∀ sym c, i ≠ .setfreq sym c) → t.freq = s.freq) ∧
    (i ≠ .build → (∀ sym l, i ≠ .setlen sym l) → t.len = s.len ∧ t.nnodes = s.nnodes) ∧
    (i ≠ .build → t.nodes = s.nodes) ∧
    (i ≠ .build → i ≠ .gencode → (∀ sym c, i ≠ .setfreq sym c) → (∀ sym l, i ≠ .setlen sym l) →
      t.code = s.code ∧ t.mode = s.mode) ∧
    ((∀ sym, i ≠ .wrsym sym) → (∀ l b, i ≠ .wrbits l b) → i ≠ .flush → i ≠ .bwrst →
      t.bwAcc = s.bwAcc ∧ t.bwNbits = s.bwNbits ∧ t.bwBitcnt = s.bwBitcnt) ∧
    ((∀ l, i ≠ .rdbits l) → i ≠ .decsym → (∀ n, i ≠ .decode n) →
      t.inq = s.inq ∧ ((∀ b, i ≠ .brstart b) →
        t.brBudget = s.brBudget ∧ t.brPos = s.brPos ∧ t.brByte = s.brByte ∧ t.brNbits = s.brNbits)) ∧
    ((∀ sym, i ≠ .wrsym sym) → (∀ l b, i ≠ .wrbits l b) → i ≠ .flush → (∀ n, i ≠ .decode n) →
      t.out = s.out)

/-- What the arena's slots at or above NNODES hold is never observable: two states that differ there only run alike
(R35, R45).
The model's value for such a slot is log entry 6; the statement holds for every value. -/
def Obligations.DeadSlotsUnobservable : Prop :=
  ∀ (i : Instr) (s t : State) (v : Vector Node 511),
    (∀ k : Nat, k < s.nnodes.toNat → v[k]? = s.nodes[k]?) → exec i s = .next t →
    ∃ v' : Vector Node 511, exec i { s with nodes := v } = .next { t with nodes := v' } ∧
      ∀ k : Nat, k < t.nnodes.toNat → v'[k]? = t.nodes[k]?

/-! ### Reset, control, errors -/

/-- The reset state (R350). -/
def Obligations.ResetValues : Prop :=
  (∀ x, tableGet State.reset.freq x = 0#64 ∧ tableGet State.reset.len x = 0#8 ∧
    tableGet State.reset.code x = 0#32) ∧
  State.reset.nnodes = 0#10 ∧ State.reset.mode = .none ∧
  nsym State.reset.len = 0 ∧ maxLen State.reset.len = 0 ∧ minLen State.reset.len = 0 ∧
  State.reset.bwAcc = 0#8 ∧ State.reset.bwNbits = 0#3 ∧ State.reset.bwBitcnt = 0#64 ∧
  State.reset.brBudget = 0#64 ∧ State.reset.brPos = 0#64 ∧ State.reset.brByte = 0#8 ∧
  State.reset.brNbits = 0#4 ∧
  State.reset.err = false ∧ State.reset.errCode = .none ∧ State.reset.errArg = 0#64 ∧
  State.reset.errCmd = 0#32 ∧ State.reset.statusWord = 0#64 ∧ State.reset.inq = []

/-- The invariants hold after reset, and no run has an error before its first command (R47, R364).
The clauses on `cmd`, `rsp` and `hold` speak of the model's ports, log entries 2, 10 and 13. -/
def Obligations.ResetMeetsInvariants : Prop := State.reset.Inv ∧ State.reset.ErrorAnswered

/-- Every step keeps the invariants (R47), and the run has an ERROR response wherever the block is in the error
state, so that a run which ends successfully ends outside it (R316, R364).
The two clauses on `cmd`, `rsp` and `hold` speak of the model's ports, log entries 2 and 13. -/
def Obligations.StepKeepsInvariants : Prop :=
  ∀ s t : State, s.Inv → step s = .next t → t.Inv ∧ (s.ErrorAnswered → t.ErrorAnswered)

/-- NOP is the word of all zeros and no other; it responds OK and changes nothing, in the error state too (R290). -/
def Obligations.NopOnlyResponds : Prop :=
  (∀ c : Command, decode c = .instr .nop ↔ c.word = 0#32) ∧
  ∀ s : State, exec .nop s = .next { s with cmd := none, hold := none, rsp := some ⟨.ok, 0#64⟩ }

/-- CLR gives the reset state and an empty IN, in the error state too, keeps OUT, and responds OK; no other command
leaves the error state (R291). What the unused arena slots hold is left open. -/
def Obligations.ClrGivesResetState : Prop :=
  encodeWord .clr = 0x04000000#32 ∧
  (∀ s : State, ∃ v : Vector Node 511, exec .clr s = .next { State.reset with
    nodes := v, out := s.out, script := s.script, rspLog := s.rspLog, received := s.received,
    rsp := some ⟨.ok, 0#64⟩ }) ∧
  ∀ (i : Instr) (s t : State), s.err = true → exec i s = .next t → t.err = false → i = .clr

/-- RDREG of registers 0x00 to 0x0C returns the contents that the map gives, in the error state too, and changes
nothing. Of a number above 0x0C it raises ILLEGAL_CMD with the number; in the error state it then responds ERROR and
keeps the first error's registers. NSYM is the number of symbols with a length, MAXLEN the greatest length and MINLEN
the least nonzero one, 0 where there is none (R37, R43, R73, R292, with the map of R41). -/
def Obligations.RdregReadsRegisters : Prop :=
  (∀ (s : State) (r : Byte),
    encodeWord (.rdreg r) = 0x50000000#32 ||| (r.zeroExtend 32 <<< 18) ∧
    (∀ v, [s.statusWord, BitVec.ofNat 64 (nsym s.len), BitVec.ofNat 64 (maxLen s.len),
        BitVec.ofNat 64 (minLen s.len), BitVec.ofNat 64 s.nnodes.toNat, s.bwBitcnt,
        BitVec.ofNat 64 s.bwNbits.toNat, s.brBudget, s.brPos, BitVec.ofNat 64 s.brNbits.toNat, s.errArg,
        BitVec.ofNat 64 s.errCmd.toNat, 0x0000000148434231#64][r.toNat]? = some v →
      exec (.rdreg r) s = .next { s with cmd := none, hold := none, rsp := some ⟨.ok, v⟩ }) ∧
    (0x0C < r.toNat → s.err = false → exec (.rdreg r) s = .next { s with
      err := true, errCode := .illegalCmd, errArg := BitVec.ofNat 64 r.toNat,
      errCmd := encodeWord (.rdreg r), cmd := none, hold := none, rsp := some ⟨.error, 0#64⟩ }) ∧
    (0x0C < r.toNat → s.err = true → exec (.rdreg r) s = .next { s with
      cmd := none, hold := none, rsp := some ⟨.error, 0#64⟩ })) ∧
  ∀ s : State,
    nsym s.len = (s.len.toList.filter fun l => l ≠ 0#8).length ∧
    (∀ x, s.lenOf x ≤ maxLen s.len) ∧ (∀ x, s.lenOf x ≠ 0 → minLen s.len ≤ s.lenOf x) ∧
    ((∀ x, s.lenOf x = 0) → maxLen s.len = 0 ∧ minLen s.len = 0) ∧
    ((∃ x, s.lenOf x ≠ 0) → (∃ x, s.lenOf x ≠ 0 ∧ s.lenOf x = maxLen s.len) ∧
      ∃ x, s.lenOf x ≠ 0 ∧ s.lenOf x = minLen s.len)

/-- The fields of STATUS: ERR in bit 0, ERRCODE in bits 7:4, MODE in bits 9:8, the reserved bits 0; after reset all
are 0 (R42, with the numbers of R36 and R310). -/
def Obligations.StatusFields : Prop :=
  State.reset.statusWord = 0#64 ∧ ∀ s : State,
    s.statusWord.getLsbD 0 = s.err ∧ s.statusWord.extractLsb' 1 3 = 0#3 ∧
    (s.statusWord.extractLsb' 4 4).toNat = (match s.errCode with
      | .none => 0 | .illegalCmd => 1 | .format => 2 | .truncated => 3 | .lenOverflow => 4
      | .freqOverflow => 5 | .noTable => 6 | .noSym => 7) ∧
    (s.statusWord.extractLsb' 8 2).toNat = (match s.mode with
      | .none => 0 | .empty => 1 | .single => 2 | .multi => 3) ∧
    s.statusWord.extractLsb' 10 54 = 0#54

/-- In the error state every command word but those of NOP, CLR and RDREG, an illegal one too, is rejected with no
state change at all; those three execute (R317). -/
def Obligations.ErrorStateRejects : Prop :=
  ∀ (s : State) (c : Command), s.err = true → s.cmd = some c → s.held = false → s.resetNext = none →
    (c.word ≠ 0x00000000#32 → c.word ≠ 0x04000000#32 → c.word &&& 0xFC03FFFF#32 ≠ 0x50000000#32 →
      step s = .next { s with cmd := none, hold := none, rsp := some ⟨.rejected, 0#64⟩ }) ∧
    (c.word = 0x00000000#32 → step s = exec .nop s) ∧
    (c.word = 0x04000000#32 → step s = exec .clr s) ∧
    (c.word &&& 0xFC03FFFF#32 = 0x50000000#32 → step s = exec (.rdreg (symField c.word)) s)

/-- The error state and the registers of the first error stay until reset or CLR: no step that is neither changes
them (R40, R320). -/
def Obligations.FirstErrorStays : Prop :=
  ∀ s t : State, s.err = true → step s = .next t → s.resetNext = none →
    (∀ c, s.cmd = some c → decode c ≠ .instr .clr) →
    t.err = true ∧ t.errCode = s.errCode ∧ t.errArg = s.errArg ∧ t.errCmd = s.errCmd

/-- A legal command enters the error state only with an error that its rule lists, responds ERROR with RESULT 0,
and leaves its own word in ERRCMD (R312, R316). -/
def Obligations.CommandsRaiseOnlyTheirErrors : Prop :=
  ∀ (i : Instr) (s t : State), s.err = false → exec i s = .next t → t.err = true →
    t.errCmd = encodeWord i ∧ t.rsp = some ⟨.error, 0#64⟩ ∧
    t.errCode ∈ (match i with
      | .build => [ErrCode.freqOverflow, .lenOverflow]
      | .setlen _ _ => [.format]
      | .gencode => [.format]
      | .wrsym _ => [.noTable, .noSym]
      | .wrbits _ _ => [.illegalCmd]
      | .rdbits _ => [.illegalCmd, .truncated]
      | .decsym => [.noTable, .noSym, .truncated]
      | .decode _ => [.noTable, .format, .truncated]
      | .rdreg _ => [.illegalCmd]
      | _ => [])

/-! ### Tree builder -/

/-- SETFREQ sets one entry, sets MODE to NONE and clears CODE (R141). -/
def Obligations.SetfreqSetsEntry : Prop :=
  ∀ (s : State) (sym : Sym) (count : Data), s.err = false →
    encode (.setfreq sym count) = ⟨0x08000000#32 ||| (sym.zeroExtend 32 <<< 18), count⟩ ∧
    exec (.setfreq sym count) s = .next { s with
      freq := s.freq.set sym.toNat count sym.isLt, mode := .none, code := Vector.replicate 256 0#32,
      cmd := none, hold := none, rsp := some ⟨.ok, 0#64⟩ }

/-- RDFREQ, RDLEN and RDCODE return the entry of their symbol and change nothing, in every MODE; RDLEN's is at most
32, and RDCODE's is 0 when MODE is NONE or the symbol is absent (R142, R185, R186). -/
def Obligations.TableReadsReturnEntry : Prop :=
  ∀ (s : State) (sym : Sym), s.err = false →
    encodeWord (.rdfreq sym) = 0x0C000000#32 ||| (sym.zeroExtend 32 <<< 18) ∧
    encodeWord (.rdlen sym) = 0x24000000#32 ||| (sym.zeroExtend 32 <<< 18) ∧
    encodeWord (.rdcode sym) = 0x28000000#32 ||| (sym.zeroExtend 32 <<< 18) ∧
    (s.Inv → s.lenOf sym ≤ 32 ∧ (s.mode = .none ∨ s.lenOf sym = 0 → s.codeOf sym = 0)) ∧
    exec (.rdfreq sym) s = .next { s with
      cmd := none, hold := none, rsp := some ⟨.ok, s.freq[sym.toNat]'sym.isLt⟩ } ∧
    exec (.rdlen sym) s = .next { s with
      cmd := none, hold := none, rsp := some ⟨.ok, (s.len[sym.toNat]'sym.isLt).zeroExtend 64⟩ } ∧
    exec (.rdcode sym) s = .next { s with
      cmd := none, hold := none, rsp := some ⟨.ok, (s.code[sym.toNat]'sym.isLt).zeroExtend 64⟩ }

/-- BUILD of frequencies that sum to 2^64 or more raises FREQ_OVERFLOW with argument 0 and writes nothing else
(R143, R319). -/
def Obligations.BuildRefusesOverflow : Prop :=
  ∀ s : State, s.err = false → 2 ^ 64 ≤ (s.freq.toList.map BitVec.toNat).sum →
    exec .build s = .next { s with
      err := true, errCode := .freqOverflow, errArg := 0#64, errCmd := 0x10000000#32,
      cmd := none, hold := none, rsp := some ⟨.error, 0#64⟩ }

/-- BUILD of no symbol gives EMPTY, of one symbol SINGLE with length 1, code 0 and a single leaf; RESULT is the
number of symbols (R143, R144). -/
def Obligations.BuildOfFewSymbols : Prop :=
  ∀ s : State, s.err = false → (s.freq.toList.map BitVec.toNat).sum < 2 ^ 64 →
    (live s.freq = [] → ∃ v, exec .build s = .next { s with
      nodes := v, nnodes := 0#10, len := Vector.replicate 256 0#8, code := Vector.replicate 256 0#32,
      mode := .empty, cmd := none, hold := none, rsp := some ⟨.ok, 0#64⟩ }) ∧
    (∀ x, live s.freq = [x] → ∃ v : Vector Node 511,
      v[0]? = some (Node.mk true x 0#9 0#9 (s.freq[x.toNat]'x.isLt)) ∧
      exec .build s = .next { s with
        nodes := v, nnodes := 1#10, len := (Vector.replicate 256 0#8).set x.toNat 1#8 x.isLt,
        code := Vector.replicate 256 0#32, mode := .single,
        cmd := none, hold := none, rsp := some ⟨.ok, 1#64⟩ })

/-- BUILD of `n ≥ 2` symbols leaves `n` leaves in ascending symbol order and `n - 1` internal nodes, each over the
two nodes of least key that were in the queue, the lesser on the left, its frequency their sum (R140, R144,
R145). -/
def Obligations.BuildPairsLeastKeys : Prop :=
  ∀ s t : State, s.err = false → (s.freq.toList.map BitVec.toNat).sum < 2 ^ 64 →
    2 ≤ (live s.freq).length → exec .build s = .next t →
    t.nnodes.toNat = 2 * (live s.freq).length - 1 ∧
    (∀ (k : Nat) (x : Sym), (live s.freq)[k]? = some x →
      t.nodes[k]? = some (Node.mk true x 0#9 0#9 (s.freq[x.toNat]'x.isLt))) ∧
    (∀ id : Nat, (live s.freq).length ≤ id → id < 2 * (live s.freq).length - 1 →
      (∃ (l r : NodeId) (f : Data), t.nodes[id]? = some (Node.mk false 0#8 l r f)) ∧
      slotFreq t.nodes id =
        slotFreq t.nodes (slotLeft t.nodes id) +
          slotFreq t.nodes (slotRight t.nodes id) ∧
      inQueue (live s.freq).length t.nodes id (slotLeft t.nodes id) ∧
      inQueue (live s.freq).length t.nodes id (slotRight t.nodes id) ∧
      keyBefore t.nodes (slotLeft t.nodes id) (slotRight t.nodes id) ∧
      ∀ c, inQueue (live s.freq).length t.nodes id c →
        c ≠ slotLeft t.nodes id → c ≠ slotRight t.nodes id →
        keyBefore t.nodes (slotRight t.nodes id) c)

/-- BUILD of `n ≥ 2` symbols gives each symbol the depth of its leaf as its length, and no other symbol a length
(R146, R150 items 1 and 4). -/
def Obligations.BuildLengthsAreDepths : Prop :=
  ∀ s t : State, s.err = false → (s.freq.toList.map BitVec.toNat).sum < 2 ^ 64 →
    2 ≤ (live s.freq).length → exec .build s = .next t →
    present t.len = live s.freq ∧
    ∃ depth : Nat → Nat, depth (2 * (live s.freq).length - 2) = 0 ∧
      (∀ id : Nat, (live s.freq).length ≤ id → id < 2 * (live s.freq).length - 1 →
        depth (slotLeft t.nodes id) = depth id + 1 ∧
        depth (slotRight t.nodes id) = depth id + 1) ∧
      ∀ (k : Nat) (x : Sym), (live s.freq)[k]? = some x → t.lenOf x = depth k

/-- What BUILD of `n ≥ 2` symbols ends in: a MULTI table with canonical codes and RESULT n when no length is above
32, and otherwise LEN_OVERFLOW with MAXLEN, the tree and the lengths kept and the codes cleared (R143, R147,
R319). -/
def Obligations.BuildLimitsLengths : Prop :=
  ∀ s : State, s.err = false → (s.freq.toList.map BitVec.toNat).sum < 2 ^ 64 →
    2 ≤ (live s.freq).length →
    ∃ (nodes : Vector Node 511) (len : Table Byte),
      (maxLen len ≤ 32 → exec .build s = .next { s with
        nodes := nodes, nnodes := BitVec.ofNat 10 (2 * (live s.freq).length - 1), len := len,
        code := canonTable len (Vector.replicate 256 0#32), mode := .multi,
        cmd := none, hold := none, rsp := some ⟨.ok, BitVec.ofNat 64 (live s.freq).length⟩ }) ∧
      (32 < maxLen len → exec .build s = .next { s with
        nodes := nodes, nnodes := BitVec.ofNat 10 (2 * (live s.freq).length - 1), len := len,
        code := Vector.replicate 256 0#32, mode := .none,
        err := true, errCode := .lenOverflow, errArg := BitVec.ofNat 64 (maxLen len),
        errCmd := 0x10000000#32, cmd := none, hold := none, rsp := some ⟨.error, 0#64⟩ })

/-- BUILD of 2 to 33 symbols completes: no depth can then be above 32 (R143, R146, R147). -/
def Obligations.BuildOfTwoTo33Completes : Prop :=
  ∀ s : State, s.err = false → (s.freq.toList.map BitVec.toNat).sum < 2 ^ 64 →
    2 ≤ (live s.freq).length → (live s.freq).length ≤ 33 →
    ∃ t, exec .build s = .next t ∧ t.rsp = some ⟨.ok, BitVec.ofNat 64 (live s.freq).length⟩ ∧
      t.mode = .multi ∧ t.err = false ∧ present t.len = live s.freq

/-- After every BUILD of two or more symbols that responds OK the lengths are complete: their Kraft sum is 2^32
(R150 item 2). -/
def Obligations.BuildLengthsAreComplete : Prop :=
  ∀ s t : State, s.err = false → 2 ≤ (live s.freq).length → exec .build s = .next t →
    t.err = false → CompleteLens t.len

/-- BUILD repeated with unchanged FREQ gives the same state (R143). -/
def Obligations.BuildRepeatedIsSame : Prop :=
  ∀ s t : State, exec .build s = .next t → t.err = false → exec .build t = .next t

/-- RDNODE and RDNFREQ return the fields of a slot in use and all ones for any other id, 511 always among them, and
change nothing (R72, R148, R149). -/
def Obligations.NodeReadsReturnSlot : Prop :=
  ∀ (s : State) (i : NodeId), s.err = false →
    encodeWord (.rdnode i) = 0x14000000#32 ||| (i.zeroExtend 32 <<< 17) ∧
    encodeWord (.rdnfreq i) = 0x18000000#32 ||| (i.zeroExtend 32 <<< 17) ∧
    (s.nnodes.toNat ≤ i.toNat ∨ i = 511#9 →
      exec (.rdnode i) s = .next { s with
        cmd := none, hold := none, rsp := some ⟨.ok, 0xFFFFFFFFFFFFFFFF#64⟩ } ∧
      exec (.rdnfreq i) s = .next { s with
        cmd := none, hold := none, rsp := some ⟨.ok, 0xFFFFFFFFFFFFFFFF#64⟩ }) ∧
    (∀ n, i.toNat < s.nnodes.toNat → s.nodes[i.toNat]? = some n →
      exec (.rdnode i) s = .next { s with
        cmd := none, hold := none, rsp := some ⟨.ok, BitVec.ofNat 64
          (n.leaf.toNat + n.sym.toNat * 2 ^ 1 + n.left.toNat * 2 ^ 9 + n.right.toNat * 2 ^ 18)⟩ } ∧
      exec (.rdnfreq i) s = .next { s with cmd := none, hold := none, rsp := some ⟨.ok, n.freq⟩ })

/-! ### Code-table generator -/

/-- SETLEN of a length up to 32 loads it, sets MODE to NONE, clears CODE and discards the tree; of a greater length
it raises FORMAT with the length and writes nothing else (R180). -/
def Obligations.SetlenLoadsLength : Prop :=
  ∀ (s : State) (sym : Sym) (len : Byte), s.err = false →
    encodeWord (.setlen sym len) =
      0x1C000000#32 ||| (sym.zeroExtend 32 <<< 18) ||| (len.zeroExtend 32 <<< 10) ∧
    (len.toNat ≤ 32 → exec (.setlen sym len) s = .next { s with
      len := s.len.set sym.toNat len sym.isLt, mode := .none, code := Vector.replicate 256 0#32,
      nnodes := 0#10, cmd := none, hold := none, rsp := some ⟨.ok, 0#64⟩ }) ∧
    (32 < len.toNat → exec (.setlen sym len) s = .next { s with
      err := true, errCode := .format, errArg := BitVec.ofNat 64 len.toNat,
      errCmd := encodeWord (.setlen sym len), cmd := none, hold := none, rsp := some ⟨.error, 0#64⟩ })

/-- GENCODE of lengths that describe a table completes: EMPTY for none, SINGLE for one symbol of length 1, MULTI
with the canonical codes for a complete code of two or more; RESULT is the number of symbols, and LEN, NODE and
NNODES stay (R181). -/
def Obligations.GencodeBuildsTable : Prop :=
  ∀ s : State, s.err = false →
    (present s.len = [] → exec .gencode s = .next { s with
      code := Vector.replicate 256 0#32, mode := .empty,
      cmd := none, hold := none, rsp := some ⟨.ok, 0#64⟩ }) ∧
    (∀ x, present s.len = [x] → s.lenOf x = 1 → exec .gencode s = .next { s with
      code := Vector.replicate 256 0#32, mode := .single,
      cmd := none, hold := none, rsp := some ⟨.ok, 1#64⟩ }) ∧
    (CompleteLens s.len → exec .gencode s = .next { s with
      code := canonTable s.len (Vector.replicate 256 0#32), mode := .multi,
      cmd := none, hold := none, rsp := some ⟨.ok, BitVec.ofNat 64 (nsym s.len)⟩ })

/-- GENCODE refuses every other list of lengths with FORMAT, every CODE entry 0 and MODE NONE; the argument is the
one symbol's length, or MAXLEN above 32, or the Kraft sum (R181, R311, R319). -/
def Obligations.GencodeRefusesLengths : Prop :=
  ∀ (s : State) (arg : Nat), s.err = false →
    ((∃ x, present s.len = [x] ∧ s.lenOf x ≠ 1 ∧ arg = s.lenOf x) ∨
      (2 ≤ nsym s.len ∧ 32 < maxLen s.len ∧ arg = maxLen s.len) ∨
      (2 ≤ nsym s.len ∧ maxLen s.len ≤ 32 ∧ kraftSum s.len ≠ 2 ^ 32 ∧ arg = kraftSum s.len)) →
    exec .gencode s = .next { s with
      code := Vector.replicate 256 0#32, mode := .none,
      err := true, errCode := .format, errArg := BitVec.ofNat 64 arg, errCmd := 0x20000000#32,
      cmd := none, hold := none, rsp := some ⟨.error, 0#64⟩ }

/-- The codes of a MULTI table: the first symbol in the order (length, symbol) has code 0, each next one the
previous code plus one shifted left by the increase in length; every code fits its length, and the last is all
ones of MAXLEN bits (R182). -/
def Obligations.CanonicalCodes : Prop :=
  ∀ s : State, s.Inv → s.mode = .multi →
    (∀ x ∈ present s.len, (∀ y ∈ present s.len, ¬ canonBefore s y x) → s.codeOf x = 0) ∧
    (∀ x ∈ present s.len, ∀ y ∈ present s.len, canonBefore s x y →
      (∀ z ∈ present s.len, ¬ (canonBefore s x z ∧ canonBefore s z y)) →
      s.codeOf y = (s.codeOf x + 1) * 2 ^ (s.lenOf y - s.lenOf x)) ∧
    (∀ x ∈ present s.len, s.codeOf x < 2 ^ s.lenOf x) ∧
    (∀ x ∈ present s.len, (∀ y ∈ present s.len, ¬ canonBefore s x y) →
      s.lenOf x = maxLen s.len ∧ s.codeOf x = 2 ^ maxLen s.len - 1)

/-- A MULTI table is prefix-free and complete: no code is a prefix of another, and every bit string of length
MAXLEN begins with exactly one code (R183 item 1). -/
def Obligations.CodesPrefixFreeAndComplete : Prop :=
  ∀ s : State, s.Inv → s.mode = .multi →
    (∀ x ∈ present s.len, ∀ y ∈ present s.len, s.codeBits x <+: s.codeBits y → x = y) ∧
    (∀ bs : List Bool, bs.length = maxLen s.len → ∃ x ∈ present s.len, s.codeBits x <+: bs)

/-- In a MULTI table codes of one length increase with the symbol, and a shorter code, extended with zero bits to a
longer length, is below every code of that length (R183 item 2). -/
def Obligations.ShorterCodesAreLower : Prop :=
  ∀ s : State, s.Inv → s.mode = .multi → ∀ x ∈ present s.len, ∀ y ∈ present s.len,
    canonBefore s x y → s.codeOf x * 2 ^ (s.lenOf y - s.lenOf x) < s.codeOf y

/-- A MULTI table depends on LEN alone: GENCODE on it finds the same codes and the same mode (R181, R183 item 3). -/
def Obligations.GencodeKeepsMultiTable : Prop :=
  ∀ s : State, s.Inv → s.err = false → s.mode = .multi →
    exec .gencode s = .next { s with
      cmd := none, hold := none, rsp := some ⟨.ok, BitVec.ofNat 64 (nsym s.len)⟩ }

/-- RDENT returns the `k`-th present symbol in ascending order with its length and code, and all ones from NSYM on,
in every MODE, and changes nothing (R187). -/
def Obligations.RdentReturnsEntry : Prop :=
  ∀ (s : State) (k : Byte), s.err = false →
    encodeWord (.rdent k) = 0x2C000000#32 ||| (k.zeroExtend 32 <<< 18) ∧
    (nsym s.len ≤ k.toNat → exec (.rdent k) s = .next { s with
      cmd := none, hold := none, rsp := some ⟨.ok, 0xFFFFFFFFFFFFFFFF#64⟩ }) ∧
    (∀ x, (present s.len)[k.toNat]? = some x → exec (.rdent k) s = .next { s with
      cmd := none, hold := none,
      rsp := some ⟨.ok, BitVec.ofNat 64 (x.toNat + s.lenOf x * 2 ^ 8 + s.codeOf x * 2 ^ 16)⟩ })

/-! ### Bit writer -/

/-- WRSYM of a symbol with a code, in any valid mode, puts the code's bits behind those already written, counts
them, and changes nothing else (R220, R221). -/
def Obligations.WrsymPutsCode : Prop :=
  ∀ (s : State) (sym : Sym), s.err = false → s.mode ≠ .none → s.lenOf sym ≠ 0 →
    ∃ acc nbits out, exec (.wrsym sym) s = .next { s with
        bwAcc := acc, bwNbits := nbits, bwBitcnt := s.bwBitcnt + BitVec.ofNat 64 (s.lenOf sym),
        out := s.out ++ out, cmd := none, hold := none, rsp := some ⟨.ok, 0#64⟩ } ∧
      { s with bwAcc := acc, bwNbits := nbits, out := s.out ++ out }.writerBits =
        s.writerBits ++ s.codeBits sym

/-- WRSYM without a table raises NOTABLE with argument 0, even for a symbol with a length; with one, a symbol that
has no code raises NOSYM with the symbol; no bit is written (R221, R318). -/
def Obligations.WrsymRefuses : Prop :=
  ∀ (s : State) (sym : Sym), s.err = false →
    (s.mode = .none → exec (.wrsym sym) s = .next { s with
      err := true, errCode := .noTable, errArg := 0#64, errCmd := encodeWord (.wrsym sym),
      cmd := none, hold := none, rsp := some ⟨.error, 0#64⟩ }) ∧
    (s.mode ≠ .none → s.lenOf sym = 0 → exec (.wrsym sym) s = .next { s with
      err := true, errCode := .noSym, errArg := BitVec.ofNat 64 sym.toNat,
      errCmd := encodeWord (.wrsym sym),
      cmd := none, hold := none, rsp := some ⟨.error, 0#64⟩ })

/-- WRBITS of 0 to 32 bits puts the low bits of DATA, most significant first, behind those already written and
counts them, in every MODE; of more it raises ILLEGAL_CMD with the count and writes nothing else (R220, R222). -/
def Obligations.WrbitsPutsLowBits : Prop :=
  ∀ (s : State) (len : Byte) (bits : Data), s.err = false →
    encode (.wrbits len bits) = ⟨0x34000000#32 ||| (len.zeroExtend 32 <<< 10), bits⟩ ∧
    (len.toNat ≤ 32 → ∃ acc nbits out, exec (.wrbits len bits) s = .next { s with
        bwAcc := acc, bwNbits := nbits, bwBitcnt := s.bwBitcnt + BitVec.ofNat 64 len.toNat,
        out := s.out ++ out, cmd := none, hold := none, rsp := some ⟨.ok, 0#64⟩ } ∧
      { s with bwAcc := acc, bwNbits := nbits, out := s.out ++ out }.writerBits =
        s.writerBits ++ bitsOf (bits.toNat % 2 ^ len.toNat) len.toNat) ∧
    (32 < len.toNat → exec (.wrbits len bits) s = .next { s with
      err := true, errCode := .illegalCmd, errArg := BitVec.ofNat 64 len.toNat,
      errCmd := encodeWord (.wrbits len bits),
      cmd := none, hold := none, rsp := some ⟨.error, 0#64⟩ })

/-- FLUSH with pending bits sends them as one byte with zero bits behind them; with none it sends nothing; either
way it returns the count of code bits and does not change it (R223). -/
def Obligations.FlushPadsLastByte : Prop :=
  encodeWord .flush = 0x38000000#32 ∧ ∀ s : State, s.err = false →
    (s.bwNbits = 0#3 → exec .flush s = .next { s with
      cmd := none, hold := none, rsp := some ⟨.ok, s.bwBitcnt⟩ }) ∧
    (s.bwNbits ≠ 0#3 → ∃ b, exec .flush s = .next { s with
        bwAcc := 0#8, bwNbits := 0#3, out := s.out ++ [b],
        cmd := none, hold := none, rsp := some ⟨.ok, s.bwBitcnt⟩ } ∧
      byteBits b = bitsOf s.bwAcc.toNat s.bwNbits.toNat ++ List.replicate (8 - s.bwNbits.toNat) false)

/-- BWRST discards the pending bits and clears the count; OUT, the table and everything else stay (R224). -/
def Obligations.BwrstRestartsWriter : Prop :=
  encodeWord .bwrst = 0x3C000000#32 ∧ ∀ s : State, s.err = false → exec .bwrst s = .next { s with
    bwAcc := 0#8, bwNbits := 0#3, bwBitcnt := 0#64,
    cmd := none, hold := none, rsp := some ⟨.ok, 0#64⟩ }

/-! ### Bit reader -/

/-- BRSTART sets the budget, starts the position at 0, drops the bits left of the current byte and keeps IN
(R250). -/
def Obligations.BrstartStartsReader : Prop :=
  ∀ (s : State) (budget : Data), s.err = false → encode (.brstart budget) = ⟨0x40000000#32, budget⟩ ∧ exec (.brstart budget) s = .next { s with
    brBudget := budget, brPos := 0#64, brByte := 0#8, brNbits := 0#4,
    cmd := none, hold := none, rsp := some ⟨.ok, 0#64⟩ }

/-- RDBITS of 0 to 32 bits within the budget returns the next bits as a number, the first most significant, and
consumes exactly them, taking from IN no byte more than they need; of more than 32 it raises ILLEGAL_CMD with the
count and consumes nothing (R251, R252). -/
def Obligations.RdbitsReadsBits : Prop :=
  ∀ (s : State) (len : Byte), s.err = false → s.hold = none →
    (len.toNat ≤ 32 → len.toNat ≤ s.budgetLeft → len.toNat ≤ s.readerBits.length →
      exec (.rdbits len) s = .next { s.afterBits len.toNat with
        cmd := none, hold := none,
        rsp := some ⟨.ok, BitVec.ofNat 64 (bitsValue (s.readerBits.take len.toNat))⟩ } ∧
      (s.afterBits len.toNat).readerBits = s.readerBits.drop len.toNat) ∧
    (32 < len.toNat → exec (.rdbits len) s = .next { s with
      err := true, errCode := .illegalCmd, errArg := BitVec.ofNat 64 len.toNat,
      errCmd := encodeWord (.rdbits len),
      cmd := none, hold := none, rsp := some ⟨.error, 0#64⟩ })

/-- RDBITS whose budget runs out first raises TRUNCATED with argument 0; the bits before it are consumed, no byte
more is taken from IN than they need, and BR_POS is BR_BUDGET (R251, R252, R319). -/
def Obligations.RdbitsTruncated : Prop :=
  ∀ (s : State) (len : Byte), s.err = false → s.hold = none → s.brPos.toNat ≤ s.brBudget.toNat →
    len.toNat ≤ 32 → s.budgetLeft < len.toNat → s.budgetLeft ≤ s.readerBits.length →
    exec (.rdbits len) s = .next { s.afterBits s.budgetLeft with
      brPos := s.brBudget,
      err := true, errCode := .truncated, errArg := 0#64, errCmd := encodeWord (.rdbits len),
      cmd := none, hold := none, rsp := some ⟨.error, 0#64⟩ } ∧
    (s.afterBits s.budgetLeft).readerBits = s.readerBits.drop s.budgetLeft

/-- DECSYM in MULTI mode returns the symbol whose code the next bits are and consumes exactly them, taking from IN no
byte more than they need (R251, R253, R254). -/
def Obligations.DecsymDecodesSymbol : Prop :=
  ∀ (s : State) (x : Sym), s.Inv → s.err = false → s.hold = none → s.mode = .multi →
    x ∈ present s.len → s.codeBits x <+: s.readerBits → s.lenOf x ≤ s.budgetLeft →
    exec .decsym s = .next { s.afterBits (s.lenOf x) with
      cmd := none, hold := none, rsp := some ⟨.ok, BitVec.ofNat 64 x.toNat⟩ } ∧
    (s.afterBits (s.lenOf x)).readerBits = s.readerBits.drop (s.lenOf x)

/-- DECSYM in MULTI mode whose budget ends before the bits read are a code raises TRUNCATED with argument 0; the bits
before it are consumed, no byte more is taken from IN than they need, and BR_POS is BR_BUDGET (R251, R254, R319). -/
def Obligations.DecsymTruncated : Prop :=
  ∀ s : State, s.Inv → s.err = false → s.hold = none → s.mode = .multi →
    s.budgetLeft ≤ s.readerBits.length →
    (∀ x ∈ present s.len, ¬ s.codeBits x <+: s.readerBits.take s.budgetLeft) →
    exec .decsym s = .next { s.afterBits s.budgetLeft with
      brPos := s.brBudget,
      err := true, errCode := .truncated, errArg := 0#64, errCmd := 0x48000000#32,
      cmd := none, hold := none, rsp := some ⟨.error, 0#64⟩ } ∧
    (s.afterBits s.budgetLeft).readerBits = s.readerBits.drop s.budgetLeft

/-- DECSYM in SINGLE mode returns the one symbol and reads nothing; without a table it raises NOTABLE, with an
EMPTY one NOSYM, each with argument 0 and nothing else changed (R254). -/
def Obligations.DecsymWithoutBits : Prop :=
  ∀ s : State, s.err = false →
    (∀ x rest, s.mode = .single → present s.len = x :: rest → exec .decsym s = .next { s with
      cmd := none, hold := none, rsp := some ⟨.ok, BitVec.ofNat 64 x.toNat⟩ }) ∧
    (s.mode = .none → exec .decsym s = .next { s with
      err := true, errCode := .noTable, errArg := 0#64, errCmd := 0x48000000#32,
      cmd := none, hold := none, rsp := some ⟨.error, 0#64⟩ }) ∧
    (s.mode = .empty → exec .decsym s = .next { s with
      err := true, errCode := .noSym, errArg := 0#64, errCmd := 0x48000000#32,
      cmd := none, hold := none, rsp := some ⟨.error, 0#64⟩ })

/-- DECODE n in MULTI mode, where the next bits within the budget are the codes of n symbols: it pushes those
symbols in order, consumes exactly their bits, taking from IN no byte more than they need, and responds n (R251,
R255, R256). -/
def Obligations.DecodePushesSymbols : Prop :=
  ∀ (s : State) (xs : List Sym) (count : Data), s.Inv → s.err = false → s.hold = none → s.mode = .multi →
    count.toNat = xs.length → (∀ x ∈ xs, x ∈ present s.len) →
    xs.flatMap s.codeBits <+: s.readerBits → (xs.flatMap s.codeBits).length ≤ s.budgetLeft →
    exec (.decode count) s = .next { s.afterBits (xs.flatMap s.codeBits).length with
      out := s.out ++ xs, cmd := none, hold := none, rsp := some ⟨.ok, count⟩ } ∧
    (s.afterBits (xs.flatMap s.codeBits).length).readerBits =
      s.readerBits.drop (xs.flatMap s.codeBits).length

/-- DECODE in MULTI mode whose budget ends inside or before a symbol after the early check has passed: the symbols
before it are in OUT, their number is the argument of TRUNCATED, the bits up to the budget are consumed with no byte
more of IN than they need, and BR_POS is BR_BUDGET (R251, R256, R311, R319). -/
def Obligations.DecodeTruncatedInLoop : Prop :=
  ∀ (s : State) (xs : List Sym) (tail : List Bool) (count : Data),
    s.Inv → s.err = false → s.hold = none → s.mode = .multi →
    xs.length < count.toNat → (∀ x ∈ xs, x ∈ present s.len) →
    s.budgetLeft ≤ s.readerBits.length →
    s.readerBits.take s.budgetLeft = xs.flatMap s.codeBits ++ tail →
    (∀ x ∈ present s.len, ¬ s.codeBits x <+: tail) →
    (∃ x ∈ present s.len, count.toNat * s.lenOf x ≤ s.budgetLeft) →
    exec (.decode count) s = .next { s.afterBits s.budgetLeft with
      brPos := s.brBudget, out := s.out ++ xs,
      err := true, errCode := .truncated, errArg := BitVec.ofNat 64 xs.length, errCmd := 0x4C000000#32,
      cmd := none, hold := none, rsp := some ⟨.error, 0#64⟩ } ∧
    (s.afterBits s.budgetLeft).readerBits = s.readerBits.drop s.budgetLeft

/-- DECODE in SINGLE mode pushes its count of copies of the one symbol when the budget left has a bit for each, and
reads nothing (R255, R256). -/
def Obligations.DecodeSingleRepeatsSymbol : Prop :=
  ∀ (s : State) (count : Data), s.Inv → s.err = false → s.hold = none → s.mode = .single →
    count.toNat ≤ s.budgetLeft →
    ∃ x, present s.len = [x] ∧ exec (.decode count) s = .next { s with
      out := s.out ++ List.replicate count.toNat x,
      cmd := none, hold := none, rsp := some ⟨.ok, count⟩ }

/-- What DECODE checks before it pushes or reads anything, in this order: no table raises NOTABLE even for a count
of 0; a count of 0 responds 0; an EMPTY table raises FORMAT with the count; a count that the budget left cannot
hold, at the least length of a symbol for each (one bit in SINGLE mode), raises TRUNCATED with argument 0 (R255, R256,
R318). -/
def Obligations.DecodeChecksInOrder : Prop :=
  ∀ (s : State) (count : Data), s.err = false → s.hold = none →
    (s.mode = .none → exec (.decode count) s = .next { s with
      err := true, errCode := .noTable, errArg := 0#64, errCmd := 0x4C000000#32,
      cmd := none, hold := none, rsp := some ⟨.error, 0#64⟩ }) ∧
    (s.mode ≠ .none → count = 0#64 → exec (.decode count) s = .next { s with
      cmd := none, hold := none, rsp := some ⟨.ok, 0#64⟩ }) ∧
    (s.mode = .empty → count ≠ 0#64 → exec (.decode count) s = .next { s with
      err := true, errCode := .format, errArg := count, errCmd := 0x4C000000#32,
      cmd := none, hold := none, rsp := some ⟨.error, 0#64⟩ }) ∧
    (s.mode = .single ∨ s.mode = .multi → count ≠ 0#64 →
      s.budgetLeft < count.toNat * minLen s.len → exec (.decode count) s = .next { s with
        err := true, errCode := .truncated, errArg := 0#64, errCmd := 0x4C000000#32,
        cmd := none, hold := none, rsp := some ⟨.error, 0#64⟩ }) ∧
    (s.Inv → s.mode = .single → s.budgetLeft < count.toNat → exec (.decode count) s = .next { s with
      err := true, errCode := .truncated, errArg := 0#64, errCmd := 0x4C000000#32,
      cmd := none, hold := none, rsp := some ⟨.error, 0#64⟩ }) ∧
    (∀ m : Nat, s.Inv → s.mode = .multi → (∀ x ∈ present s.len, m ≤ s.lenOf x) →
      s.budgetLeft < count.toNat * m → exec (.decode count) s = .next { s with
        err := true, errCode := .truncated, errArg := 0#64, errCmd := 0x4C000000#32,
        cmd := none, hold := none, rsp := some ⟨.error, 0#64⟩ })

/-! ### Round trip -/

/-- The round trip: the payload that BWRST, one WRSYM per symbol and FLUSH push, supplied on an empty IN of a block
that holds the same lengths, decodes with BRSTART of 8 bits a byte and DECODE of the count to the same symbols. With
MULTI tables the symbols come from the payload's bits, and BR_POS is the number of bits written; with SINGLE tables
each symbol writes a 0 bit and DECODE reads none of them; with an EMPTY table DECODE of 0 pushes and reads nothing
(R225, R257). -/
def Obligations.RoundTrip : Prop :=
  (∀ (e d : State) (xs : List Sym), e.Inv → d.Inv → e.err = false → d.err = false →
    e.mode = .multi → d.mode = .multi → d.len = e.len → d.hold = none →
    (∀ x ∈ xs, x ∈ present e.len) → 32 * xs.length + 8 < 2 ^ 64 →
    ∃ (e' d' : State) (payload : List Byte),
      execAllOk ([.bwrst] ++ xs.map .wrsym ++ [.flush]) e = some e' ∧
      e'.out = e.out ++ payload ∧
      e'.rsp = some ⟨.ok, BitVec.ofNat 64 (xs.flatMap e.codeBits).length⟩ ∧
      execAllOk [.brstart (BitVec.ofNat 64 (8 * payload.length)),
        .decode (BitVec.ofNat 64 xs.length)] { d with inq := payload } = some d' ∧
      d'.out = d.out ++ xs ∧ d'.brPos.toNat = (xs.flatMap e.codeBits).length) ∧
  (∀ (e d : State) (x : Sym) (n : Nat), e.Inv → d.Inv → e.err = false → d.err = false →
    e.mode = .single → d.mode = .single → d.len = e.len → d.hold = none →
    x ∈ present e.len → n + 8 < 2 ^ 64 →
    ∃ (e' d' : State) (payload : List Byte),
      execAllOk ([.bwrst] ++ List.replicate n (.wrsym x) ++ [.flush]) e = some e' ∧
      e'.out = e.out ++ payload ∧ payload = List.replicate ((n + 7) / 8) 0#8 ∧
      e'.rsp = some ⟨.ok, BitVec.ofNat 64 n⟩ ∧
      execAllOk [.brstart (BitVec.ofNat 64 (8 * payload.length)), .decode (BitVec.ofNat 64 n)]
        { d with inq := payload } = some d' ∧
      d'.out = d.out ++ List.replicate n x ∧ d'.brPos = 0#64 ∧ d'.brNbits = 0#4 ∧ d'.inq = payload) ∧
  ∀ (d : State) (budget : Data), d.err = false → d.mode = .empty → d.hold = none →
    ∃ d' : State, execAllOk [.brstart budget, .decode 0#64] d = some d' ∧
      d'.out = d.out ∧ d'.brPos = 0#64 ∧ d'.inq = d.inq
end

