-- ==== Sys2Proof/Laws/State.lean ====
section
/-! SUPPORT. One lemma per field per named update of the state, so that no proof unfolds a record update. -/

namespace Sys2Proof.Machine

/-! ### respond: the ports -/

@[simp] theorem State.respond_freq (s : State) (st : Status) (v : Data) :
    (s.respond st v).freq = s.freq := rfl

@[simp] theorem State.respond_len (s : State) (st : Status) (v : Data) :
    (s.respond st v).len = s.len := rfl

@[simp] theorem State.respond_code (s : State) (st : Status) (v : Data) :
    (s.respond st v).code = s.code := rfl

@[simp] theorem State.respond_nodes (s : State) (st : Status) (v : Data) :
    (s.respond st v).nodes = s.nodes := rfl

@[simp] theorem State.respond_nnodes (s : State) (st : Status) (v : Data) :
    (s.respond st v).nnodes = s.nnodes := rfl

@[simp] theorem State.respond_mode (s : State) (st : Status) (v : Data) :
    (s.respond st v).mode = s.mode := rfl

@[simp] theorem State.respond_bwAcc (s : State) (st : Status) (v : Data) :
    (s.respond st v).bwAcc = s.bwAcc := rfl

@[simp] theorem State.respond_bwNbits (s : State) (st : Status) (v : Data) :
    (s.respond st v).bwNbits = s.bwNbits := rfl

@[simp] theorem State.respond_bwBitcnt (s : State) (st : Status) (v : Data) :
    (s.respond st v).bwBitcnt = s.bwBitcnt := rfl

@[simp] theorem State.respond_brBudget (s : State) (st : Status) (v : Data) :
    (s.respond st v).brBudget = s.brBudget := rfl

@[simp] theorem State.respond_brPos (s : State) (st : Status) (v : Data) :
    (s.respond st v).brPos = s.brPos := rfl

@[simp] theorem State.respond_brByte (s : State) (st : Status) (v : Data) :
    (s.respond st v).brByte = s.brByte := rfl

@[simp] theorem State.respond_brNbits (s : State) (st : Status) (v : Data) :
    (s.respond st v).brNbits = s.brNbits := rfl

@[simp] theorem State.respond_err (s : State) (st : Status) (v : Data) :
    (s.respond st v).err = s.err := rfl

@[simp] theorem State.respond_errCode (s : State) (st : Status) (v : Data) :
    (s.respond st v).errCode = s.errCode := rfl

@[simp] theorem State.respond_errArg (s : State) (st : Status) (v : Data) :
    (s.respond st v).errArg = s.errArg := rfl

@[simp] theorem State.respond_errCmd (s : State) (st : Status) (v : Data) :
    (s.respond st v).errCmd = s.errCmd := rfl

@[simp] theorem State.respond_inq (s : State) (st : Status) (v : Data) :
    (s.respond st v).inq = s.inq := rfl

@[simp] theorem State.respond_out (s : State) (st : Status) (v : Data) :
    (s.respond st v).out = s.out := rfl

@[simp] theorem State.respond_cmd (s : State) (st : Status) (v : Data) :
    (s.respond st v).cmd = none := rfl

@[simp] theorem State.respond_hold (s : State) (st : Status) (v : Data) :
    (s.respond st v).hold = none := rfl

@[simp] theorem State.respond_rsp (s : State) (st : Status) (v : Data) :
    (s.respond st v).rsp = some ⟨st, v⟩ := rfl

@[simp] theorem State.respond_script (s : State) (st : Status) (v : Data) :
    (s.respond st v).script = s.script := rfl

@[simp] theorem State.respond_rspLog (s : State) (st : Status) (v : Data) :
    (s.respond st v).rspLog = s.rspLog := rfl

@[simp] theorem State.respond_received (s : State) (st : Status) (v : Data) :
    (s.respond st v).received = s.received := rfl

/-! ### respondOk: the ports -/

@[simp] theorem State.respondOk_freq (s : State) (v : Data) :
    (s.respondOk v).freq = s.freq := rfl

@[simp] theorem State.respondOk_len (s : State) (v : Data) :
    (s.respondOk v).len = s.len := rfl

@[simp] theorem State.respondOk_code (s : State) (v : Data) :
    (s.respondOk v).code = s.code := rfl

@[simp] theorem State.respondOk_nodes (s : State) (v : Data) :
    (s.respondOk v).nodes = s.nodes := rfl

@[simp] theorem State.respondOk_nnodes (s : State) (v : Data) :
    (s.respondOk v).nnodes = s.nnodes := rfl

@[simp] theorem State.respondOk_mode (s : State) (v : Data) :
    (s.respondOk v).mode = s.mode := rfl

@[simp] theorem State.respondOk_bwAcc (s : State) (v : Data) :
    (s.respondOk v).bwAcc = s.bwAcc := rfl

@[simp] theorem State.respondOk_bwNbits (s : State) (v : Data) :
    (s.respondOk v).bwNbits = s.bwNbits := rfl

@[simp] theorem State.respondOk_bwBitcnt (s : State) (v : Data) :
    (s.respondOk v).bwBitcnt = s.bwBitcnt := rfl

@[simp] theorem State.respondOk_brBudget (s : State) (v : Data) :
    (s.respondOk v).brBudget = s.brBudget := rfl

@[simp] theorem State.respondOk_brPos (s : State) (v : Data) :
    (s.respondOk v).brPos = s.brPos := rfl

@[simp] theorem State.respondOk_brByte (s : State) (v : Data) :
    (s.respondOk v).brByte = s.brByte := rfl

@[simp] theorem State.respondOk_brNbits (s : State) (v : Data) :
    (s.respondOk v).brNbits = s.brNbits := rfl

@[simp] theorem State.respondOk_err (s : State) (v : Data) :
    (s.respondOk v).err = s.err := rfl

@[simp] theorem State.respondOk_errCode (s : State) (v : Data) :
    (s.respondOk v).errCode = s.errCode := rfl

@[simp] theorem State.respondOk_errArg (s : State) (v : Data) :
    (s.respondOk v).errArg = s.errArg := rfl

@[simp] theorem State.respondOk_errCmd (s : State) (v : Data) :
    (s.respondOk v).errCmd = s.errCmd := rfl

@[simp] theorem State.respondOk_inq (s : State) (v : Data) :
    (s.respondOk v).inq = s.inq := rfl

@[simp] theorem State.respondOk_out (s : State) (v : Data) :
    (s.respondOk v).out = s.out := rfl

@[simp] theorem State.respondOk_cmd (s : State) (v : Data) :
    (s.respondOk v).cmd = none := rfl

@[simp] theorem State.respondOk_hold (s : State) (v : Data) :
    (s.respondOk v).hold = none := rfl

@[simp] theorem State.respondOk_rsp (s : State) (v : Data) :
    (s.respondOk v).rsp = some ⟨.ok, v⟩ := rfl

@[simp] theorem State.respondOk_script (s : State) (v : Data) :
    (s.respondOk v).script = s.script := rfl

@[simp] theorem State.respondOk_rspLog (s : State) (v : Data) :
    (s.respondOk v).rspLog = s.rspLog := rfl

@[simp] theorem State.respondOk_received (s : State) (v : Data) :
    (s.respondOk v).received = s.received := rfl

/-! ### reject: the ports -/

@[simp] theorem State.reject_freq (s : State) :
    (s.reject).freq = s.freq := rfl

@[simp] theorem State.reject_len (s : State) :
    (s.reject).len = s.len := rfl

@[simp] theorem State.reject_code (s : State) :
    (s.reject).code = s.code := rfl

@[simp] theorem State.reject_nodes (s : State) :
    (s.reject).nodes = s.nodes := rfl

@[simp] theorem State.reject_nnodes (s : State) :
    (s.reject).nnodes = s.nnodes := rfl

@[simp] theorem State.reject_mode (s : State) :
    (s.reject).mode = s.mode := rfl

@[simp] theorem State.reject_bwAcc (s : State) :
    (s.reject).bwAcc = s.bwAcc := rfl

@[simp] theorem State.reject_bwNbits (s : State) :
    (s.reject).bwNbits = s.bwNbits := rfl

@[simp] theorem State.reject_bwBitcnt (s : State) :
    (s.reject).bwBitcnt = s.bwBitcnt := rfl

@[simp] theorem State.reject_brBudget (s : State) :
    (s.reject).brBudget = s.brBudget := rfl

@[simp] theorem State.reject_brPos (s : State) :
    (s.reject).brPos = s.brPos := rfl

@[simp] theorem State.reject_brByte (s : State) :
    (s.reject).brByte = s.brByte := rfl

@[simp] theorem State.reject_brNbits (s : State) :
    (s.reject).brNbits = s.brNbits := rfl

@[simp] theorem State.reject_err (s : State) :
    (s.reject).err = s.err := rfl

@[simp] theorem State.reject_errCode (s : State) :
    (s.reject).errCode = s.errCode := rfl

@[simp] theorem State.reject_errArg (s : State) :
    (s.reject).errArg = s.errArg := rfl

@[simp] theorem State.reject_errCmd (s : State) :
    (s.reject).errCmd = s.errCmd := rfl

@[simp] theorem State.reject_inq (s : State) :
    (s.reject).inq = s.inq := rfl

@[simp] theorem State.reject_out (s : State) :
    (s.reject).out = s.out := rfl

@[simp] theorem State.reject_cmd (s : State) :
    (s.reject).cmd = none := rfl

@[simp] theorem State.reject_hold (s : State) :
    (s.reject).hold = none := rfl

@[simp] theorem State.reject_rsp (s : State) :
    (s.reject).rsp = some ⟨.rejected, 0#64⟩ := rfl

@[simp] theorem State.reject_script (s : State) :
    (s.reject).script = s.script := rfl

@[simp] theorem State.reject_rspLog (s : State) :
    (s.reject).rspLog = s.rspLog := rfl

@[simp] theorem State.reject_received (s : State) :
    (s.reject).received = s.received := rfl

/-! ### raise: the ports, and the error registers at the first error -/

@[simp] theorem State.raise_freq (s : State) (e : ErrCode) (arg : Data) (w : Word) :
    (s.raise e arg w).freq = s.freq := by
  unfold State.raise; split <;> simp_all

@[simp] theorem State.raise_len (s : State) (e : ErrCode) (arg : Data) (w : Word) :
    (s.raise e arg w).len = s.len := by
  unfold State.raise; split <;> simp_all

@[simp] theorem State.raise_code (s : State) (e : ErrCode) (arg : Data) (w : Word) :
    (s.raise e arg w).code = s.code := by
  unfold State.raise; split <;> simp_all

@[simp] theorem State.raise_nodes (s : State) (e : ErrCode) (arg : Data) (w : Word) :
    (s.raise e arg w).nodes = s.nodes := by
  unfold State.raise; split <;> simp_all

@[simp] theorem State.raise_nnodes (s : State) (e : ErrCode) (arg : Data) (w : Word) :
    (s.raise e arg w).nnodes = s.nnodes := by
  unfold State.raise; split <;> simp_all

@[simp] theorem State.raise_mode (s : State) (e : ErrCode) (arg : Data) (w : Word) :
    (s.raise e arg w).mode = s.mode := by
  unfold State.raise; split <;> simp_all

@[simp] theorem State.raise_bwAcc (s : State) (e : ErrCode) (arg : Data) (w : Word) :
    (s.raise e arg w).bwAcc = s.bwAcc := by
  unfold State.raise; split <;> simp_all

@[simp] theorem State.raise_bwNbits (s : State) (e : ErrCode) (arg : Data) (w : Word) :
    (s.raise e arg w).bwNbits = s.bwNbits := by
  unfold State.raise; split <;> simp_all

@[simp] theorem State.raise_bwBitcnt (s : State) (e : ErrCode) (arg : Data) (w : Word) :
    (s.raise e arg w).bwBitcnt = s.bwBitcnt := by
  unfold State.raise; split <;> simp_all

@[simp] theorem State.raise_brBudget (s : State) (e : ErrCode) (arg : Data) (w : Word) :
    (s.raise e arg w).brBudget = s.brBudget := by
  unfold State.raise; split <;> simp_all

@[simp] theorem State.raise_brPos (s : State) (e : ErrCode) (arg : Data) (w : Word) :
    (s.raise e arg w).brPos = s.brPos := by
  unfold State.raise; split <;> simp_all

@[simp] theorem State.raise_brByte (s : State) (e : ErrCode) (arg : Data) (w : Word) :
    (s.raise e arg w).brByte = s.brByte := by
  unfold State.raise; split <;> simp_all

@[simp] theorem State.raise_brNbits (s : State) (e : ErrCode) (arg : Data) (w : Word) :
    (s.raise e arg w).brNbits = s.brNbits := by
  unfold State.raise; split <;> simp_all

@[simp] theorem State.raise_err (s : State) (e : ErrCode) (arg : Data) (w : Word) :
    (s.raise e arg w).err = true := by
  unfold State.raise; split <;> simp_all

@[simp] theorem State.raise_errCode (s : State) (e : ErrCode) (arg : Data) (w : Word) :
    (s.raise e arg w).errCode = if s.err then s.errCode else e := by
  unfold State.raise; split <;> simp_all

@[simp] theorem State.raise_errArg (s : State) (e : ErrCode) (arg : Data) (w : Word) :
    (s.raise e arg w).errArg = if s.err then s.errArg else arg := by
  unfold State.raise; split <;> simp_all

@[simp] theorem State.raise_errCmd (s : State) (e : ErrCode) (arg : Data) (w : Word) :
    (s.raise e arg w).errCmd = if s.err then s.errCmd else w := by
  unfold State.raise; split <;> simp_all

@[simp] theorem State.raise_inq (s : State) (e : ErrCode) (arg : Data) (w : Word) :
    (s.raise e arg w).inq = s.inq := by
  unfold State.raise; split <;> simp_all

@[simp] theorem State.raise_out (s : State) (e : ErrCode) (arg : Data) (w : Word) :
    (s.raise e arg w).out = s.out := by
  unfold State.raise; split <;> simp_all

@[simp] theorem State.raise_cmd (s : State) (e : ErrCode) (arg : Data) (w : Word) :
    (s.raise e arg w).cmd = none := by
  unfold State.raise; split <;> simp_all

@[simp] theorem State.raise_hold (s : State) (e : ErrCode) (arg : Data) (w : Word) :
    (s.raise e arg w).hold = none := by
  unfold State.raise; split <;> simp_all

@[simp] theorem State.raise_rsp (s : State) (e : ErrCode) (arg : Data) (w : Word) :
    (s.raise e arg w).rsp = some ⟨.error, 0#64⟩ := by
  unfold State.raise; split <;> simp_all

@[simp] theorem State.raise_script (s : State) (e : ErrCode) (arg : Data) (w : Word) :
    (s.raise e arg w).script = s.script := by
  unfold State.raise; split <;> simp_all

@[simp] theorem State.raise_rspLog (s : State) (e : ErrCode) (arg : Data) (w : Word) :
    (s.raise e arg w).rspLog = s.rspLog := by
  unfold State.raise; split <;> simp_all

@[simp] theorem State.raise_received (s : State) (e : ErrCode) (arg : Data) (w : Word) :
    (s.raise e arg w).received = s.received := by
  unfold State.raise; split <;> simp_all

/-! ### dropTable: MODE and CODE -/

@[simp] theorem State.dropTable_freq (s : State) :
    (s.dropTable).freq = s.freq := rfl

@[simp] theorem State.dropTable_len (s : State) :
    (s.dropTable).len = s.len := rfl

@[simp] theorem State.dropTable_code (s : State) :
    (s.dropTable).code = tableFill 0#32 := rfl

@[simp] theorem State.dropTable_nodes (s : State) :
    (s.dropTable).nodes = s.nodes := rfl

@[simp] theorem State.dropTable_nnodes (s : State) :
    (s.dropTable).nnodes = s.nnodes := rfl

@[simp] theorem State.dropTable_mode (s : State) :
    (s.dropTable).mode = .none := rfl

@[simp] theorem State.dropTable_bwAcc (s : State) :
    (s.dropTable).bwAcc = s.bwAcc := rfl

@[simp] theorem State.dropTable_bwNbits (s : State) :
    (s.dropTable).bwNbits = s.bwNbits := rfl

@[simp] theorem State.dropTable_bwBitcnt (s : State) :
    (s.dropTable).bwBitcnt = s.bwBitcnt := rfl

@[simp] theorem State.dropTable_brBudget (s : State) :
    (s.dropTable).brBudget = s.brBudget := rfl

@[simp] theorem State.dropTable_brPos (s : State) :
    (s.dropTable).brPos = s.brPos := rfl

@[simp] theorem State.dropTable_brByte (s : State) :
    (s.dropTable).brByte = s.brByte := rfl

@[simp] theorem State.dropTable_brNbits (s : State) :
    (s.dropTable).brNbits = s.brNbits := rfl

@[simp] theorem State.dropTable_err (s : State) :
    (s.dropTable).err = s.err := rfl

@[simp] theorem State.dropTable_errCode (s : State) :
    (s.dropTable).errCode = s.errCode := rfl

@[simp] theorem State.dropTable_errArg (s : State) :
    (s.dropTable).errArg = s.errArg := rfl

@[simp] theorem State.dropTable_errCmd (s : State) :
    (s.dropTable).errCmd = s.errCmd := rfl

@[simp] theorem State.dropTable_inq (s : State) :
    (s.dropTable).inq = s.inq := rfl

@[simp] theorem State.dropTable_out (s : State) :
    (s.dropTable).out = s.out := rfl

@[simp] theorem State.dropTable_cmd (s : State) :
    (s.dropTable).cmd = s.cmd := rfl

@[simp] theorem State.dropTable_hold (s : State) :
    (s.dropTable).hold = s.hold := rfl

@[simp] theorem State.dropTable_rsp (s : State) :
    (s.dropTable).rsp = s.rsp := rfl

@[simp] theorem State.dropTable_script (s : State) :
    (s.dropTable).script = s.script := rfl

@[simp] theorem State.dropTable_rspLog (s : State) :
    (s.dropTable).rspLog = s.rspLog := rfl

@[simp] theorem State.dropTable_received (s : State) :
    (s.dropTable).received = s.received := rfl

/-! ### outPush: OUT -/

@[simp] theorem State.outPush_freq (s : State) (b : Byte) :
    (s.outPush b).freq = s.freq := rfl

@[simp] theorem State.outPush_len (s : State) (b : Byte) :
    (s.outPush b).len = s.len := rfl

@[simp] theorem State.outPush_code (s : State) (b : Byte) :
    (s.outPush b).code = s.code := rfl

@[simp] theorem State.outPush_nodes (s : State) (b : Byte) :
    (s.outPush b).nodes = s.nodes := rfl

@[simp] theorem State.outPush_nnodes (s : State) (b : Byte) :
    (s.outPush b).nnodes = s.nnodes := rfl

@[simp] theorem State.outPush_mode (s : State) (b : Byte) :
    (s.outPush b).mode = s.mode := rfl

@[simp] theorem State.outPush_bwAcc (s : State) (b : Byte) :
    (s.outPush b).bwAcc = s.bwAcc := rfl

@[simp] theorem State.outPush_bwNbits (s : State) (b : Byte) :
    (s.outPush b).bwNbits = s.bwNbits := rfl

@[simp] theorem State.outPush_bwBitcnt (s : State) (b : Byte) :
    (s.outPush b).bwBitcnt = s.bwBitcnt := rfl

@[simp] theorem State.outPush_brBudget (s : State) (b : Byte) :
    (s.outPush b).brBudget = s.brBudget := rfl

@[simp] theorem State.outPush_brPos (s : State) (b : Byte) :
    (s.outPush b).brPos = s.brPos := rfl

@[simp] theorem State.outPush_brByte (s : State) (b : Byte) :
    (s.outPush b).brByte = s.brByte := rfl

@[simp] theorem State.outPush_brNbits (s : State) (b : Byte) :
    (s.outPush b).brNbits = s.brNbits := rfl

@[simp] theorem State.outPush_err (s : State) (b : Byte) :
    (s.outPush b).err = s.err := rfl

@[simp] theorem State.outPush_errCode (s : State) (b : Byte) :
    (s.outPush b).errCode = s.errCode := rfl

@[simp] theorem State.outPush_errArg (s : State) (b : Byte) :
    (s.outPush b).errArg = s.errArg := rfl

@[simp] theorem State.outPush_errCmd (s : State) (b : Byte) :
    (s.outPush b).errCmd = s.errCmd := rfl

@[simp] theorem State.outPush_inq (s : State) (b : Byte) :
    (s.outPush b).inq = s.inq := rfl

@[simp] theorem State.outPush_out (s : State) (b : Byte) :
    (s.outPush b).out = s.out ++ [b] := rfl

@[simp] theorem State.outPush_cmd (s : State) (b : Byte) :
    (s.outPush b).cmd = s.cmd := rfl

@[simp] theorem State.outPush_hold (s : State) (b : Byte) :
    (s.outPush b).hold = s.hold := rfl

@[simp] theorem State.outPush_rsp (s : State) (b : Byte) :
    (s.outPush b).rsp = s.rsp := rfl

@[simp] theorem State.outPush_script (s : State) (b : Byte) :
    (s.outPush b).script = s.script := rfl

@[simp] theorem State.outPush_rspLog (s : State) (b : Byte) :
    (s.outPush b).rspLog = s.rspLog := rfl

@[simp] theorem State.outPush_received (s : State) (b : Byte) :
    (s.outPush b).received = s.received := rfl

/-! ### holdWith: the progress -/

@[simp] theorem State.holdWith_freq (s : State) (p : Progress) :
    (s.holdWith p).freq = s.freq := rfl

@[simp] theorem State.holdWith_len (s : State) (p : Progress) :
    (s.holdWith p).len = s.len := rfl

@[simp] theorem State.holdWith_code (s : State) (p : Progress) :
    (s.holdWith p).code = s.code := rfl

@[simp] theorem State.holdWith_nodes (s : State) (p : Progress) :
    (s.holdWith p).nodes = s.nodes := rfl

@[simp] theorem State.holdWith_nnodes (s : State) (p : Progress) :
    (s.holdWith p).nnodes = s.nnodes := rfl

@[simp] theorem State.holdWith_mode (s : State) (p : Progress) :
    (s.holdWith p).mode = s.mode := rfl

@[simp] theorem State.holdWith_bwAcc (s : State) (p : Progress) :
    (s.holdWith p).bwAcc = s.bwAcc := rfl

@[simp] theorem State.holdWith_bwNbits (s : State) (p : Progress) :
    (s.holdWith p).bwNbits = s.bwNbits := rfl

@[simp] theorem State.holdWith_bwBitcnt (s : State) (p : Progress) :
    (s.holdWith p).bwBitcnt = s.bwBitcnt := rfl

@[simp] theorem State.holdWith_brBudget (s : State) (p : Progress) :
    (s.holdWith p).brBudget = s.brBudget := rfl

@[simp] theorem State.holdWith_brPos (s : State) (p : Progress) :
    (s.holdWith p).brPos = s.brPos := rfl

@[simp] theorem State.holdWith_brByte (s : State) (p : Progress) :
    (s.holdWith p).brByte = s.brByte := rfl

@[simp] theorem State.holdWith_brNbits (s : State) (p : Progress) :
    (s.holdWith p).brNbits = s.brNbits := rfl

@[simp] theorem State.holdWith_err (s : State) (p : Progress) :
    (s.holdWith p).err = s.err := rfl

@[simp] theorem State.holdWith_errCode (s : State) (p : Progress) :
    (s.holdWith p).errCode = s.errCode := rfl

@[simp] theorem State.holdWith_errArg (s : State) (p : Progress) :
    (s.holdWith p).errArg = s.errArg := rfl

@[simp] theorem State.holdWith_errCmd (s : State) (p : Progress) :
    (s.holdWith p).errCmd = s.errCmd := rfl

@[simp] theorem State.holdWith_inq (s : State) (p : Progress) :
    (s.holdWith p).inq = s.inq := rfl

@[simp] theorem State.holdWith_out (s : State) (p : Progress) :
    (s.holdWith p).out = s.out := rfl

@[simp] theorem State.holdWith_cmd (s : State) (p : Progress) :
    (s.holdWith p).cmd = s.cmd := rfl

@[simp] theorem State.holdWith_hold (s : State) (p : Progress) :
    (s.holdWith p).hold = some p := rfl

@[simp] theorem State.holdWith_rsp (s : State) (p : Progress) :
    (s.holdWith p).rsp = s.rsp := rfl

@[simp] theorem State.holdWith_script (s : State) (p : Progress) :
    (s.holdWith p).script = s.script := rfl

@[simp] theorem State.holdWith_rspLog (s : State) (p : Progress) :
    (s.holdWith p).rspLog = s.rspLog := rfl

@[simp] theorem State.holdWith_received (s : State) (p : Progress) :
    (s.holdWith p).received = s.received := rfl

/-! ### setArena: NODE and NNODES -/

@[simp] theorem State.setArena_freq (s : State) (arena : List Node) :
    (s.setArena arena).freq = s.freq := rfl

@[simp] theorem State.setArena_len (s : State) (arena : List Node) :
    (s.setArena arena).len = s.len := rfl

@[simp] theorem State.setArena_code (s : State) (arena : List Node) :
    (s.setArena arena).code = s.code := rfl

@[simp] theorem State.setArena_nodes (s : State) (arena : List Node) :
    (s.setArena arena).nodes = writeArena s.nodes arena := rfl

@[simp] theorem State.setArena_nnodes (s : State) (arena : List Node) :
    (s.setArena arena).nnodes = BitVec.ofNat 10 arena.length := rfl

@[simp] theorem State.setArena_mode (s : State) (arena : List Node) :
    (s.setArena arena).mode = s.mode := rfl

@[simp] theorem State.setArena_bwAcc (s : State) (arena : List Node) :
    (s.setArena arena).bwAcc = s.bwAcc := rfl

@[simp] theorem State.setArena_bwNbits (s : State) (arena : List Node) :
    (s.setArena arena).bwNbits = s.bwNbits := rfl

@[simp] theorem State.setArena_bwBitcnt (s : State) (arena : List Node) :
    (s.setArena arena).bwBitcnt = s.bwBitcnt := rfl

@[simp] theorem State.setArena_brBudget (s : State) (arena : List Node) :
    (s.setArena arena).brBudget = s.brBudget := rfl

@[simp] theorem State.setArena_brPos (s : State) (arena : List Node) :
    (s.setArena arena).brPos = s.brPos := rfl

@[simp] theorem State.setArena_brByte (s : State) (arena : List Node) :
    (s.setArena arena).brByte = s.brByte := rfl

@[simp] theorem State.setArena_brNbits (s : State) (arena : List Node) :
    (s.setArena arena).brNbits = s.brNbits := rfl

@[simp] theorem State.setArena_err (s : State) (arena : List Node) :
    (s.setArena arena).err = s.err := rfl

@[simp] theorem State.setArena_errCode (s : State) (arena : List Node) :
    (s.setArena arena).errCode = s.errCode := rfl

@[simp] theorem State.setArena_errArg (s : State) (arena : List Node) :
    (s.setArena arena).errArg = s.errArg := rfl

@[simp] theorem State.setArena_errCmd (s : State) (arena : List Node) :
    (s.setArena arena).errCmd = s.errCmd := rfl

@[simp] theorem State.setArena_inq (s : State) (arena : List Node) :
    (s.setArena arena).inq = s.inq := rfl

@[simp] theorem State.setArena_out (s : State) (arena : List Node) :
    (s.setArena arena).out = s.out := rfl

@[simp] theorem State.setArena_cmd (s : State) (arena : List Node) :
    (s.setArena arena).cmd = s.cmd := rfl

@[simp] theorem State.setArena_hold (s : State) (arena : List Node) :
    (s.setArena arena).hold = s.hold := rfl

@[simp] theorem State.setArena_rsp (s : State) (arena : List Node) :
    (s.setArena arena).rsp = s.rsp := rfl

@[simp] theorem State.setArena_script (s : State) (arena : List Node) :
    (s.setArena arena).script = s.script := rfl

@[simp] theorem State.setArena_rspLog (s : State) (arena : List Node) :
    (s.setArena arena).rspLog = s.rspLog := rfl

@[simp] theorem State.setArena_received (s : State) (arena : List Node) :
    (s.setArena arena).received = s.received := rfl

/-! ### resetState: the registers and tables -/

@[simp] theorem State.resetState_freq (s : State) :
    (s.resetState).freq = State.reset.freq := rfl

@[simp] theorem State.resetState_len (s : State) :
    (s.resetState).len = State.reset.len := rfl

@[simp] theorem State.resetState_code (s : State) :
    (s.resetState).code = State.reset.code := rfl

@[simp] theorem State.resetState_nodes (s : State) :
    (s.resetState).nodes = State.reset.nodes := rfl

@[simp] theorem State.resetState_nnodes (s : State) :
    (s.resetState).nnodes = State.reset.nnodes := rfl

@[simp] theorem State.resetState_mode (s : State) :
    (s.resetState).mode = State.reset.mode := rfl

@[simp] theorem State.resetState_bwAcc (s : State) :
    (s.resetState).bwAcc = State.reset.bwAcc := rfl

@[simp] theorem State.resetState_bwNbits (s : State) :
    (s.resetState).bwNbits = State.reset.bwNbits := rfl

@[simp] theorem State.resetState_bwBitcnt (s : State) :
    (s.resetState).bwBitcnt = State.reset.bwBitcnt := rfl

@[simp] theorem State.resetState_brBudget (s : State) :
    (s.resetState).brBudget = State.reset.brBudget := rfl

@[simp] theorem State.resetState_brPos (s : State) :
    (s.resetState).brPos = State.reset.brPos := rfl

@[simp] theorem State.resetState_brByte (s : State) :
    (s.resetState).brByte = State.reset.brByte := rfl

@[simp] theorem State.resetState_brNbits (s : State) :
    (s.resetState).brNbits = State.reset.brNbits := rfl

@[simp] theorem State.resetState_err (s : State) :
    (s.resetState).err = State.reset.err := rfl

@[simp] theorem State.resetState_errCode (s : State) :
    (s.resetState).errCode = State.reset.errCode := rfl

@[simp] theorem State.resetState_errArg (s : State) :
    (s.resetState).errArg = State.reset.errArg := rfl

@[simp] theorem State.resetState_errCmd (s : State) :
    (s.resetState).errCmd = State.reset.errCmd := rfl

@[simp] theorem State.resetState_inq (s : State) :
    (s.resetState).inq = s.inq := rfl

@[simp] theorem State.resetState_out (s : State) :
    (s.resetState).out = s.out := rfl

@[simp] theorem State.resetState_cmd (s : State) :
    (s.resetState).cmd = s.cmd := rfl

@[simp] theorem State.resetState_hold (s : State) :
    (s.resetState).hold = s.hold := rfl

@[simp] theorem State.resetState_rsp (s : State) :
    (s.resetState).rsp = s.rsp := rfl

@[simp] theorem State.resetState_script (s : State) :
    (s.resetState).script = s.script := rfl

@[simp] theorem State.resetState_rspLog (s : State) :
    (s.resetState).rspLog = s.rspLog := rfl

@[simp] theorem State.resetState_received (s : State) :
    (s.resetState).received = s.received := rfl

/-! ### hardReset: all but OUT and the host's side -/

@[simp] theorem State.hardReset_freq (s : State) :
    (s.hardReset).freq = State.reset.freq := rfl

@[simp] theorem State.hardReset_len (s : State) :
    (s.hardReset).len = State.reset.len := rfl

@[simp] theorem State.hardReset_code (s : State) :
    (s.hardReset).code = State.reset.code := rfl

@[simp] theorem State.hardReset_nodes (s : State) :
    (s.hardReset).nodes = State.reset.nodes := rfl

@[simp] theorem State.hardReset_nnodes (s : State) :
    (s.hardReset).nnodes = State.reset.nnodes := rfl

@[simp] theorem State.hardReset_mode (s : State) :
    (s.hardReset).mode = State.reset.mode := rfl

@[simp] theorem State.hardReset_bwAcc (s : State) :
    (s.hardReset).bwAcc = State.reset.bwAcc := rfl

@[simp] theorem State.hardReset_bwNbits (s : State) :
    (s.hardReset).bwNbits = State.reset.bwNbits := rfl

@[simp] theorem State.hardReset_bwBitcnt (s : State) :
    (s.hardReset).bwBitcnt = State.reset.bwBitcnt := rfl

@[simp] theorem State.hardReset_brBudget (s : State) :
    (s.hardReset).brBudget = State.reset.brBudget := rfl

@[simp] theorem State.hardReset_brPos (s : State) :
    (s.hardReset).brPos = State.reset.brPos := rfl

@[simp] theorem State.hardReset_brByte (s : State) :
    (s.hardReset).brByte = State.reset.brByte := rfl

@[simp] theorem State.hardReset_brNbits (s : State) :
    (s.hardReset).brNbits = State.reset.brNbits := rfl

@[simp] theorem State.hardReset_err (s : State) :
    (s.hardReset).err = State.reset.err := rfl

@[simp] theorem State.hardReset_errCode (s : State) :
    (s.hardReset).errCode = State.reset.errCode := rfl

@[simp] theorem State.hardReset_errArg (s : State) :
    (s.hardReset).errArg = State.reset.errArg := rfl

@[simp] theorem State.hardReset_errCmd (s : State) :
    (s.hardReset).errCmd = State.reset.errCmd := rfl

@[simp] theorem State.hardReset_inq (s : State) :
    (s.hardReset).inq = State.reset.inq := rfl

@[simp] theorem State.hardReset_out (s : State) :
    (s.hardReset).out = s.out := rfl

@[simp] theorem State.hardReset_cmd (s : State) :
    (s.hardReset).cmd = State.reset.cmd := rfl

@[simp] theorem State.hardReset_hold (s : State) :
    (s.hardReset).hold = State.reset.hold := rfl

@[simp] theorem State.hardReset_rsp (s : State) :
    (s.hardReset).rsp = State.reset.rsp := rfl

@[simp] theorem State.hardReset_script (s : State) :
    (s.hardReset).script = s.script := rfl

@[simp] theorem State.hardReset_rspLog (s : State) :
    (s.hardReset).rspLog = [] := rfl

@[simp] theorem State.hardReset_received (s : State) :
    (s.hardReset).received = [] := rfl

end Sys2Proof.Machine
end

