-- ==== Sys2Proof/Laws/Tables.lean ====
section
/-! SUPPORT. The laws of the symbol tables, and of the lists Present and Live that are read from them. -/

namespace Sys2Proof.Machine

@[simp] theorem tableGet_tableSet_self {α : Type} (t : Table α) (s : Sym) (v : α) :
    tableGet (tableSet t s v) s = v := by
  simp [tableGet, tableSet]

theorem tableGet_tableSet_ne {α : Type} (t : Table α) {s x : Sym} (v : α) (h : s ≠ x) :
    tableGet (tableSet t s v) x = tableGet t x := by
  have hn : s.toNat ≠ x.toNat := fun e => h (BitVec.eq_of_toNat_eq e)
  simp [tableGet, tableSet, hn]

theorem tableGet_tableSet {α : Type} (t : Table α) (s x : Sym) (v : α) :
    tableGet (tableSet t s v) x = if s = x then v else tableGet t x := by
  split
  · next h => subst h; simp
  · next h => exact tableGet_tableSet_ne t v h

@[simp] theorem tableGet_tableFill {α : Type} (v : α) (x : Sym) : tableGet (tableFill v) x = v := by
  simp [tableGet, tableFill]

/-- Two tables with equal entries are equal. -/
theorem table_ext {α : Type} {t u : Table α} (h : ∀ x, tableGet t x = tableGet u x) : t = u := by
  apply Vector.ext
  intro i hi
  have := h (BitVec.ofNat 8 i)
  simpa [tableGet, Nat.mod_eq_of_lt hi] using this

theorem allSyms_length : allSyms.length = 256 := by simp [allSyms]

theorem allSyms_getElem (i : Nat) (h : i < allSyms.length) : allSyms[i] = BitVec.ofNat 8 i := by
  simp [allSyms]

theorem mem_allSyms (x : Sym) : x ∈ allSyms := by
  simp only [allSyms, List.mem_map, List.mem_range]
  exact ⟨x.toNat, x.isLt, by simp⟩

/-- The symbols stand in ascending order, so each stands once. -/
theorem allSyms_pairwise : allSyms.Pairwise fun x y => x.toNat < y.toNat := by
  rw [allSyms, List.pairwise_map]
  refine List.pairwise_lt_range.imp_of_mem fun ha hb hab => ?_
  simp only [List.mem_range] at ha hb
  simp only [BitVec.toNat_ofNat]
  omega

/-- The entries of a table are its symbols, each with what the table holds for it. -/
theorem entries_eq_map {α : Type} (t : Table α) :
    entries t = allSyms.map fun s => (s, tableGet t s) := by
  apply List.ext_getElem
  · simp [entries, allSyms_length]
  · intro i h1 h2
    have hi : i < 256 := by simpa [allSyms_length] using h2
    simp [entries, allSyms_getElem, tableGet, Nat.mod_eq_of_lt hi]

theorem present_eq_filter (len : Table Byte) :
    present len = allSyms.filter fun s => tableGet len s != 0#8 := by
  simp [present, entries_eq_map, List.filter_map, Function.comp_def]

theorem live_eq_filter (freq : Table Data) :
    live freq = allSyms.filter fun s => tableGet freq s != 0#64 := by
  simp [live, entries_eq_map, List.filter_map, Function.comp_def]

theorem presentLens_eq_map (len : Table Byte) :
    presentLens len = (present len).map fun s => (tableGet len s).toNat := by
  simp [presentLens, present, entries_eq_map, List.filter_map, Function.comp_def]

theorem freqTotal_eq_sum (freq : Table Data) :
    freqTotal freq = (allSyms.map fun s => (tableGet freq s).toNat).sum := by
  simp [freqTotal, entries_eq_map, Function.comp_def]

/-- Present holds the symbols with a nonzero length (R13). -/
@[simp] theorem mem_present (len : Table Byte) (x : Sym) : x ∈ present len ↔ tableGet len x ≠ 0#8 := by
  simp [present_eq_filter, mem_allSyms]

/-- Live holds the symbols with a nonzero frequency (R13). -/
@[simp] theorem mem_live (freq : Table Data) (x : Sym) : x ∈ live freq ↔ tableGet freq x ≠ 0#64 := by
  simp [live_eq_filter, mem_allSyms]

/-- Present ascends (R13). -/
theorem present_pairwise (len : Table Byte) : (present len).Pairwise fun x y => x.toNat < y.toNat := by
  rw [present_eq_filter]; exact allSyms_pairwise.filter _

/-- Live ascends (R13). -/
theorem live_pairwise (freq : Table Data) : (live freq).Pairwise fun x y => x.toNat < y.toNat := by
  rw [live_eq_filter]; exact allSyms_pairwise.filter _

theorem present_nodup (len : Table Byte) : (present len).Nodup :=
  (present_pairwise len).imp fun h e => by subst e; exact Nat.lt_irrefl _ h

theorem live_nodup (freq : Table Data) : (live freq).Nodup :=
  (live_pairwise freq).imp fun h e => by subst e; exact Nat.lt_irrefl _ h

/-- NSYM is at most 256 (R37). -/
theorem nsym_le (len : Table Byte) : nsym len ≤ 256 := by
  rw [nsym, present_eq_filter, ← allSyms_length]; exact List.length_filter_le ..

theorem live_length_le (freq : Table Data) : (live freq).length ≤ 256 := by
  rw [live_eq_filter, ← allSyms_length]; exact List.length_filter_le ..

/-- A cleared LEN has no present symbol. -/
theorem present_tableFill_zero : present (tableFill 0#8) = [] := by
  simp [present_eq_filter]

/-- A cleared FREQ has no live symbol. -/
theorem live_tableFill_zero : live (tableFill 0#64) = [] := by
  simp [live_eq_filter]

/-- A running maximum is at least its start and every element. -/
theorem le_foldl_max (l : List Nat) (a : Nat) : a ≤ l.foldl max a ∧ ∀ x ∈ l, x ≤ l.foldl max a := by
  induction l generalizing a with
  | nil => simp
  | cons b l ih =>
    have := ih (max a b)
    refine ⟨le_trans (le_max_left ..) this.1, fun x hx => ?_⟩
    rcases List.mem_cons.mp hx with rfl | hx
    · exact le_trans (le_max_right ..) this.1
    · exact this.2 x hx

/-- A length is at most MAXLEN (R37). -/
theorem len_le_maxLen (len : Table Byte) (x : Sym) : (tableGet len x).toNat ≤ maxLen len := by
  by_cases h : tableGet len x = 0#8
  · simp [h]
  · refine (le_foldl_max (presentLens len) 0).2 _ ?_
    rw [presentLens_eq_map, List.mem_map]
    exact ⟨x, (mem_present len x).2 h, rfl⟩

/-- A running minimum is at most its start and every element. -/
theorem foldl_min_le (l : List Nat) (a : Nat) : l.foldl min a ≤ a ∧ ∀ x ∈ l, l.foldl min a ≤ x := by
  induction l generalizing a with
  | nil => simp
  | cons b l ih =>
    have := ih (min a b)
    refine ⟨le_trans this.1 (min_le_left ..), fun x hx => ?_⟩
    rcases List.mem_cons.mp hx with rfl | hx
    · exact le_trans this.1 (min_le_right ..)
    · exact this.2 x hx

/-- MINLEN is at most the length of a present symbol (R37). -/
theorem minLen_le_len (len : Table Byte) (x : Sym) (h : x ∈ present len) :
    minLen len ≤ (tableGet len x).toNat := by
  have hm : (tableGet len x).toNat ∈ presentLens len := by
    rw [presentLens_eq_map]; exact List.mem_map_of_mem h
  unfold minLen
  cases hl : presentLens len with
  | nil => simp [hl] at hm
  | cons a as =>
    rw [hl] at hm
    rcases List.mem_cons.mp hm with e | hx
    · exact le_trans (foldl_min_le as a).1 (le_of_eq e.symm)
    · exact (foldl_min_le as a).2 _ hx

/-- A running maximum is its start or one of the elements. -/
theorem foldl_max_mem (l : List Nat) (a : Nat) : l.foldl max a = a ∨ l.foldl max a ∈ l := by
  induction l generalizing a with
  | nil => simp
  | cons b l ih =>
    rcases ih (max a b) with h | h
    · rcases Nat.le_total a b with hab | hab
      · rw [Nat.max_eq_right hab] at h; exact .inr (by simp [h, Nat.max_eq_right hab])
      · exact .inl (by simpa [Nat.max_eq_left hab] using h)
    · exact .inr (by simp [h])

/-- A running minimum is its start or one of the elements. -/
theorem foldl_min_mem (l : List Nat) (a : Nat) : l.foldl min a = a ∨ l.foldl min a ∈ l := by
  induction l generalizing a with
  | nil => simp
  | cons b l ih =>
    rcases ih (min a b) with h | h
    · rcases Nat.le_total a b with hab | hab
      · exact .inl (by simpa [Nat.min_eq_left hab] using h)
      · rw [Nat.min_eq_right hab] at h; exact .inr (by simp [h, Nat.min_eq_right hab])
    · exact .inr (by simp [h])

/-- MINLEN is the length of a present symbol, where there is one (R37). -/
theorem minLen_mem (len : Table Byte) (h : present len ≠ []) :
    ∃ x ∈ present len, (tableGet len x).toNat = minLen len := by
  have hm : minLen len ∈ presentLens len := by
    have hne : presentLens len ≠ [] := by rw [presentLens_eq_map]; simpa using h
    unfold minLen
    cases hl : presentLens len with
    | nil => exact absurd hl hne
    | cons a as => rcases foldl_min_mem as a with e | e <;> simp [leastOf, e]
  rw [presentLens_eq_map] at hm
  simpa using hm

end Sys2Proof.Machine
end

