-- ==== Sys2Proof/Laws/Ops.lean ====
section
/-! SUPPORT. What each shared operation can do, once: the error-state check, error entry, the host's move, running
a command, and a step. -/

namespace Sys2Proof.Machine

/-- Outside the error state the check lets the command run (R317). -/
theorem unlessErr_of_ok {s : State} (h : s.err = false) (body : State → State) :
    s.unlessErr body = body s := by simp [State.unlessErr, h]

/-- In the error state the check rejects it (R317). -/
theorem unlessErr_of_err {s : State} (h : s.err = true) (body : State → State) :
    s.unlessErr body = s.reject := by simp [State.unlessErr, h]

/-- The first error is recorded (R316). -/
theorem raise_of_ok {s : State} (h : s.err = false) (e : ErrCode) (arg : Data) (w : Word) :
    s.raise e arg w = { s with
      err := true, errCode := e, errArg := arg, errCmd := w,
      cmd := none, hold := none, rsp := some ⟨.error, 0#64⟩ } := by
  simp [State.raise, State.respond, h]

/-- A later error leaves the error registers (R316). -/
theorem raise_of_err {s : State} (h : s.err = true) (e : ErrCode) (arg : Data) (w : Word) :
    s.raise e arg w = s.respond .error 0#64 := by simp [State.raise, h]

/-- The two things the check can lead to. -/
theorem unlessErr_cases (s : State) (body : State → State) :
    (s.err = true ∧ s.unlessErr body = s.reject) ∨ (s.err = false ∧ s.unlessErr body = body s) := by
  cases h : s.err
  · exact .inr ⟨rfl, unlessErr_of_ok h body⟩
  · exact .inl ⟨rfl, unlessErr_of_err h body⟩

@[simp] theorem execNop_eq (s : State) : exec .nop s = .next (s.respondOk 0#64) := rfl

/-- Every command has a next state: none ends in a fault or a refusal. -/
theorem exec_next (i : Instr) (s : State) : ∃ t, exec i s = .next t := by
  cases i <;> exact ⟨_, rfl⟩

/-- So has every word. -/
theorem runCommand_next (c : Command) (s : State) : ∃ t, runCommand c s = .next t := by
  unfold runCommand
  split
  · exact exec_next _ _
  · exact ⟨_, rfl⟩

/-- What running a word is: its command, or the illegal word. -/
theorem runCommand_of_instr {c : Command} {i : Instr} (h : decode c = .instr i) (s : State) :
    runCommand c s = exec i s := by simp [runCommand, h]

theorem runCommand_of_illegal {c : Command} {why : IllegalWord} (h : decode c = .illegal why) (s : State) :
    runCommand c s = .next (s.illegalWord c.word) := by simp [runCommand, h]

/-- Everything a step can do: the host moves, because there is no command or it is held; or the command runs; or
`rst_n` meets the command as it runs. -/
theorem step_cases {s t : State} (h : step s = .next t) :
    ((s.cmd = none ∨ s.held = true) ∧ t = s.hostMove) ∨
    (∃ c, s.cmd = some c ∧ s.held = false ∧ s.resetNext = none ∧ runCommand c s = .next t) ∨
    (∃ c k rest u, s.cmd = some c ∧ s.held = false ∧ s.script = .reset k :: rest ∧
      runCommand c s = .next u ∧ t = { s.abandon k u with script := rest }) := by
  unfold step at h
  split at h
  · next hc => exact .inl ⟨.inl hc, by simpa using h.symm⟩
  · next c hc =>
    split at h
    · next hh => exact .inl ⟨.inr hh, by simpa using h.symm⟩
    · next hh =>
      have hh : s.held = false := by simpa using hh
      split at h
      · next hr => exact .inr (.inl ⟨c, hc, hh, hr, h⟩)
      · next k rest hr =>
        obtain ⟨u, hu⟩ := runCommand_next c s
        refine .inr (.inr ⟨c, k, rest, u, hc, hh, ?_, hu, ?_⟩)
        · unfold State.resetNext at hr
          split at hr
          · next hs => cases hr; exact hs
          · cases hr
        · simp only [runAbandoned, hu] at h
          simpa using h.symm

/-- Everything the host's move can do (R89). -/
theorem hostMove_cases (s : State) :
    s.hostMove = s ∨
    (∃ c rest, s.script = .issue c :: rest ∧ s.cmd = none ∧ s.rsp = none ∧
      s.hostMove = { s with cmd := some c, script := rest }) ∨
    (∃ r rest, s.script = .takeResponse :: rest ∧ s.rsp = some r ∧
      s.hostMove = { s with rsp := none, rspLog := s.rspLog ++ [r], script := rest }) ∨
    (∃ b rest, s.script = .feed b :: rest ∧
      s.hostMove = { s with inq := s.inq ++ [b], script := rest }) ∨
    (∃ b bs rest, s.script = .takeOut :: rest ∧ s.out = b :: bs ∧
      s.hostMove = { s with out := bs, received := s.received ++ [b], script := rest }) ∨
    (∃ k rest, s.script = .reset k :: rest ∧ s.hostMove = { s with script := rest }.hardReset) := by
  unfold State.hostMove
  split
  · exact .inl rfl
  · next c rest hs =>
    split
    · next hr =>
      simp only [State.cmdReady, Bool.and_eq_true, Option.isNone_iff_eq_none] at hr
      exact .inr (.inl ⟨c, rest, hs, hr.1, hr.2, rfl⟩)
    · exact .inl rfl
  · next rest hs =>
    split
    · next r hr => exact .inr (.inr (.inl ⟨r, rest, hs, hr, rfl⟩))
    · exact .inl rfl
  · next b rest hs => exact .inr (.inr (.inr (.inl ⟨b, rest, hs, rfl⟩)))
  · next rest hs =>
    split
    · next b bs ho => exact .inr (.inr (.inr (.inr (.inl ⟨b, bs, rest, hs, ho, rfl⟩))))
    · exact .inl rfl
  · next k rest hs => exact .inr (.inr (.inr (.inr (.inr ⟨k, rest, hs, rfl⟩))))

end Sys2Proof.Machine
end

