-- ==== Sys2Proof/Laws/PerInstr.lean ====
section
/-! SUPPORT. For every command: its word is legal, it bears the command's opcode, and no bit its format reserves is
set (R101, R103, R105). -/

namespace Sys2Proof.Laws

/-- The row of the opcode map that a command stands in (R105). -/
def opcodeOf : Instr → BitVec 6
  | .nop => 0x00 | .clr => 0x01 | .setfreq _ _ => 0x02 | .rdfreq _ => 0x03 | .build => 0x04
  | .rdnode _ => 0x05 | .rdnfreq _ => 0x06 | .setlen _ _ => 0x07 | .gencode => 0x08 | .rdlen _ => 0x09
  | .rdcode _ => 0x0A | .rdent _ => 0x0B | .wrsym _ => 0x0C | .wrbits _ _ => 0x0D | .flush => 0x0E
  | .bwrst => 0x0F | .brstart _ => 0x10 | .rdbits _ => 0x11 | .decsym => 0x12 | .decode _ => 0x13
  | .rdreg _ => 0x14

namespace EncodingLegal

/-- The command's word has its opcode and is legal. -/
def Statement (i : Instr) : Prop := opField (encodeWord i) = opcodeOf i ∧ (encode i).wf = true

/-- A word with the opcode of a row and no bit set that the row's format reserves is legal (R103). -/
theorem of_format {i : Instr} (f : Format) (h : opField (encodeWord i) = opcodeOf i)
    (hf : Format.ofOpcode (opcodeOf i).toNat = some f) (hr : f.reservedZero (encodeWord i) = true) :
    Statement i := by
  refine ⟨h, ?_⟩
  simp only [opField] at h
  simp only [Command.wf, encode, h, hf, hr]

theorem opField_wordN (op : BitVec 6) : opField (wordN op) = op := by
  ext i hi
  interval_cases i <;> simp [opField, wordN]

theorem reserved_wordN (op : BitVec 6) :
    Format.reservedZero .n (wordN op) = true := by
  simp only [Format.reservedZero, beq_iff_eq]
  ext i hi
  simp [wordN]
  omega

theorem opField_wordS (op : BitVec 6) (sym : Byte) : opField (wordS op sym) = op := by
  ext i hi
  interval_cases i <;> simp [opField, wordS, wordN, BitVec.getLsbD_of_ge]

theorem reserved_wordS (op : BitVec 6) (sym : Byte) :
    Format.reservedZero .s (wordS op sym) = true := by
  simp only [Format.reservedZero, beq_iff_eq]
  ext i hi
  simp [wordS, wordN]
  omega

theorem opField_wordSL (op : BitVec 6) (sym len : Byte) : opField (wordSL op sym len) = op := by
  ext i hi
  interval_cases i <;> simp [opField, wordSL, wordS, wordN, BitVec.getLsbD_of_ge]

theorem reserved_wordSL (op : BitVec 6) (sym len : Byte) :
    Format.reservedZero .sl (wordSL op sym len) = true := by
  simp only [Format.reservedZero, beq_iff_eq]
  ext i hi
  simp [wordSL, wordS, wordN]
  omega

theorem opField_wordL (op : BitVec 6) (len : Byte) : opField (wordL op len) = op := by
  ext i hi
  interval_cases i <;> simp [opField, wordL, wordN, BitVec.getLsbD_of_ge]

theorem reserved_wordL (op : BitVec 6) (len : Byte) :
    Format.reservedZero .l (wordL op len) = true := by
  simp only [Format.reservedZero, Bool.and_eq_true, beq_iff_eq]
  constructor
  · ext i hi
    interval_cases i <;> simp [wordL, wordN, BitVec.getLsbD_of_ge]
  · ext i hi
    simp [wordL, wordN]
    omega

theorem opField_wordI (op : BitVec 6) (idx : NodeId) : opField (wordI op idx) = op := by
  ext i hi
  interval_cases i <;> simp [opField, wordI, wordN, BitVec.getLsbD_of_ge]

theorem reserved_wordI (op : BitVec 6) (idx : NodeId) :
    Format.reservedZero .i (wordI op idx) = true := by
  simp only [Format.reservedZero, beq_iff_eq]
  ext i hi
  simp [wordI, wordN]
  omega

theorem nop : Statement .nop :=
  of_format .n (opField_wordN _) rfl (reserved_wordN _)
theorem clr : Statement .clr :=
  of_format .n (opField_wordN _) rfl (reserved_wordN _)
theorem setfreq (sym : Sym) (count : Data) : Statement (.setfreq sym count) :=
  of_format .s (opField_wordS _ _) rfl (reserved_wordS _ _)
theorem rdfreq (sym : Sym) : Statement (.rdfreq sym) :=
  of_format .s (opField_wordS _ _) rfl (reserved_wordS _ _)
theorem build : Statement .build :=
  of_format .n (opField_wordN _) rfl (reserved_wordN _)
theorem rdnode (idx : NodeId) : Statement (.rdnode idx) :=
  of_format .i (opField_wordI _ _) rfl (reserved_wordI _ _)
theorem rdnfreq (idx : NodeId) : Statement (.rdnfreq idx) :=
  of_format .i (opField_wordI _ _) rfl (reserved_wordI _ _)
theorem setlen (sym : Sym) (len : Byte) : Statement (.setlen sym len) :=
  of_format .sl (opField_wordSL _ _ _) rfl (reserved_wordSL _ _ _)
theorem gencode : Statement .gencode :=
  of_format .n (opField_wordN _) rfl (reserved_wordN _)
theorem rdlen (sym : Sym) : Statement (.rdlen sym) :=
  of_format .s (opField_wordS _ _) rfl (reserved_wordS _ _)
theorem rdcode (sym : Sym) : Statement (.rdcode sym) :=
  of_format .s (opField_wordS _ _) rfl (reserved_wordS _ _)
theorem rdent (k : Byte) : Statement (.rdent k) :=
  of_format .s (opField_wordS _ _) rfl (reserved_wordS _ _)
theorem wrsym (sym : Sym) : Statement (.wrsym sym) :=
  of_format .s (opField_wordS _ _) rfl (reserved_wordS _ _)
theorem wrbits (len : Byte) (bits : Data) : Statement (.wrbits len bits) :=
  of_format .l (opField_wordL _ _) rfl (reserved_wordL _ _)
theorem flush : Statement .flush :=
  of_format .n (opField_wordN _) rfl (reserved_wordN _)
theorem bwrst : Statement .bwrst :=
  of_format .n (opField_wordN _) rfl (reserved_wordN _)
theorem brstart (budget : Data) : Statement (.brstart budget) :=
  of_format .n (opField_wordN _) rfl (reserved_wordN _)
theorem rdbits (len : Byte) : Statement (.rdbits len) :=
  of_format .l (opField_wordL _ _) rfl (reserved_wordL _ _)
theorem decsym : Statement .decsym :=
  of_format .n (opField_wordN _) rfl (reserved_wordN _)
theorem decode (count : Data) : Statement (.decode count) :=
  of_format .n (opField_wordN _) rfl (reserved_wordN _)
theorem rdreg (reg : Byte) : Statement (.rdreg reg) :=
  of_format .s (opField_wordS _ _) rfl (reserved_wordS _ _)

end EncodingLegal

end Sys2Proof.Laws
end

