-- ==== Sys2Proof/Laws/Streams.lean ====
section
/-! SUPPORT. Bit strings and numbers (R10), and what PUTBIT and GETBIT do to the bits of the two streams (R220,
R251). -/

namespace Sys2Proof.Machine

@[simp] theorem bitsOf_length (v l : Nat) : (bitsOf v l).length = l := by
  induction l with
  | zero => rfl
  | succ l ih => simp [bitsOf, ih]

/-- Bits at and above the length do not count. -/
theorem bitsOf_mod (v l m : Nat) (h : l ≤ m) : bitsOf (v % 2 ^ m) l = bitsOf v l := by
  induction l with
  | zero => rfl
  | succ l ih =>
    have hl : l < m := h
    simp [bitsOf, ih (Nat.le_of_succ_le h), Nat.testBit_mod_two_pow, hl]

/-- A bit that joins at the low end is the last of the string. -/
theorem bitsOf_double (v l : Nat) (b : Bool) : bitsOf (2 * v + b.toNat) (l + 1) = bitsOf v l ++ [b] := by
  induction l with
  | zero => cases b <;> simp [bitsOf, Nat.testBit_zero]
  | succ l ih =>
    rw [bitsOf, ih, bitsOf, List.cons_append]
    congr 1
    rw [Nat.testBit_succ]
    congr 1
    cases b <;> simp; omega

theorem bitsValue_append_bit (bs : List Bool) (b : Bool) :
    bitsValue (bs ++ [b]) = 2 * bitsValue bs + b.toNat := by simp [bitsValue]

/-- A bit string is the bits of the number it denotes. -/
theorem bitsOf_bitsValue (bs : List Bool) : bitsOf (bitsValue bs) bs.length = bs := by
  induction bs using List.reverseRecOn with
  | nil => rfl
  | append_singleton bs b ih =>
    rw [bitsValue_append_bit, List.length_append, List.length_singleton, bitsOf_double, ih]

theorem bitsValue_lt (bs : List Bool) : bitsValue bs < 2 ^ bs.length := by
  induction bs using List.reverseRecOn with
  | nil => simp [bitsValue]
  | append_singleton bs b ih =>
    rw [bitsValue_append_bit, List.length_append, List.length_singleton, Nat.pow_succ]
    cases b <;> simp <;> omega

/-- Bit strings of one length that denote one number are equal. -/
theorem bitsOf_inj {v w l : Nat} (hv : v < 2 ^ l) (hw : w < 2 ^ l) (h : bitsOf v l = bitsOf w l) : v = w := by
  apply Nat.eq_of_testBit_eq
  intro i
  by_cases hi : i < l
  · clear hv hw
    induction l with
    | zero => omega
    | succ l ih =>
      simp only [bitsOf, List.cons.injEq] at h
      rcases Nat.lt_succ_iff_lt_or_eq.mp hi with h' | rfl
      · exact ih h.2 h'
      · exact h.1
  · have hp : 2 ^ l ≤ 2 ^ i := Nat.pow_le_pow_right (by decide) (by omega)
    rw [Nat.testBit_lt_two_pow (lt_of_lt_of_le hv hp), Nat.testBit_lt_two_pow (lt_of_lt_of_le hw hp)]

theorem bitsValue_bitsOf {v l : Nat} (h : v < 2 ^ l) : bitsValue (bitsOf v l) = v := by
  have hlt := bitsValue_lt (bitsOf v l)
  rw [bitsOf_length] at hlt
  refine bitsOf_inj hlt h ?_
  have := bitsOf_bitsValue (bitsOf v l)
  rwa [bitsOf_length] at this

@[simp] theorem byteBits_length (b : Byte) : (byteBits b).length = 8 := by simp [byteBits]

/-- The bit PUTBIT appends is the last bit of the accumulator's `k + 1` low bits (R220). -/
theorem bitsOf_shiftIn (acc : Byte) (b : Bool) {k : Nat} (hk : k ≤ 7) :
    bitsOf ((acc <<< 1) ||| (BitVec.ofBool b).zeroExtend 8).toNat (k + 1) = bitsOf acc.toNat k ++ [b] := by
  have h : ((acc <<< 1) ||| (BitVec.ofBool b).zeroExtend 8).toNat = (2 * acc.toNat + b.toNat) % 2 ^ 8 := by
    revert acc; cases b <;> decide +kernel
  rw [h, bitsOf_mod _ _ _ (by omega), bitsOf_double]

/-- PUTBIT appends one bit to what the writer has put and counts it; nothing else changes (R220). -/
theorem putBit_spec (s : State) (b : Bool) :
    ∃ acc nbits out, s.putBit b = { s with
        bwAcc := acc, bwNbits := nbits, bwBitcnt := s.bwBitcnt + 1#64, out := s.out ++ out } ∧
      { s with bwAcc := acc, bwNbits := nbits, out := s.out ++ out }.writerBits = s.writerBits ++ [b] := by
  have hn : s.bwNbits.toNat < 8 := s.bwNbits.isLt
  unfold State.putBit
  split
  · next h =>
    have hk : s.bwNbits.toNat = 7 := by omega
    refine ⟨0#8, 0#3, [_], rfl, ?_⟩
    have := bitsOf_shiftIn s.bwAcc b (k := 7) (by omega)
    simp only [State.writerBits, List.flatMap_append, List.flatMap_singleton, byteBits, hk]
    simp only [Nat.reduceAdd] at this
    rw [this]
    simp [bitsOf]
  · next h =>
    have hk : (s.bwNbits + 1#3).toNat = s.bwNbits.toNat + 1 := by
      rw [BitVec.toNat_add]; simp; omega
    refine ⟨_, _, [], by simp; exact ⟨rfl, rfl⟩, ?_⟩
    have := bitsOf_shiftIn s.bwAcc b (k := s.bwNbits.toNat) (by omega)
    simp only [State.writerBits, List.append_nil, hk, this, List.append_assoc]

/-- GETBIT's three answers (R251): no budget left; no bit held and IN empty; or the next bit of the stream, which
leaves the rest of the stream and one bit less to read before IN runs dry. -/
theorem getBit_cases (s : State) :
    (s.getBit = .truncated ∧ s.brPos = s.brBudget) ∨
    (s.getBit = .hold ∧ s.brPos ≠ s.brBudget ∧ s.brNbits = 0#4 ∧ s.inq = []) ∨
    (∃ b byte nbits inq,
      s.getBit = .bit b { s with brPos := s.brPos + 1#64, brByte := byte, brNbits := nbits, inq := inq } ∧
      s.brPos ≠ s.brBudget ∧ inq <:+ s.inq ∧
      s.readerBits = b :: { s with brByte := byte, brNbits := nbits, inq := inq }.readerBits ∧
      s.availBits = { s with brByte := byte, brNbits := nbits, inq := inq }.availBits + 1 ∧
      (s.brNbits.toNat ≤ 8 → nbits.toNat ≤ 8)) := by
  unfold State.getBit
  split
  · next h => exact .inl ⟨rfl, h⟩
  · next hb =>
    split
    · next h0 =>
      split
      · next hi => exact .inr (.inl ⟨rfl, hb, h0, hi⟩)
      · next x rest hi =>
        refine .inr (.inr ⟨x.getLsbD 7, x, 7#4, rest, by simp [State.takeBit], hb, ?_, ?_, ?_, ?_⟩)
        · rw [hi]; exact List.suffix_cons x rest
        · simp [State.readerBits, h0, hi, byteBits, bitsOf, BitVec.getLsbD]
        · simp [State.availBits, h0, hi]; omega
        · intro _; decide
    · next h0 =>
      have hpos : 0 < s.brNbits.toNat := by
        rcases Nat.eq_zero_or_pos s.brNbits.toNat with h | h
        · exact absurd (BitVec.eq_of_toNat_eq (by simpa using h)) h0
        · exact h
      have hsub : (s.brNbits - 1#4).toNat = s.brNbits.toNat - 1 := by
        have := s.brNbits.isLt
        rw [BitVec.toNat_sub]; simp; omega
      obtain ⟨k, hk⟩ : ∃ k, s.brNbits.toNat = k + 1 := ⟨s.brNbits.toNat - 1, by omega⟩
      refine .inr (.inr ⟨s.brByte.getLsbD (s.brNbits.toNat - 1), s.brByte, s.brNbits - 1#4, s.inq, rfl, hb,
        List.suffix_refl _, ?_, ?_, ?_⟩)
      · simp [State.readerBits, hsub, hk, bitsOf, BitVec.getLsbD]
      · simp only [State.availBits, hsub]; omega
      · omega

end Sys2Proof.Machine
end

