-- ==== Sys2Proof/Laws/Reader.lean ====
section
/-! SUPPORT. The loops of the bit reader, once each: they move the reader and nothing else, they hold only where a
byte is needed and IN is empty, and their turns never run out (R251 to R253, R256). -/

namespace Sys2Proof.Machine

/-- `t` is `s` with only the reader's position, byte and count of bits changed, and bytes of IN consumed. -/
def State.ReaderMoved (s t : State) : Prop :=
  t.inq <:+ s.inq ∧ t.availBits ≤ s.availBits ∧ (s.brNbits.toNat ≤ 8 → t.brNbits.toNat ≤ 8) ∧
    t = { s with brPos := t.brPos, brByte := t.brByte, brNbits := t.brNbits, inq := t.inq }

theorem State.ReaderMoved.rfl' (s : State) : s.ReaderMoved s :=
  ⟨List.suffix_refl _, Nat.le_refl _, id, rfl⟩

theorem State.ReaderMoved.trans {s t u : State} (h : s.ReaderMoved t) (k : t.ReaderMoved u) :
    s.ReaderMoved u := by
  obtain ⟨h1, h2, h3, h4⟩ := h
  obtain ⟨k1, k2, k3, k4⟩ := k
  refine ⟨k1.trans h1, k2.trans h2, fun h => k3 (h3 h), ?_⟩
  rw [k4, h4]

/-- The reader needs a byte and IN has none (R76). -/
def State.starved (s : State) : Prop := s.brPos ≠ s.brBudget ∧ s.brNbits = 0#4 ∧ s.inq = []

/-- A bit that GETBIT yields: the reader moved, and IN runs dry one bit sooner. -/
theorem getBit_bit {s t : State} {b : Bool} (h : s.getBit = .bit b t) :
    s.ReaderMoved t ∧ s.availBits = t.availBits + 1 ∧ s.brPos ≠ s.brBudget ∧ t.brPos = s.brPos + 1#64 ∧
      s.readerBits = b :: t.readerBits := by
  rcases getBit_cases s with ⟨e, _⟩ | ⟨e, _⟩ | ⟨b', byte, nbits, inq, e, hb, hs, hr, ha, hn⟩
  · rw [e] at h; cases h
  · rw [e] at h; cases h
  · rw [e] at h
    cases h
    refine ⟨⟨hs, ?_, hn, rfl⟩, ha, hb, rfl, hr⟩
    have : s.availBits = State.availBits { s with brPos := s.brPos + 1#64, brByte := byte, brNbits := nbits, inq := inq } + 1 := ha
    omega

theorem getBit_truncated {s : State} (h : s.getBit = .truncated) : s.brPos = s.brBudget := by
  rcases getBit_cases s with ⟨_, e⟩ | ⟨e, _⟩ | ⟨_, _, _, _, e, _⟩
  · exact e
  · rw [e] at h; cases h
  · rw [e] at h; cases h

theorem getBit_hold {s : State} (h : s.getBit = .hold) : s.starved := by
  rcases getBit_cases s with ⟨e, _⟩ | ⟨_, e⟩ | ⟨_, _, _, _, e, _⟩
  · rw [e] at h; cases h
  · exact e
  · rw [e] at h; cases h

/-- Everything a run of reads can answer, in terms of the state it began in. -/
def SymRead.Ends (s : State) : SymRead → Prop
  | .truncated t => s.ReaderMoved t ∧ t.brPos = t.brBudget
  | .hold _ _ t => s.ReaderMoved t ∧ t.starved
  | .got _ t => s.ReaderMoved t

theorem SymRead.Ends.of_moved {s t : State} (h : s.ReaderMoved t) {r : SymRead} (k : r.Ends t) : r.Ends s := by
  cases r with
  | truncated u => exact ⟨h.trans k.1, k.2⟩
  | hold v l u => exact ⟨h.trans k.1, k.2⟩
  | got v u => exact h.trans k

/-- The loop of RDBITS (R252). -/
theorem readBits_ends (k v l : Nat) (s : State) : (readBits k v l s).Ends s := by
  induction k generalizing v l s with
  | zero => exact State.ReaderMoved.rfl' s
  | succ k ih =>
    unfold readBits
    split
    · next h => exact ⟨State.ReaderMoved.rfl' s, getBit_truncated h⟩
    · next h => exact ⟨State.ReaderMoved.rfl' s, getBit_hold h⟩
    · next b t h => exact .of_moved (getBit_bit h).1 (ih _ _ _)

/-- The loop of DECODE1, with as many turns as `decodeSym` gives it (R253). -/
theorem decode1_ends (fuel v l : Nat) (s : State) (hf : s.availBits < fuel) : (decode1 fuel v l s).Ends s := by
  induction fuel generalizing v l s with
  | zero => omega
  | succ fuel ih =>
    unfold decode1
    split
    · next h => exact ⟨State.ReaderMoved.rfl' s, getBit_truncated h⟩
    · next h => exact ⟨State.ReaderMoved.rfl' s, getBit_hold h⟩
    · next b t h =>
      have hb := getBit_bit h
      split
      · exact hb.1
      · exact .of_moved hb.1 (ih _ _ _ (by omega))

/-- More turns than the bits at hand change nothing: the turns never run out (R253). -/
theorem decode1_fuel (fuel fuel' v l : Nat) (s : State) (hf : s.availBits < fuel) (hf' : s.availBits < fuel') :
    decode1 fuel v l s = decode1 fuel' v l s := by
  induction fuel generalizing fuel' v l s with
  | zero => omega
  | succ fuel ih =>
    cases fuel' with
    | zero => omega
    | succ fuel' =>
      unfold decode1
      split
      · rfl
      · rfl
      · next b t h =>
        have hb := getBit_bit h
        split
        · rfl
        · exact ih fuel' _ _ _ (by omega) (by omega)

theorem decodeSym_ends (s : State) (v l : Nat) : (s.decodeSym v l).Ends s :=
  decode1_ends _ v l s (by omega)

/-- A symbol takes at least one bit (R253). -/
theorem decode1_got_lt {fuel v l x : Nat} {s t : State} (h : decode1 fuel v l s = .got x t) :
    t.availBits < s.availBits := by
  induction fuel generalizing v l s with
  | zero => simp [decode1] at h
  | succ fuel ih =>
    unfold decode1 at h
    split at h
    · cases h
    · cases h
    · next b u hb =>
      have hb := getBit_bit hb
      split at h
      · cases h; omega
      · have := ih h; omega

/-- The symbol DECODE1 answers is a present symbol. -/
theorem decode1_got_sym {fuel v l x : Nat} {s t : State} (h : decode1 fuel v l s = .got x t) :
    ∃ y, y ∈ present s.len ∧ x = y.toNat := by
  induction fuel generalizing v l s with
  | zero => simp [decode1] at h
  | succ fuel ih =>
    unfold decode1 at h
    split at h
    · cases h
    · cases h
    · next b u hb =>
      have hl : u.len = s.len := by rw [(getBit_bit hb).1.2.2.2]
      split at h
      · next y hy =>
        cases h
        rw [← hl]
        exact ⟨y, List.mem_of_find?_eq_some hy, rfl⟩
      · rw [← hl]; exact ih h

/-- The loop of DECODE answers, holds or raises with the turns that `decodeMulti` gives it: more turns change
nothing (R256). -/
theorem decodeLoop_fuel (count : Data) (fuel fuel' i v l : Nat) (s : State)
    (hf : s.availBits < fuel) (hf' : s.availBits < fuel') :
    decodeLoop count fuel i v l s = decodeLoop count fuel' i v l s := by
  induction fuel generalizing fuel' i v l s with
  | zero => omega
  | succ fuel ih =>
    cases fuel' with
    | zero => omega
    | succ fuel' =>
      unfold decodeLoop
      split
      · rfl
      · split
        · rfl
        · rfl
        · next x t h =>
          have hlt : t.availBits < s.availBits := decode1_got_lt h
          have e : (t.outPush (BitVec.ofNat 8 x)).availBits = t.availBits := rfl
          exact ih fuel' _ _ _ _ (by omega) (by omega)

/-! ### The state with bits consumed -/

@[simp] theorem State.afterBits_freq (s : State) (k : Nat) : (s.afterBits k).freq = s.freq := rfl

@[simp] theorem State.afterBits_len (s : State) (k : Nat) : (s.afterBits k).len = s.len := rfl

@[simp] theorem State.afterBits_code (s : State) (k : Nat) : (s.afterBits k).code = s.code := rfl

@[simp] theorem State.afterBits_nodes (s : State) (k : Nat) : (s.afterBits k).nodes = s.nodes := rfl

@[simp] theorem State.afterBits_nnodes (s : State) (k : Nat) : (s.afterBits k).nnodes = s.nnodes := rfl

@[simp] theorem State.afterBits_mode (s : State) (k : Nat) : (s.afterBits k).mode = s.mode := rfl

@[simp] theorem State.afterBits_bwAcc (s : State) (k : Nat) : (s.afterBits k).bwAcc = s.bwAcc := rfl

@[simp] theorem State.afterBits_bwNbits (s : State) (k : Nat) : (s.afterBits k).bwNbits = s.bwNbits := rfl

@[simp] theorem State.afterBits_bwBitcnt (s : State) (k : Nat) : (s.afterBits k).bwBitcnt = s.bwBitcnt := rfl

@[simp] theorem State.afterBits_brBudget (s : State) (k : Nat) : (s.afterBits k).brBudget = s.brBudget := rfl

@[simp] theorem State.afterBits_err (s : State) (k : Nat) : (s.afterBits k).err = s.err := rfl

@[simp] theorem State.afterBits_errCode (s : State) (k : Nat) : (s.afterBits k).errCode = s.errCode := rfl

@[simp] theorem State.afterBits_errArg (s : State) (k : Nat) : (s.afterBits k).errArg = s.errArg := rfl

@[simp] theorem State.afterBits_errCmd (s : State) (k : Nat) : (s.afterBits k).errCmd = s.errCmd := rfl

@[simp] theorem State.afterBits_out (s : State) (k : Nat) : (s.afterBits k).out = s.out := rfl

@[simp] theorem State.afterBits_cmd (s : State) (k : Nat) : (s.afterBits k).cmd = s.cmd := rfl

@[simp] theorem State.afterBits_hold (s : State) (k : Nat) : (s.afterBits k).hold = s.hold := rfl

@[simp] theorem State.afterBits_rsp (s : State) (k : Nat) : (s.afterBits k).rsp = s.rsp := rfl

@[simp] theorem State.afterBits_script (s : State) (k : Nat) : (s.afterBits k).script = s.script := rfl

@[simp] theorem State.afterBits_rspLog (s : State) (k : Nat) : (s.afterBits k).rspLog = s.rspLog := rfl

@[simp] theorem State.afterBits_received (s : State) (k : Nat) : (s.afterBits k).received = s.received := rfl

/-- Nothing consumed is nothing changed. -/
@[simp] theorem State.afterBits_zero (s : State) : s.afterBits 0 = s := by
  simp [State.afterBits, State.bytesFor]

theorem State.afterBits_brNbits (s : State) (k : Nat) :
    (s.afterBits k).brNbits.toNat = s.brNbits.toNat + 8 * s.bytesFor k - k := by
  have := s.brNbits.isLt
  simp only [State.afterBits, BitVec.toNat_ofNat]
  exact Nat.mod_eq_of_lt (by unfold State.bytesFor; omega)

/-- GETBIT's bit is one bit consumed (R251). -/
theorem getBit_afterBits {s t : State} {b : Bool} (h : s.getBit = .bit b t) : t = s.afterBits 1 := by
  unfold State.getBit at h
  split at h
  · cases h
  · split at h
    · next h0 =>
      split at h
      · cases h
      · next x rest hi =>
        cases h
        simp [State.afterBits, State.bytesFor, h0, hi]
    · next h0 =>
      have hpos : 0 < s.brNbits.toNat := by
        rcases Nat.eq_zero_or_pos s.brNbits.toNat with h | h
        · exact absurd (BitVec.eq_of_toNat_eq (by simpa using h)) h0
        · exact h
      cases h
      have hz : s.bytesFor 1 = 0 := by unfold State.bytesFor; omega
      have hn : s.brNbits - 1#4 = BitVec.ofNat 4 (s.brNbits.toNat - 1) := by
        apply BitVec.eq_of_toNat_eq
        have := s.brNbits.isLt
        rw [BitVec.toNat_sub]; simp; omega
      simp [State.afterBits, hz, hn]

/-- Bits consumed one group after another are the bits of both groups consumed, where IN holds them (R251). -/
theorem State.afterBits_add (s : State) (a b : Nat) (h : a + b ≤ s.availBits) :
    (s.afterBits a).afterBits b = s.afterBits (a + b) := by
  have ha := s.afterBits_brNbits a
  have hlt := s.brNbits.isLt
  have hb : s.bytesFor (a + b) = s.bytesFor a + (s.afterBits a).bytesFor b := by
    unfold State.bytesFor at *; rw [ha]; omega
  have hlen : s.bytesFor (a + b) ≤ s.inq.length := by
    unfold State.availBits at h; unfold State.bytesFor; omega
  have hn : (s.afterBits a).brNbits.toNat + 8 * (s.afterBits a).bytesFor b - b =
      s.brNbits.toNat + 8 * s.bytesFor (a + b) - (a + b) := by
    rw [hb, ha]; unfold State.bytesFor at *; omega
  have hbyte : ((s.inq.drop (s.bytesFor a)).take ((s.afterBits a).bytesFor b)).getLast?.getD
        ((s.inq.take (s.bytesFor a)).getLast?.getD s.brByte) =
      (s.inq.take (s.bytesFor (a + b))).getLast?.getD s.brByte := by
    rw [hb, List.take_add, List.getLast?_append]
    cases ((s.inq.drop (s.bytesFor a)).take ((s.afterBits a).bytesFor b)).getLast? <;> simp
  have hpos : s.brPos + BitVec.ofNat 64 a + BitVec.ofNat 64 b = s.brPos + BitVec.ofNat 64 (a + b) := by
    rw [BitVec.add_assoc, BitVec.ofNat_add]
  have e : (s.afterBits a).afterBits b = { s.afterBits a with
      brPos := s.brPos + BitVec.ofNat 64 a + BitVec.ofNat 64 b
      brByte := ((s.inq.drop (s.bytesFor a)).take ((s.afterBits a).bytesFor b)).getLast?.getD
        ((s.inq.take (s.bytesFor a)).getLast?.getD s.brByte)
      brNbits := BitVec.ofNat 4 ((s.afterBits a).brNbits.toNat + 8 * (s.afterBits a).bytesFor b - b)
      inq := (s.inq.drop (s.bytesFor a)).drop ((s.afterBits a).bytesFor b) } := rfl
  rw [e, hbyte, hpos, hn, List.drop_drop, ← hb]
  rfl

end Sys2Proof.Machine
end

