-- ==== Sys2Proof/Laws/Tree.lean ====
section
/-! SUPPORT. The shared operations of the code-table generator and the tree builder, once each: CANON and MATCH
(R182, R184), the priority queue and PAIR (R140, R145), and the writing of the arena (R144). -/

namespace Sys2Proof.Machine

/-- The order of CANON holds the present symbols, each once (R182). -/
theorem canonOrder_perm (len : Table Byte) : (canonOrder len).Perm (present len) :=
  List.perm_insertionSort _ _

@[simp] theorem mem_canonOrder (len : Table Byte) (x : Sym) : x ∈ canonOrder len ↔ tableGet len x ≠ 0#8 := by
  rw [(canonOrder_perm len).mem_iff, mem_present]

/-- The order of CANON ascends in (length, symbol) (R182). -/
theorem canonOrder_pairwise (len : Table Byte) : (canonOrder len).Pairwise fun x y => canonLe len x y = true := by
  have ht : Std.Total fun x y : Sym => canonLe len x y = true := ⟨fun a b => by
    simp only [canonLe, Bool.or_eq_true, decide_eq_true_eq, Bool.and_eq_true, beq_iff_eq]; omega⟩
  have hr : IsTrans Sym fun x y => canonLe len x y = true := ⟨fun a b c hab hbc => by
    simp only [canonLe, Bool.or_eq_true, decide_eq_true_eq, Bool.and_eq_true, beq_iff_eq] at *; omega⟩
  exact List.pairwise_insertionSort _ _

/-- CANON writes no entry but those of the symbols it is given. -/
theorem canonAssign_other (len : Table Byte) (x : Sym) (l : List Sym) (h : x ∉ l) (code prev : Nat)
    (tab : Table Word) : tableGet (canonAssign len code prev l tab) x = tableGet tab x := by
  induction l generalizing code prev tab with
  | nil => rfl
  | cons s rest ih =>
    simp only [List.mem_cons, not_or] at h
    rw [canonAssign, ih h.2, tableGet_tableSet_ne _ _ (fun e => h.1 e.symm)]

/-- CANON leaves the entry of an absent symbol (R182, R186). -/
theorem canonTable_absent (len : Table Byte) (tab : Table Word) (x : Sym) (h : tableGet len x = 0#8) :
    tableGet (canonTable len tab) x = tableGet tab x := by
  have hm : x ∉ canonOrder len := by simp [h]
  unfold canonTable
  split
  · rfl
  · next s rest e =>
    rw [e, List.mem_cons, not_or] at hm
    rw [canonAssign_other _ _ _ hm.2, tableGet_tableSet_ne _ _ (fun e => hm.1 e.symm)]

/-- What MATCH finds (R184). -/
theorem matchCode_some {len : Table Byte} {code : Table Word} {v l : Nat} {x : Sym}
    (h : matchCode len code v l = some x) :
    x ∈ present len ∧ (tableGet len x).toNat = l ∧ (tableGet code x).toNat = v := by
  have hp := List.find?_some h
  simp only [Bool.and_eq_true, beq_iff_eq] at hp
  exact ⟨List.mem_of_find?_eq_some h, hp.1, hp.2⟩

/-- What it means that MATCH finds nothing (R184). -/
theorem matchCode_none {len : Table Byte} {code : Table Word} {v l : Nat}
    (h : matchCode len code v l = none) (x : Sym) (hx : x ∈ present len)
    (hl : (tableGet len x).toNat = l) : (tableGet code x).toNat ≠ v := by
  have := List.find?_eq_none.mp h x hx
  simpa [hl] using this

/-- The key order is a strict total order (R140). -/
theorem keyLt_iff (a b : Key) : keyLt a b = true ↔ a.1 < b.1 ∨ (a.1 = b.1 ∧ a.2 < b.2) := by
  simp [keyLt]

/-- `minKey` is one of the keys, and no key is below it (R140). -/
theorem minKey_spec (a : Key) (q : List Key) :
    minKey a q ∈ a :: q ∧ ∀ k ∈ a :: q, keyLt k (minKey a q) = false := by
  induction q generalizing a with
  | nil => simp [minKey, keyLt]
  | cons b q ih =>
    have step : minKey a (b :: q) = minKey (if keyLt b a then b else a) q := rfl
    rw [step]
    by_cases hb : keyLt b a = true
    · simp only [hb, if_true]
      have := ih b
      refine ⟨List.mem_cons_of_mem _ this.1, fun k hk => ?_⟩
      rcases List.mem_cons.mp hk with rfl | hk
      · by_contra hc
        rw [Bool.not_eq_false, keyLt_iff] at hc
        have h2 := this.2 b (List.mem_cons_self ..)
        rw [← Bool.not_eq_true, keyLt_iff] at h2
        rw [keyLt_iff] at hb
        omega
      · exact this.2 k hk
    · simp only [hb, Bool.false_eq_true, if_false]
      have := ih a
      refine ⟨?_, fun k hk => ?_⟩
      · rcases List.mem_cons.mp this.1 with h | h
        · rw [h]; exact List.mem_cons_self ..
        · exact List.mem_cons_of_mem _ (List.mem_cons_of_mem _ h)
      · rcases List.mem_cons.mp hk with rfl | hk
        · exact this.2 _ (List.mem_cons_self ..)
        · rcases List.mem_cons.mp hk with rfl | hk
          · have h2 := this.2 a (List.mem_cons_self ..)
            rw [← Bool.not_eq_true, keyLt_iff] at h2 ⊢
            rw [keyLt_iff] at hb
            omega
          · exact this.2 k (List.mem_cons_of_mem _ hk)

/-- `min(Q)` and the rest: the queue is the two together, and no key is below the first (R145). -/
theorem extractMin_spec {q q' : List Key} {m : Key} (h : extractMin q = some (m, q')) :
    q.Perm (m :: q') ∧ ∀ k ∈ q, keyLt k m = false := by
  cases q with
  | nil => simp [extractMin] at h
  | cons a q =>
    simp only [extractMin, Option.some.injEq, Prod.mk.injEq] at h
    obtain ⟨rfl, rfl⟩ := h
    exact ⟨List.perm_cons_erase (minKey_spec a q).1, (minKey_spec a q).2⟩

theorem extractMin_isSome {q : List Key} (h : q ≠ []) : ∃ m q', extractMin q = some (m, q') := by
  cases q with
  | nil => exact absurd rfl h
  | cons a q => exact ⟨_, _, rfl⟩

theorem extractMin_length {q q' : List Key} {m : Key} (h : extractMin q = some (m, q')) :
    q.length = q'.length + 1 := by
  simpa using (extractMin_spec h).1.length_eq

/-- A turn of PAIR on a queue of two or more keys takes the two least out, and puts their node in the arena and its
key in the queue (R145). -/
theorem pairLoop_succ (j : Nat) (q : List Key) (arena : List Node) (h : 2 ≤ q.length) :
    ∃ a b q1 q2, extractMin q = some (a, q1) ∧ extractMin q1 = some (b, q2) ∧
      pairLoop (j + 1) q arena =
        pairLoop j (q2 ++ [(a.1 + b.1, arena.length)]) (arena ++ [joinNode a b]) := by
  obtain ⟨a, q1, h1⟩ := extractMin_isSome (q := q) (by rintro rfl; simp at h)
  have hl := extractMin_length h1
  obtain ⟨b, q2, h2⟩ := extractMin_isSome (q := q1) (by rintro rfl; simp at hl; omega)
  exact ⟨a, b, q1, q2, h1, h2, by rw [pairLoop]; simp [h1, h2]⟩

/-- PAIR makes one node a turn (R145). -/
theorem pairLoop_length (j : Nat) (q : List Key) (arena : List Node) (h : j < q.length) :
    (pairLoop j q arena).length = arena.length + j := by
  induction j generalizing q arena with
  | zero => rfl
  | succ j ih =>
    obtain ⟨a, b, q1, q2, h1, h2, e⟩ := pairLoop_succ j q arena (by omega)
    have l1 := extractMin_length h1
    have l2 := extractMin_length h2
    rw [e, ih _ _ (by simp; omega)]
    simp; omega

/-- PAIR keeps the nodes that are there (R145). -/
theorem pairLoop_prefix (j : Nat) (q : List Key) (arena : List Node) : arena <+: pairLoop j q arena := by
  induction j generalizing q arena with
  | zero => exact List.prefix_refl _
  | succ j ih =>
    rw [pairLoop]
    split
    · exact List.prefix_refl _
    · split
      · exact List.prefix_refl _
      · exact (List.prefix_append ..).trans (ih _ _)

@[simp] theorem leafNodes_length (freq : Table Data) : (leafNodes freq).length = (live freq).length := by
  simp [leafNodes]

@[simp] theorem leafKeys_length (leaves : List Node) : (leafKeys leaves).length = leaves.length := by
  simp [leafKeys]

/-- An arena of `n ≥ 1` leaves has `2n - 1` nodes after PAIR (R145). -/
theorem pairNodes_length (leaves : List Node) (h : leaves ≠ []) :
    (pairNodes leaves).length = 2 * leaves.length - 1 := by
  have hl : 0 < leaves.length := List.length_pos_iff.mpr h
  rw [pairNodes, pairLoop_length _ _ _ (by simp; omega)]
  omega

/-- Writing nodes from slot `i` on. -/
theorem foldl_setIfInBounds_getElem? (arena : List Node) (i : Nat) (v : Vector Node 511) (k : Nat) :
    ((arena.zipIdx i).foldl (fun v p => v.setIfInBounds p.2 p.1) v)[k]? =
      if i ≤ k ∧ k < i + arena.length ∧ k < 511 then arena[k - i]? else v[k]? := by
  induction arena generalizing i v with
  | nil => simp; omega
  | cons n arena ih =>
    simp only [List.zipIdx_cons, List.foldl_cons, ih, List.length_cons]
    by_cases h1 : i + 1 ≤ k ∧ k < i + 1 + arena.length ∧ k < 511
    · rw [if_pos h1, if_pos (by omega)]
      obtain ⟨j, rfl⟩ : ∃ j, k = i + 1 + j := ⟨k - (i + 1), by omega⟩
      rw [show i + 1 + j - (i + 1) = j by omega, show i + 1 + j - i = j + 1 by omega]
      simp
    · rw [if_neg h1]
      by_cases h2 : k = i
      · subst h2
        by_cases h3 : k < 511
        · rw [if_pos (by omega)]; simp [h3]
        · rw [if_neg (by omega)]; simp [h3]
      · rw [if_neg (by omega), Vector.getElem?_setIfInBounds_ne (by omega)]

/-- What a slot holds after an arena is written (R144). -/
theorem writeArena_getElem? (v : Vector Node 511) (arena : List Node) (k : Nat) :
    (writeArena v arena)[k]? = if k < arena.length ∧ k < 511 then arena[k]? else v[k]? := by
  have := foldl_setIfInBounds_getElem? arena 0 v k
  simpa [writeArena] using this

end Sys2Proof.Machine
end

