-- ==== Sys2Proof/Tests/Slice0.lean ====
section
/-! SUPPORT. The model's own tests: the well-formedness smoke, the decoding of words written out from the encodings
of the spec, at most two single steps per command on small states (each expected value from the rules or from file
95_test_vectors.md, named beside it), and for each statement with hypotheses a witness that meets them. -/

namespace Sys2Proof.Tests

open Sys2Proof Sys2Proof.Machine

set_option Elab.async false

/-! ### Helpers -/

/-- The state a command leads to. -/
def after (i : Instr) (s : State) : State :=
  match exec i s with
  | .next t => t
  | _ => s

/-- The state a step leads to. -/
def stepTo (s : State) : State :=
  match step s with
  | .next t => t
  | _ => s

/-- A table with a few entries set, the others at `z`. -/
def tableOf {α : Type} (z : α) (l : List (Sym × α)) : Table α := l.foldl (fun t p => tableSet t p.1 p.2) (tableFill z)

/-- FREQ of vector TB-1. -/
def freqABC : Table Data := tableOf 0#64 [(0x41#8, 5#64), (0x42#8, 3#64), (0x43#8, 2#64)]

/-- LEN of vectors TB-1 and CT-1. -/
def lenABC : Table Byte := tableOf 0#8 [(0x41#8, 1#8), (0x42#8, 2#8), (0x43#8, 2#8)]

/-- FREQ of 34 symbols with the Fibonacci numbers: the deepest leaf is at depth 33. -/
def freqFib : Table Data :=
  tableOf 0#64 ((List.range 34).map fun k => (BitVec.ofNat 8 k, BitVec.ofNat 64 (Nat.fib (k + 1))))

/-- The start of vector TB-1. -/
def freqState : State := { State.reset with freq := freqABC }

/-- The lengths of vector CT-1 before GENCODE. -/
def lenState : State := { State.reset with len := lenABC }

/-- The table of vector CT-1. -/
def multiState : State := { State.reset with len := lenABC, code := canonTable lenABC (tableFill 0#32), mode := .multi }

/-- The table of vector CT-4b: SINGLE with 'A'. -/
def singleState : State := { State.reset with len := tableOf 0#8 [(0x41#8, 1#8)], mode := .single }

/-- The table of vector CT-5: EMPTY. -/
def emptyState : State := { State.reset with mode := .empty }

/-- An error state. -/
def errState : State := { State.reset with err := true, errCode := .illegalCmd, errArg := 13#64, errCmd := 0x50340000#32 }

/-- The reader at the start of a payload, with a budget in bits. -/
def reading (s : State) (bytes : List Byte) (budget : Data) : State := { s with inq := bytes, brBudget := budget }

/-- The command on the port. -/
def issued (s : State) (i : Instr) : State := { s with cmd := some (encode i) }

/-- The state whose host does one thing next. -/
def withHost (s : State) (a : HostAction) : State := { s with script := [a] }

/-- The response of a state. -/
def answered (s : State) (st : Status) (v : Data) : Bool := decide (s.rsp = some ⟨st, v⟩)

/-- The error that a state records. -/
def recorded (s : State) (e : ErrCode) (arg : Data) (w : Word) : Bool :=
  decide (s.err = true ∧ s.errCode = e ∧ s.errArg = arg ∧ s.errCmd = w ∧ s.rsp = some ⟨.error, 0#64⟩)

theorem exec_after (i : Instr) (s : State) : exec i s = .next (after i s) := by
  obtain ⟨t, h⟩ := exec_next i s
  simp [after, h]

/-! ### Well-formedness: each check refuses an ill-formed term -/

theorem test_wf_refuses_reserved_opcode : Command.wf ⟨0x54000000#32, 0#64⟩ = false := by decide
theorem test_wf_refuses_format_n : Command.wf ⟨0x04000400#32, 0#64⟩ = false := by decide
theorem test_wf_refuses_format_s : Command.wf ⟨0x08000001#32, 0#64⟩ = false := by decide
theorem test_wf_refuses_format_sl : Command.wf ⟨0x1C000200#32, 0#64⟩ = false := by decide
theorem test_wf_refuses_format_l_high : Command.wf ⟨0x34040000#32, 0#64⟩ = false := by decide
theorem test_wf_refuses_format_l_low : Command.wf ⟨0x34000001#32, 0#64⟩ = false := by decide
theorem test_wf_refuses_format_i : Command.wf ⟨0x14010000#32, 0#64⟩ = false := by decide
theorem test_wf_accepts_all_zero : Command.wf ⟨0#32, 5#64⟩ = true := by decide
theorem test_wf_refuses_setlen_33 : Instr.wf (.setlen 0x41#8 33#8) = false := by decide
theorem test_wf_refuses_wrbits_33 : Instr.wf (.wrbits 33#8 1#64) = false := by decide
theorem test_wf_refuses_rdbits_33 : Instr.wf (.rdbits 33#8) = false := by decide
theorem test_wf_refuses_rdreg_13 : Instr.wf (.rdreg 0x0D#8) = false := by decide
theorem test_wf_accepts_bounds :
    Instr.wf (.setlen 0#8 32#8) && Instr.wf (.wrbits 32#8 0#64) && Instr.wf (.rdbits 32#8)
      && Instr.wf (.rdreg 0x0C#8) = true := by decide

/-! ### Decoding: one word of every command, written out from the encoding in its rule -/

theorem test_decode_nop : decode ⟨0x00000000#32, 9#64⟩ = .instr .nop := by decide
theorem test_decode_clr : decode ⟨0x04000000#32, 0#64⟩ = .instr .clr := by decide
theorem test_decode_setfreq : decode ⟨0x0BFC0000#32, 1#64⟩ = .instr (.setfreq 0xFF#8 1#64) := by decide
theorem test_decode_rdfreq : decode ⟨0x0D040000#32, 0#64⟩ = .instr (.rdfreq 0x41#8) := by decide
theorem test_decode_build : decode ⟨0x10000000#32, 0#64⟩ = .instr .build := by decide
theorem test_decode_rdnode : decode ⟨0x17FE0000#32, 0#64⟩ = .instr (.rdnode 511#9) := by decide
theorem test_decode_rdnfreq : decode ⟨0x18080000#32, 0#64⟩ = .instr (.rdnfreq 4#9) := by decide
theorem test_decode_setlen : decode ⟨0x1D080800#32, 0#64⟩ = .instr (.setlen 0x42#8 2#8) := by decide
theorem test_decode_gencode : decode ⟨0x20000000#32, 0#64⟩ = .instr .gencode := by decide
theorem test_decode_rdlen : decode ⟨0x250C0000#32, 0#64⟩ = .instr (.rdlen 0x43#8) := by decide
theorem test_decode_rdcode : decode ⟨0x290C0000#32, 0#64⟩ = .instr (.rdcode 0x43#8) := by decide
theorem test_decode_rdent : decode ⟨0x2C040000#32, 0#64⟩ = .instr (.rdent 1#8) := by decide
theorem test_decode_wrsym : decode ⟨0x31080000#32, 0#64⟩ = .instr (.wrsym 0x42#8) := by decide
theorem test_decode_wrbits : decode ⟨0x34000C00#32, 5#64⟩ = .instr (.wrbits 3#8 5#64) := by decide
theorem test_decode_flush : decode ⟨0x38000000#32, 0#64⟩ = .instr .flush := by decide
theorem test_decode_bwrst : decode ⟨0x3C000000#32, 0#64⟩ = .instr .bwrst := by decide
theorem test_decode_brstart : decode ⟨0x40000000#32, 16#64⟩ = .instr (.brstart 16#64) := by decide
theorem test_decode_rdbits : decode ⟨0x44003000#32, 0#64⟩ = .instr (.rdbits 12#8) := by decide
theorem test_decode_decsym : decode ⟨0x48000000#32, 0#64⟩ = .instr .decsym := by decide
theorem test_decode_decode : decode ⟨0x4C000000#32, 10#64⟩ = .instr (.decode 10#64) := by decide
theorem test_decode_rdreg : decode ⟨0x50280000#32, 0#64⟩ = .instr (.rdreg 0x0A#8) := by decide
theorem test_decode_refuses_opcode : decode ⟨0xFC000000#32, 0#64⟩ = .illegal .reservedOpcode := by decide
theorem test_decode_refuses_bit : decode ⟨0x50000001#32, 0#64⟩ = .illegal .reservedBit := by decide
theorem test_encode_setlen : encodeWord (.setlen 0x41#8 255#8) = 0x1D07FC00#32 := by decide
theorem test_encode_rdnode : encodeWord (.rdnode 256#9) = 0x16000000#32 := by decide
theorem test_encode_wrbits : encodeWord (.wrbits 33#8 1#64) = 0x34008400#32 := by decide
theorem test_decodeTableWord : decodeTableWord 32 0x1D040400 = some (.setlen 0x41#8 1#8) := by decide

/-! ### Single steps -/

/-- CTL-1. -/
theorem test_nop : answered (stepTo (State.reset.withFetchWord 32 0)) .ok 0#64 = true := by decide +kernel
/-- CTL-3: NOP in the error state. -/
theorem test_nop_in_error_state : (after .nop errState).err && answered (after .nop errState) .ok 0#64 = true := by
  decide +kernel
/-- CTL-6: OUT keeps its byte, IN is emptied, the error state is left. -/
theorem test_clr_keeps_out : (after .clr { errState with out := [0x77#8], inq := [1#8, 2#8] }).out = [0x77#8] ∧
    (after .clr { errState with out := [0x77#8], inq := [1#8, 2#8] }).inq = [] ∧
    (after .clr errState).err = false := by decide +kernel
/-- TB-11: SETFREQ drops the table and keeps the lengths. -/
theorem test_setfreq_drops_table : (after (.setfreq 0x44#8 1#64) multiState).mode = .none ∧
    (after (.setfreq 0x44#8 1#64) multiState).codeOf 0x42#8 = 0 ∧
    (after (.setfreq 0x44#8 1#64) multiState).lenOf 0x42#8 = 2 := by decide +kernel
/-- R142. -/
theorem test_rdfreq : answered (after (.rdfreq 0x41#8) freqState) .ok 5#64 = true := by decide +kernel
/-- TB-1. -/
theorem test_build_abc : answered (after .build freqState) .ok 3#64 = true ∧
    (after .build freqState).codeBits 0x42#8 = [true, false] ∧
    (after .build freqState).codeBits 0x41#8 = [false] := by decide +kernel
/-- TB-14: the leaves of frequency 2 go before the internal node of frequency 2. -/
theorem test_build_tie : (after .build { State.reset with
      freq := tableOf 0#64 [(1#8, 1#64), (2#8, 1#64), (3#8, 2#64), (4#8, 2#64)] }).nodes[5]? =
    some (Node.mk false 0#8 2#9 3#9 4#64) := by decide +kernel
/-- TB-1: RDNODE 3. -/
theorem test_rdnode : answered (after (.rdnode 3#9) (after .build freqState)) .ok 0x40400#64 = true := by decide +kernel
/-- TB-1: RDNODE 5 is past the arena. -/
theorem test_rdnode_past : answered (after (.rdnode 5#9) (after .build freqState)) .ok 0xFFFFFFFFFFFFFFFF#64 = true := by
  decide +kernel
/-- TB-1: RDNFREQ 4. -/
theorem test_rdnfreq : answered (after (.rdnfreq 4#9) (after .build freqState)) .ok 10#64 = true := by decide +kernel
/-- CT-6c. -/
theorem test_setlen_32 : answered (after (.setlen 0x41#8 32#8) State.reset) .ok 0#64 = true := by decide +kernel
/-- CT-6a. -/
theorem test_setlen_33 : recorded (after (.setlen 0x41#8 33#8) State.reset) .format 33#64 0x1D048400#32 = true := by
  decide +kernel
/-- CT-8: a step of two in length. -/
theorem test_gencode_step_of_two : (after .gencode { State.reset with
      len := tableOf 0#8 [(0x41#8, 1#8), (0x42#8, 3#8), (0x43#8, 3#8), (0x44#8, 3#8), (0x45#8, 3#8)] }).codeOf 0x42#8 =
    4 := by decide +kernel
/-- CT-3. -/
theorem test_gencode_incomplete : recorded (after .gencode { State.reset with
      len := tableOf 0#8 [(0x41#8, 2#8), (0x42#8, 2#8), (0x43#8, 2#8)] }) .format 0xC0000000#64 0x20000000#32 =
    true := by decide +kernel
/-- TB-1. -/
theorem test_rdlen : answered (after (.rdlen 0x43#8) multiState) .ok 2#64 = true := by decide +kernel
/-- TB-1. -/
theorem test_rdcode : answered (after (.rdcode 0x43#8) multiState) .ok 3#64 = true := by decide +kernel
/-- TB-1. -/
theorem test_rdent : answered (after (.rdent 1#8) multiState) .ok 0x20242#64 = true := by decide +kernel
/-- TB-1: past NSYM. -/
theorem test_rdent_past : answered (after (.rdent 3#8) multiState) .ok 0xFFFFFFFFFFFFFFFF#64 = true := by decide +kernel
/-- BW-7: the eighth bit completes 0x05. -/
theorem test_wrsym_completes_byte :
    (after (.wrsym 0x42#8) { multiState with bwAcc := 2#8, bwNbits := 7#3 }).out = [0x05#8] ∧
    (after (.wrsym 0x42#8) { multiState with bwAcc := 2#8, bwNbits := 7#3 }).bwNbits = 1#3 := by decide +kernel
/-- BW-6b. -/
theorem test_wrsym_nosym : recorded (after (.wrsym 0x44#8) multiState) .noSym 0x44#64 0x31100000#32 = true := by
  decide +kernel
/-- BW-2. -/
theorem test_wrbits_32 : (after (.wrbits 32#8 0xDEADBEEF#64) State.reset).out = [0xDE#8, 0xAD#8, 0xBE#8, 0xEF#8] := by
  decide +kernel
/-- BW-5: DATA bits above the count are ignored. -/
theorem test_wrbits_ignores_high : (after (.wrbits 3#8 0xFF#64) State.reset).bwAcc = 7#8 := by decide +kernel
/-- BW-1. -/
theorem test_flush_pads : (after .flush { State.reset with bwAcc := 5#8, bwNbits := 3#3, bwBitcnt := 3#64 }).out = [0xA0#8] ∧
    answered (after .flush { State.reset with bwAcc := 5#8, bwNbits := 3#3, bwBitcnt := 3#64 }) .ok 3#64 = true := by
  decide +kernel
/-- BW-8. -/
theorem test_bwrst : (after .bwrst { State.reset with bwAcc := 5#8, bwNbits := 3#3, bwBitcnt := 3#64 }).bwNbits = 0#3 ∧
    (after .bwrst { State.reset with bwAcc := 5#8, bwNbits := 3#3, bwBitcnt := 3#64 }).bwBitcnt = 0#64 := by
  decide +kernel
/-- BR-12: the unread bits of the byte are dropped, IN is kept. -/
theorem test_brstart_drops_bits :
    (after (.brstart 8#64) { State.reset with brByte := 0xAB#8, brNbits := 4#4, inq := [0xCD#8] }).readerBits =
      byteBits 0xCD#8 := by decide +kernel
/-- BR-1; and R251: no byte is taken before a bit of it is needed. -/
theorem test_rdbits_12 : answered (after (.rdbits 12#8) (reading State.reset [0xAB#8, 0xCD#8] 16#64)) .ok 0xABC#64 = true ∧
    (after (.rdbits 12#8) (reading State.reset [0xAB#8, 0xCD#8] 16#64)).brNbits = 4#4 ∧
    (after (.rdbits 8#8) (reading State.reset [0xAB#8, 0xCD#8] 16#64)).inq = [0xCD#8] := by decide +kernel
/-- BR-2: the budget is checked before IN is touched. -/
theorem test_rdbits_no_budget : recorded (after (.rdbits 1#8) State.reset) .truncated 0#64 0x44000400#32 = true := by
  decide +kernel
/-- BR-4. -/
theorem test_decsym_b : answered (after .decsym (reading multiState [0x80#8] 8#64)) .ok 0x42#64 = true ∧
    (after .decsym (reading multiState [0x80#8] 8#64)).brPos = 2#64 := by decide +kernel
/-- BR-13: the bit of a partial code stays consumed. -/
theorem test_decsym_truncated :
    recorded (after .decsym (reading multiState [0xC0#8] 1#64)) .truncated 0#64 0x48000000#32 = true ∧
    (after .decsym (reading multiState [0xC0#8] 1#64)).brNbits = 7#4 := by decide +kernel
/-- BR-5: "AAAAABBBCC". -/
theorem test_decode_abc : (after (.decode 10#64) (reading multiState [0x05#8, 0x5E#8] 16#64)).out =
    [0x41#8, 0x41#8, 0x41#8, 0x41#8, 0x41#8, 0x42#8, 0x42#8, 0x42#8, 0x43#8, 0x43#8] := by decide +kernel
/-- BR-6: eight symbols are out when the budget ends. -/
theorem test_decode_truncated :
    recorded (after (.decode 10#64) (reading multiState [0x05#8, 0x5E#8] 12#64)) .truncated 8#64 0x4C000000#32 = true := by
  decide +kernel
/-- TB-1: STATUS of a MULTI table. -/
theorem test_rdreg_status : answered (after (.rdreg 0#8) multiState) .ok 0x300#64 = true := by decide +kernel
/-- CTL-3: a second error keeps the first one's registers. -/
theorem test_rdreg_second_error : (after (.rdreg 0xFF#8) errState).errArg = 13#64 ∧
    answered (after (.rdreg 0xFF#8) errState) .error 0#64 = true := by decide +kernel
/-- CTL-3: an illegal word in the error state is rejected. -/
theorem test_illegal_rejected : answered (stepTo (errState.withFetchWord 32 0xFC000000)) .rejected 0#64 = true := by
  decide +kernel
/-- BR-15: DECSYM holds on an empty IN, with no response. -/
theorem test_hold : (stepTo (issued (reading multiState [] 8#64) .decsym)).held = true ∧
    (stepTo (issued (reading multiState [] 8#64) .decsym)).rsp = none := by decide +kernel
/-- BR-15: the byte comes and the held command responds with 'C'. -/
theorem test_hold_released :
    answered (after .decsym { after .decsym (reading multiState [] 8#64) with inq := [0xC0#8] }) .ok 0x43#64 = true := by
  decide +kernel
/-- R360: CLR is not accepted while a command is held. -/
theorem test_hold_blocks_clr :
    (stepTo (withHost (after .decsym (issued (reading multiState [] 8#64) .decsym)) (.issue ⟨0x04000000#32, 0#64⟩))).cmd =
      some (encode .decsym) := by decide +kernel
/-- R352: `rst_n` meets DECODE after three of its bytes; they stay in OUT. -/
theorem test_reset_abandons :
    (stepTo (withHost (issued (reading multiState [0x05#8, 0x5E#8] 16#64) (.decode 10#64)) (.reset 3))).out =
      [0x41#8, 0x41#8, 0x41#8] := by decide +kernel

/-- R364: the run ends when its one response is taken; the byte still to come and the take that finds nothing do not
matter. -/
theorem test_run_end :
    ((State.runEnd 4 { State.reset with
      script := [.issue ⟨0x53FC0000#32, 0#64⟩, .takeResponse, .takeOut, .feed 1#8] }).map fun s =>
        (s.rspLog, s.inq, s.runSucceeded, s.runInError)) = some ([⟨.error, 0#64⟩], [], false, true) := by decide +kernel
/-- R364: after `rst_n` the responses of the earlier run no longer count. -/
theorem test_run_since_reset :
    (stepTo (withHost { errState with rspLog := [⟨.error, 0#64⟩], received := [7#8] } (.reset 0))).runSucceeded = true ∧
    (stepTo (withHost { errState with rspLog := [⟨.error, 0#64⟩], received := [7#8] } (.reset 0))).received = [] := by
  decide +kernel

/-! ### Witnesses: states and operands that meet the hypotheses of each statement -/

theorem forall_sym {P : Sym → Prop} (h : ∀ x ∈ allSyms, P x) (x : Sym) : P x := h x (mem_allSyms x)

/-- The invariants hold in the state of vector CT-1, whatever its reader has before it. -/
theorem test_inv_reading (bytes : List Byte) (budget : Data) : (reading multiState bytes budget).Inv where
  noneCode h := by cases h
  emptyTable h := by cases h
  singleTable h := by cases h
  multiTable _ := ⟨⟨(by decide +kernel : 2 ≤ nsym lenABC),
    (by decide +kernel : ∀ x ∈ present lenABC, (tableGet lenABC x).toNat ≤ 32),
    (by decide +kernel : kraftSum lenABC = 2 ^ 32)⟩, rfl⟩
  absentCode x h := by
    have h0 : tableGet lenABC x = 0#8 := BitVec.eq_of_toNat_eq h
    show (tableGet (canonTable lenABC (tableFill 0#32)) x).toNat = 0
    rw [canonTable_absent _ _ _ h0]; simp
  lenBound _ := forall_sym (by decide +kernel : ∀ x ∈ allSyms, (tableGet lenABC x).toNat ≤ 32)
  writerAcc := (by decide : State.reset.bwAcc.toNat < 2 ^ State.reset.bwNbits.toNat)
  readerBits := Nat.zero_le _
  readerPos := Nat.zero_le _
  errIff := iff_of_true rfl rfl
  errClear _ := ⟨rfl, rfl⟩
  arena := Nat.zero_le _
  oneOutstanding _ := rfl
  holdOutstanding h := by cases h

/-- The invariants hold in the state of vector CT-1. -/
theorem test_inv_multi : multiState.Inv := test_inv_reading [] 0#64

/-- The invariants hold in the state of vector CT-4b with a budget. -/
theorem test_inv_single : (reading singleState [] 5#64).Inv where
  noneCode h := by cases h
  emptyTable h := by cases h
  singleTable _ := ⟨0x41#8, by decide +kernel, by decide +kernel, by decide +kernel⟩
  multiTable h := by cases h
  absentCode x _ := by
    show (tableGet (tableFill 0#32) x).toNat = 0
    simp
  lenBound _ := forall_sym (by decide +kernel : ∀ x ∈ allSyms, (reading singleState [] 5#64).lenOf x ≤ 32)
  writerAcc := by decide
  readerBits := by decide
  readerPos := by decide
  errIff := by decide
  errClear _ := ⟨rfl, rfl⟩
  arena := by decide
  oneOutstanding _ := rfl
  holdOutstanding h := by cases h

theorem test_present_multi : present multiState.len = [0x41#8, 0x42#8, 0x43#8] := by decide +kernel
theorem test_present_single : present singleState.len = [0x41#8] := by decide +kernel
theorem test_present_empty : present emptyState.len = [] := by decide +kernel
theorem test_live_three : live freqState.freq = [0x41#8, 0x42#8, 0x43#8] := by decide +kernel

theorem test_witness_EncodeOfDecode : decode ⟨0x14060000#32, 0#64⟩ = .instr (.rdnode 3#9) := by decide
theorem test_witness_DataNeverChangesDecoding :
    decode ⟨0x4C000000#32, 7#64⟩ = .instr (.decode 7#64) ∧ decode ⟨0x04000000#32, 7#64⟩ = .instr .clr := by decide
theorem test_witness_StepRunsDecodedCommand :
    (issued multiState (.wrsym 0x41#8)).cmd = some (encode (.wrsym 0x41#8)) ∧
    (issued multiState (.wrsym 0x41#8)).held = false ∧ (issued multiState (.wrsym 0x41#8)).resetNext = none ∧
    decode (encode (.wrsym 0x41#8)) = .instr (.wrsym 0x41#8) := by decide +kernel
theorem test_witness_IllegalWordRaises_ok :
    (State.reset.withFetchWord 32 0x54000000).cmd = some ⟨0x54000000#32, 0#64⟩ ∧
    (State.reset.withFetchWord 32 0x54000000).held = false ∧
    (State.reset.withFetchWord 32 0x54000000).resetNext = none ∧
    decode ⟨0x54000000#32, 0#64⟩ = .illegal .reservedOpcode ∧
    (State.reset.withFetchWord 32 0x54000000).err = false := by decide +kernel
theorem test_witness_IllegalWordRaises_error :
    (errState.withFetchWord 32 0x50000001).cmd = some ⟨0x50000001#32, 0#64⟩ ∧
    (errState.withFetchWord 32 0x50000001).held = false ∧ (errState.withFetchWord 32 0x50000001).resetNext = none ∧
    decode ⟨0x50000001#32, 0#64⟩ = .illegal .reservedBit ∧
    (errState.withFetchWord 32 0x50000001).err = true := by decide +kernel
theorem test_witness_HostActionsAtThePorts_issue :
    (withHost State.reset (.issue (encode .nop))).script = [.issue (encode .nop)] ∧
    (withHost State.reset (.issue (encode .nop))).cmd = none ∧
    (withHost State.reset (.issue (encode .nop))).rsp = none ∧
    (withHost (after .nop State.reset) (.issue (encode .nop))).cmd = none ∧
    (withHost (after .nop State.reset) (.issue (encode .nop))).rsp ≠ none := by decide +kernel
theorem test_witness_HostActionsAtThePorts_takeResponse :
    (withHost (after .nop State.reset) .takeResponse).script = [.takeResponse] ∧
    (withHost (after .nop State.reset) .takeResponse).cmd = none ∧
    (withHost (after .nop State.reset) .takeResponse).rsp = some ⟨.ok, 0#64⟩ ∧
    (withHost State.reset .takeResponse).rsp = none := by decide +kernel
theorem test_witness_HostActionsAtThePorts_streams :
    (withHost (after .decsym (issued (reading multiState [] 8#64) .decsym)) (.feed 1#8)).held = true ∧
    (withHost State.reset .takeOut).cmd = none ∧ (withHost State.reset .takeOut).out = [] ∧
    (withHost { State.reset with out := [7#8] } .takeOut).out = [7#8] := by decide +kernel
theorem test_witness_ResetPinGivesResetState_idle :
    (withHost multiState (.reset 0)).script = .reset 0 :: [] ∧ (withHost multiState (.reset 0)).cmd = none := by
  decide +kernel
theorem test_witness_ResetPinGivesResetState_command :
    (withHost (issued multiState .bwrst) (.reset 0)).script = .reset 0 :: [] ∧
    (withHost (issued multiState .bwrst) (.reset 0)).cmd = some (encode .bwrst) ∧
    (withHost (issued multiState .bwrst) (.reset 0)).held = false ∧
    runCommand (encode .bwrst) (withHost (issued multiState .bwrst) (.reset 0)) =
      .next (after .bwrst (withHost (issued multiState .bwrst) (.reset 0))) ∧
    (after .bwrst (withHost (issued multiState .bwrst) (.reset 0))).out =
      (withHost (issued multiState .bwrst) (.reset 0)).out ++ [] :=
  ⟨rfl, rfl, rfl, (runCommand_of_instr (by decide) _).trans (exec_after _ _), rfl⟩
theorem test_witness_ResetPinGivesResetState_illegal :
    runCommand ⟨0x54000000#32, 0#64⟩ State.reset = .next (State.reset.illegalWord 0x54000000#32) ∧
    (State.reset.illegalWord 0x54000000#32).out = State.reset.out ++ [] :=
  ⟨runCommand_of_illegal (why := .reservedOpcode) (by decide) _, rfl⟩
theorem test_witness_OneResponseOrHeld :
    exec (.rdbits 1#8) (reading State.reset [] 1#64) = .next (after (.rdbits 1#8) (reading State.reset [] 1#64)) ∧
    (after (.rdbits 1#8) (reading State.reset [] 1#64)).hold.isSome = true :=
  ⟨exec_after _ _, by decide +kernel⟩
theorem test_witness_OneResponseOrHeld_rdbits :
    (reading State.reset [0xAB#8] 9#64).readerBits.length < (reading State.reset [0xAB#8] 9#64).budgetLeft ∧
    (9#8 : Byte).toNat ≤ 32 ∧ (reading State.reset [0xAB#8] 9#64).readerBits.length < (9#8 : Byte).toNat := by decide
theorem test_witness_OneResponseOrHeld_decsym :
    (reading multiState [] 1#64).readerBits.length < (reading multiState [] 1#64).budgetLeft ∧
    (∀ x ∈ present (reading multiState [] 1#64).len,
      ¬ (reading multiState [] 1#64).codeBits x <+: (reading multiState [] 1#64).readerBits) := by decide +kernel
/-- "AAAAAB" and the first bit of a code, for a count of seven. -/
theorem test_witness_OneResponseOrHeld_decode :
    (reading multiState [0x05#8] 9#64).Inv ∧
    (reading multiState [0x05#8] 9#64).readerBits.length < (reading multiState [0x05#8] 9#64).budgetLeft ∧
    [0x41#8, 0x41#8, 0x41#8, 0x41#8, 0x41#8, 0x42#8].length < (7#64 : Data).toNat ∧
    (reading multiState [0x05#8] 9#64).readerBits = [0x41#8, 0x41#8, 0x41#8, 0x41#8, 0x41#8, 0x42#8].flatMap
      (reading multiState [0x05#8] 9#64).codeBits ++ [true] ∧
    (∀ x ∈ present (reading multiState [0x05#8] 9#64).len,
      ¬ (reading multiState [0x05#8] 9#64).codeBits x <+: [true]) ∧
    (∃ x ∈ present (reading multiState [0x05#8] 9#64).len,
      (7#64 : Data).toNat * (reading multiState [0x05#8] 9#64).lenOf x ≤ (reading multiState [0x05#8] 9#64).budgetLeft) :=
  ⟨test_inv_reading _ _, by decide +kernel, by decide, by decide +kernel, by decide +kernel, by decide +kernel⟩
theorem test_witness_HeldCommandContinues :
    exec (.decode 9#64) (reading multiState [0x55#8] 20#64) = .next (after (.decode 9#64) (reading multiState [0x55#8] 20#64)) ∧
    (after (.decode 9#64) (reading multiState [0x55#8] 20#64)).hold = some ⟨1, 1, 4⟩ :=
  ⟨exec_after _ _, by decide +kernel⟩
theorem test_witness_StreamsKeepTheirOrder :
    exec (.decode 10#64) (reading multiState [0x05#8, 0x5E#8] 16#64) =
      .next (after (.decode 10#64) (reading multiState [0x05#8, 0x5E#8] 16#64)) := exec_after _ _
theorem test_witness_OnlyNamedWritersChangeState :
    exec .nop multiState = .next (after .nop multiState) ∧ Instr.nop ≠ .clr ∧ (∀ sym c, Instr.nop ≠ .setfreq sym c) ∧
    Instr.nop ≠ .build ∧ (∀ sym l, Instr.nop ≠ .setlen sym l) ∧ Instr.nop ≠ .gencode ∧
    (∀ sym, Instr.nop ≠ .wrsym sym) ∧ (∀ l b, Instr.nop ≠ .wrbits l b) ∧ Instr.nop ≠ .flush ∧ Instr.nop ≠ .bwrst ∧
    (∀ l, Instr.nop ≠ .rdbits l) ∧ Instr.nop ≠ .decsym ∧ (∀ n, Instr.nop ≠ .decode n) ∧
    (∀ b, Instr.nop ≠ .brstart b) :=
  ⟨exec_after _ _, nofun, nofun, nofun, nofun, nofun, nofun, nofun, nofun, nofun, nofun, nofun, nofun, nofun⟩
theorem test_witness_DeadSlotsUnobservable :
    (∀ k : Nat, k < State.reset.nnodes.toNat →
      (Vector.replicate 511 (leafNode freqABC 0x41#8))[k]? = State.reset.nodes[k]?) ∧
    exec .build State.reset = .next (after .build State.reset) := ⟨fun _ h => absurd h (Nat.not_lt_zero _), exec_after _ _⟩
theorem test_witness_StepKeepsInvariants :
    multiState.Inv ∧ step multiState = .next multiState ∧ multiState.ErrorAnswered := ⟨test_inv_multi, rfl, nofun⟩
/-- In the error state with its response waiting. -/
theorem test_witness_StepKeepsInvariants_error :
    { errState with rsp := some ⟨.error, 0#64⟩ }.Inv ∧ { errState with rsp := some ⟨.error, 0#64⟩ }.ErrorAnswered where
  left := {
    noneCode := fun _ x => by show (tableGet (tableFill 0#32) x).toNat = 0; simp
    emptyTable := nofun
    singleTable := nofun
    multiTable := nofun
    absentCode := fun x _ => by show (tableGet (tableFill 0#32) x).toNat = 0; simp
    lenBound := nofun
    writerAcc := by decide
    readerBits := by decide
    readerPos := by decide
    errIff := by decide
    errClear := nofun
    arena := by decide
    oneOutstanding := nofun
    holdOutstanding := nofun }
  right := fun _ => ⟨⟨.error, 0#64⟩, by decide, rfl⟩
theorem test_witness_RdregReadsRegisters_last :
    [State.reset.statusWord, BitVec.ofNat 64 (nsym State.reset.len), BitVec.ofNat 64 (maxLen State.reset.len),
      BitVec.ofNat 64 (minLen State.reset.len), BitVec.ofNat 64 State.reset.nnodes.toNat, State.reset.bwBitcnt,
      BitVec.ofNat 64 State.reset.bwNbits.toNat, State.reset.brBudget, State.reset.brPos,
      BitVec.ofNat 64 State.reset.brNbits.toNat, State.reset.errArg,
      BitVec.ofNat 64 State.reset.errCmd.toNat, 0x0000000148434231#64][(0x0C#8).toNat]? =
    some 0x0000000148434231#64 := rfl
theorem test_witness_RdregReadsRegisters_none :
    0x0C < (0x0D#8 : Byte).toNat ∧ State.reset.err = false ∧ errState.err = true := by decide
theorem test_witness_RdregReadsRegisters_lengths :
    multiState.lenOf 0x43#8 ≠ 0 ∧ (∀ x ∈ allSyms, State.reset.lenOf x = 0) := by decide +kernel
theorem test_witness_ErrorStateRejects :
    errState.err = true ∧ (errState.withFetchWord 32 1).cmd = some ⟨1#32, 0#64⟩ ∧
    (errState.withFetchWord 32 1).held = false ∧ (errState.withFetchWord 32 1).resetNext = none ∧
    (1#32 : Word) &&& 0xFC03FFFF#32 ≠ 0x50000000#32 ∧ (0x53FC0000#32 : Word) &&& 0xFC03FFFF#32 = 0x50000000#32 := by
  decide +kernel
theorem test_witness_ClrGivesResetState :
    errState.err = true ∧ exec .clr errState = .next (after .clr errState) ∧ (after .clr errState).err = false :=
  ⟨rfl, exec_after _ _, rfl⟩
theorem test_witness_FirstErrorStays :
    (errState.withFetchWord 32 0x53FC0000).err = true ∧
    step (errState.withFetchWord 32 0x53FC0000) = exec (.rdreg 0xFF#8) (errState.withFetchWord 32 0x53FC0000) ∧
    (errState.withFetchWord 32 0x53FC0000).resetNext = none ∧
    (∀ c, (errState.withFetchWord 32 0x53FC0000).cmd = some c → decode c ≠ .instr .clr) :=
  ⟨rfl, rfl, rfl, fun c h => by cases h; decide⟩
theorem test_witness_CommandsRaiseOnlyTheirErrors :
    State.reset.err = false ∧ exec (.setlen 0#8 33#8) State.reset = .next (after (.setlen 0#8 33#8) State.reset) ∧
    (after (.setlen 0#8 33#8) State.reset).err = true := ⟨rfl, exec_after _ _, by decide +kernel⟩
theorem test_witness_no_error : State.reset.err = false ∧ multiState.err = false := ⟨rfl, rfl⟩
theorem test_witness_BuildRefusesOverflow :
    2 ^ 64 ≤ ((tableOf 0#64 [(0#8, 0xFFFFFFFFFFFFFFFF#64), (255#8, 1#64)] : Table Data).toList.map BitVec.toNat).sum := by
  decide +kernel
theorem test_witness_BuildOfFewSymbols_none :
    (State.reset.freq.toList.map BitVec.toNat).sum < 2 ^ 64 ∧ live State.reset.freq = [] := by decide +kernel
theorem test_witness_BuildOfFewSymbols_one :
    ((tableOf 0#64 [(0#8, 0xFFFFFFFFFFFFFFFF#64)] : Table Data).toList.map BitVec.toNat).sum < 2 ^ 64 ∧
    live (tableOf 0#64 [(0#8, 0xFFFFFFFFFFFFFFFF#64)]) = [0#8] := by decide +kernel
/-- For BuildPairsLeastKeys, BuildLengthsAreDepths, BuildOfTwoTo33Completes and BuildLengthsAreComplete. -/
theorem test_witness_BuildOfThree :
    freqState.err = false ∧ (freqState.freq.toList.map BitVec.toNat).sum < 2 ^ 64 ∧
    (live freqState.freq).length = 3 ∧ exec .build freqState = .next (after .build freqState) ∧
    (after .build freqState).err = false :=
  ⟨rfl, by decide +kernel, by decide +kernel, exec_after _ _, by decide +kernel⟩
theorem test_witness_BuildLimitsLengths_within : maxLen (after .build freqState).len = 2 := by decide +kernel
theorem test_witness_BuildLimitsLengths_above :
    (freqFib.toList.map BitVec.toNat).sum < 2 ^ 64 ∧ 2 ≤ (live freqFib).length ∧
    recorded (after .build { State.reset with freq := freqFib }) .lenOverflow 33#64 0x10000000#32 = true := by
  decide +kernel
theorem test_witness_BuildRepeatedIsSame :
    exec .build freqState = .next (after .build freqState) ∧ (after .build freqState).err = false :=
  ⟨exec_after _ _, by decide +kernel⟩
theorem test_witness_NodeReadsReturnSlot :
    (after .build freqState).err = false ∧ (after .build freqState).nnodes.toNat ≤ (5#9 : NodeId).toNat ∧
    (4#9 : NodeId).toNat < (after .build freqState).nnodes.toNat ∧
    (after .build freqState).nodes[(4#9 : NodeId).toNat]? = some (Node.mk false 0#8 0#9 3#9 10#64) := by decide +kernel
theorem test_witness_SetlenLoadsLength : (32#8 : Byte).toNat ≤ 32 ∧ 32 < (33#8 : Byte).toNat := by decide
theorem test_witness_GencodeBuildsTable_single :
    singleState.err = false ∧ present singleState.len = [0x41#8] ∧ singleState.lenOf 0x41#8 = 1 := by decide +kernel
theorem test_witness_GencodeBuildsTable_multi : lenState.err = false ∧ CompleteLens lenState.len :=
  ⟨rfl, (test_inv_multi.multiTable rfl).1⟩
theorem test_witness_GencodeRefusesLengths_one :
    present (tableOf 0#8 [(9#8, 2#8)]) = [9#8] ∧ (tableGet (tableOf 0#8 [(9#8, 2#8)]) 9#8).toNat ≠ 1 := by decide +kernel
/-- No run reaches such lengths with ERR = 0; the check is kept so the rule is total (R181). -/
theorem test_witness_GencodeRefusesLengths_long :
    2 ≤ nsym (tableOf 0#8 [(1#8, 33#8), (2#8, 33#8)]) ∧ 32 < maxLen (tableOf 0#8 [(1#8, 33#8), (2#8, 33#8)]) := by
  decide +kernel
theorem test_witness_GencodeRefusesLengths_sum :
    2 ≤ nsym (tableOf 0#8 [(1#8, 1#8), (2#8, 32#8)]) ∧ maxLen (tableOf 0#8 [(1#8, 1#8), (2#8, 32#8)]) ≤ 32 ∧
    kraftSum (tableOf 0#8 [(1#8, 1#8), (2#8, 32#8)]) ≠ 2 ^ 32 := by decide +kernel
/-- For CanonicalCodes: 'A' is first, 'B' next, 'C' last. -/
theorem test_witness_CanonicalCodes :
    multiState.Inv ∧ multiState.mode = .multi ∧ 0x41#8 ∈ present multiState.len ∧ 0x43#8 ∈ present multiState.len ∧
    (∀ y ∈ present multiState.len, ¬ canonBefore multiState y 0x41#8) ∧ canonBefore multiState 0x41#8 0x42#8 ∧
    (∀ z ∈ present multiState.len, ¬ (canonBefore multiState 0x41#8 z ∧ canonBefore multiState z 0x42#8)) ∧
    (∀ y ∈ present multiState.len, ¬ canonBefore multiState 0x43#8 y) :=
  ⟨test_inv_multi, rfl, by decide +kernel, by decide +kernel, by unfold canonBefore; decide +kernel,
    by unfold canonBefore; decide +kernel, by unfold canonBefore; decide +kernel,
    by unfold canonBefore; decide +kernel⟩
theorem test_witness_CodesPrefixFreeAndComplete :
    0x41#8 ∈ present multiState.len ∧ multiState.codeBits 0x41#8 <+: multiState.codeBits 0x41#8 ∧
    ([true, false] : List Bool).length = maxLen multiState.len :=
  ⟨by decide +kernel, List.prefix_refl _, by decide +kernel⟩
theorem test_witness_ShorterCodesAreLower :
    0x41#8 ∈ present multiState.len ∧ 0x42#8 ∈ present multiState.len ∧ canonBefore multiState 0x41#8 0x42#8 := by
  unfold canonBefore; decide +kernel
theorem test_witness_GencodeKeepsMultiTable :
    multiState.Inv ∧ multiState.err = false ∧ multiState.mode = .multi := ⟨test_inv_multi, rfl, rfl⟩
theorem test_witness_RdentReturnsEntry :
    nsym multiState.len ≤ (3#8 : Byte).toNat ∧ (present multiState.len)[(2#8 : Byte).toNat]? = some 0x43#8 := by
  decide +kernel
theorem test_witness_WrsymPutsCode :
    multiState.err = false ∧ multiState.mode ≠ .none ∧ multiState.lenOf 0x41#8 ≠ 0 := by decide +kernel
theorem test_witness_WrsymRefuses :
    lenState.err = false ∧ lenState.mode = .none ∧ multiState.mode ≠ .none ∧ multiState.lenOf 0x44#8 = 0 := by
  decide +kernel
theorem test_witness_counts : (32#8 : Byte).toNat ≤ 32 ∧ 32 < (33#8 : Byte).toNat ∧ State.reset.hold = none := by decide
theorem test_witness_FlushPadsLastByte :
    State.reset.bwNbits = 0#3 ∧ { State.reset with bwNbits := 7#3 }.bwNbits ≠ 0#3 := by decide
theorem test_witness_RdbitsReadsBits :
    (reading State.reset [1#8, 2#8, 3#8, 4#8] 32#64).err = false ∧
    (reading State.reset [1#8, 2#8, 3#8, 4#8] 32#64).hold = none ∧
    (32#8 : Byte).toNat ≤ (reading State.reset [1#8, 2#8, 3#8, 4#8] 32#64).budgetLeft ∧
    (32#8 : Byte).toNat ≤ (reading State.reset [1#8, 2#8, 3#8, 4#8] 32#64).readerBits.length := by decide
theorem test_witness_RdbitsTruncated :
    (reading State.reset [1#8] 5#64).brPos.toNat ≤ (reading State.reset [1#8] 5#64).brBudget.toNat ∧
    (reading State.reset [1#8] 5#64).budgetLeft < (6#8 : Byte).toNat ∧
    (reading State.reset [1#8] 5#64).budgetLeft ≤ (reading State.reset [1#8] 5#64).readerBits.length := by decide
theorem test_witness_DecsymDecodesSymbol :
    (reading multiState [0x80#8] 2#64).Inv ∧ (reading multiState [0x80#8] 2#64).mode = .multi ∧
    0x42#8 ∈ present (reading multiState [0x80#8] 2#64).len ∧
    (reading multiState [0x80#8] 2#64).codeBits 0x42#8 <+: (reading multiState [0x80#8] 2#64).readerBits ∧
    (reading multiState [0x80#8] 2#64).lenOf 0x42#8 ≤ (reading multiState [0x80#8] 2#64).budgetLeft :=
  ⟨test_inv_reading _ _, rfl, by decide +kernel, by decide +kernel, by decide +kernel⟩
theorem test_witness_DecsymTruncated :
    (reading multiState [0x80#8] 1#64).Inv ∧ (reading multiState [0x80#8] 1#64).mode = .multi ∧
    (reading multiState [0x80#8] 1#64).budgetLeft ≤ (reading multiState [0x80#8] 1#64).readerBits.length ∧
    (∀ x ∈ present (reading multiState [0x80#8] 1#64).len, ¬ (reading multiState [0x80#8] 1#64).codeBits x <+:
      (reading multiState [0x80#8] 1#64).readerBits.take (reading multiState [0x80#8] 1#64).budgetLeft) :=
  ⟨test_inv_reading _ _, rfl, by decide +kernel, by decide +kernel⟩
theorem test_witness_DecsymWithoutBits :
    singleState.mode = .single ∧ present singleState.len = 0x41#8 :: [] ∧ State.reset.mode = .none ∧
    emptyState.mode = .empty := by decide +kernel
theorem test_witness_DecodePushesSymbols :
    (reading multiState [0x58#8] 5#64).Inv ∧ (3#64 : Data).toNat = [0x41#8, 0x42#8, 0x43#8].length ∧
    (∀ x ∈ [0x41#8, 0x42#8, 0x43#8], x ∈ present (reading multiState [0x58#8] 5#64).len) ∧
    [0x41#8, 0x42#8, 0x43#8].flatMap (reading multiState [0x58#8] 5#64).codeBits <+:
      (reading multiState [0x58#8] 5#64).readerBits ∧
    ([0x41#8, 0x42#8, 0x43#8].flatMap (reading multiState [0x58#8] 5#64).codeBits).length ≤
      (reading multiState [0x58#8] 5#64).budgetLeft :=
  ⟨test_inv_reading _ _, by decide, by decide +kernel, by decide +kernel, by decide +kernel⟩
theorem test_witness_DecodeTruncatedInLoop :
    (reading multiState [0x58#8] 4#64).Inv ∧ [0x41#8, 0x42#8].length < (4#64 : Data).toNat ∧
    (reading multiState [0x58#8] 4#64).budgetLeft ≤ (reading multiState [0x58#8] 4#64).readerBits.length ∧
    (reading multiState [0x58#8] 4#64).readerBits.take (reading multiState [0x58#8] 4#64).budgetLeft =
      [0x41#8, 0x42#8].flatMap (reading multiState [0x58#8] 4#64).codeBits ++ [true] ∧
    (∀ x ∈ present (reading multiState [0x58#8] 4#64).len,
      ¬ (reading multiState [0x58#8] 4#64).codeBits x <+: [true]) ∧
    (∃ x ∈ present (reading multiState [0x58#8] 4#64).len, (4#64 : Data).toNat *
      (reading multiState [0x58#8] 4#64).lenOf x ≤ (reading multiState [0x58#8] 4#64).budgetLeft) :=
  ⟨test_inv_reading _ _, by decide, by decide +kernel, by decide +kernel, by decide +kernel, by decide +kernel⟩
theorem test_witness_DecodeSingleRepeatsSymbol :
    (reading singleState [] 5#64).Inv ∧ (reading singleState [] 5#64).mode = .single ∧
    (5#64 : Data).toNat ≤ (reading singleState [] 5#64).budgetLeft := ⟨test_inv_single, rfl, by decide +kernel⟩
theorem test_witness_DecodeChecksInOrder :
    State.reset.mode = .none ∧ multiState.mode ≠ .none ∧ emptyState.mode = .empty ∧ (1#64 : Data) ≠ 0#64 ∧
    (reading multiState [] 4#64).mode = .multi ∧
    (reading multiState [] 4#64).budgetLeft < (5#64 : Data).toNat * minLen multiState.len := by decide +kernel
theorem test_witness_DecodeChecksInOrder_early :
    (reading singleState [] 5#64).Inv ∧ (reading singleState [] 5#64).budgetLeft < (6#64 : Data).toNat ∧
    (reading multiState [] 4#64).Inv ∧ (∀ x ∈ present (reading multiState [] 4#64).len,
      1 ≤ (reading multiState [] 4#64).lenOf x) ∧ (reading multiState [] 4#64).budgetLeft < (5#64 : Data).toNat * 1 :=
  ⟨test_inv_single, by decide +kernel, test_inv_reading _ _, by decide +kernel, by decide +kernel⟩
theorem test_witness_RoundTrip :
    multiState.Inv ∧ multiState.err = false ∧ multiState.mode = .multi ∧ multiState.hold = none ∧
    (∀ x ∈ [0x43#8, 0x41#8], x ∈ present multiState.len) ∧ 32 * [0x43#8, 0x41#8].length + 8 < 2 ^ 64 :=
  ⟨test_inv_multi, rfl, rfl, rfl, by decide +kernel, by decide⟩
theorem test_witness_RoundTrip_single :
    (reading singleState [] 5#64).Inv ∧ (reading singleState [] 5#64).err = false ∧
    (reading singleState [] 5#64).mode = .single ∧ (reading singleState [] 5#64).hold = none ∧
    0x41#8 ∈ present (reading singleState [] 5#64).len ∧ 9 + 8 < 2 ^ 64 :=
  ⟨test_inv_single, rfl, rfl, rfl, by decide +kernel, by decide⟩
theorem test_witness_RoundTrip_empty : emptyState.err = false ∧ emptyState.mode = .empty ∧ emptyState.hold = none :=
  ⟨rfl, rfl, rfl⟩

end Sys2Proof.Tests
end

section
/-! PROOFS. The lengths that BUILD makes of PAIR and DEPTHS are a complete code (R145, R146, R150). The walk of DEPTHS
undoes the turns of PAIR one by one, and at every turn the nodes of the queue share the whole code space. -/

namespace Sys2Proof.Machine

/-- The share of the code space that a node takes by its depth. -/
def codeShare (d : List Nat) (id : Nat) : ℚ := (1 / 2) ^ d.getD id 0

/-- The nodes `ids` are the leaves of a tree of `j` internal nodes, by their depths: they fill the code space, none is
deeper than `j`, and none is the root unless it is alone. -/
structure FillsTree (d : List Nat) (ids : List Nat) (j : Nat) : Prop where
  count : ids.length = j + 1
  whole : (ids.map (codeShare d)).sum = 1
  le : ∀ k ∈ ids, d.getD k 0 ≤ j
  pos : 0 < j → ∀ k ∈ ids, 0 < d.getD k 0

theorem FillsTree.perm {d ids ids' : List Nat} {j : Nat} (h : FillsTree d ids j) (p : ids'.Perm ids) :
    FillsTree d ids' j where
  count := p.length_eq.trans h.count
  whole := (p.map _).sum_eq.trans h.whole
  le k hk := h.le k (p.mem_iff.mp hk)
  pos hj k hk := h.pos hj k (p.mem_iff.mp hk)

/-- The node `m` gives its place to two children one deeper than it. -/
theorem FillsTree.split {d ids : List Nat} {j a b m : Nat} (h : FillsTree d (ids ++ [m]) j)
    (ha : a < d.length) (hb : b < d.length) (hab : a ≠ b) (hai : a ∉ ids) (hbi : b ∉ ids) :
    FillsTree ((d.set a (d.getD m 0 + 1)).set b (d.getD m 0 + 1)) (a :: b :: ids) (j + 1) := by
  obtain ⟨hcount, hwhole, hle, hpos⟩ := h
  have hlen : ids.length = j := by simpa using hcount
  generalize hd' : (d.set a (d.getD m 0 + 1)).set b (d.getD m 0 + 1) = d'
  have ea : d'.getD a 0 = d.getD m 0 + 1 := by
    simp [← hd', List.getD_eq_getElem?_getD, hab.symm, ha]
  have eb : d'.getD b 0 = d.getD m 0 + 1 := by
    simp [← hd', List.getD_eq_getElem?_getD, hb]
  have eo : ∀ k ∈ ids, d'.getD k 0 = d.getD k 0 := fun k hk => by
    have h1 : a ≠ k := fun e => hai (e ▸ hk)
    have h2 : b ≠ k := fun e => hbi (e ▸ hk)
    simp [← hd', List.getD_eq_getElem?_getD, h1, h2]
  have hm : d.getD m 0 ≤ j := hle m (by simp)
  refine ⟨by simp [hlen], ?_, ?_, fun _ => ?_⟩
  · have hids : ids.map (codeShare d') = ids.map (codeShare d) :=
      List.map_congr_left fun k hk => by rw [codeShare, eo k hk, codeShare]
    rw [List.map_cons, List.map_cons, hids, List.sum_cons, List.sum_cons, ← hwhole]
    simp only [codeShare, ea, eb, pow_succ, List.map_append, List.map_cons, List.map_nil, List.sum_append,
      List.sum_cons, List.sum_nil]
    ring
  · simp only [List.forall_mem_cons, ea, eb]
    exact ⟨by omega, by omega, fun k hk => by rw [eo k hk]; exact (hle k (by simp [hk])).trans (by omega)⟩
  · simp only [List.forall_mem_cons, ea, eb]
    refine ⟨by omega, by omega, fun k hk => ?_⟩
    rw [eo k hk]
    exact hpos (hlen ▸ List.length_pos_of_mem hk) k (by simp [hk])

@[simp] theorem depthStep_length (arena : List Node) (d : List Nat) (id : Nat) :
    (depthStep arena d id).length = d.length := by
  unfold depthStep
  split <;> simp

@[simp] theorem foldl_depthStep_length (arena : List Node) (ids d : List Nat) :
    (ids.foldl (depthStep arena) d).length = d.length := by
  induction ids generalizing d with
  | nil => rfl
  | cons id ids ih => rw [List.foldl_cons, ih, depthStep_length]

/-- DEPTHS at a node that PAIR joined sets the depths of its two children (R146). -/
theorem depthStep_joinNode {arena : List Node} {m : Nat} {a b : Key} (d : List Nat)
    (h : arena[m]? = some (joinNode a b)) (ha : a.2 < 512) (hb : b.2 < 512) :
    depthStep arena d m = (d.set a.2 (d.getD m 0 + 1)).set b.2 (d.getD m 0 + 1) := by
  simp [depthStep, h, joinNode, Nat.mod_eq_of_lt ha, Nat.mod_eq_of_lt hb]

/-- The depths of the nodes that `j` turns of PAIR add to an arena, walked from the last down (R146). -/
def turnDepths (j : Nat) (q : List Key) (arena : List Node) : List Nat :=
  (List.range' arena.length j).reverse.foldl (depthStep (pairLoop j q arena))
    (List.replicate (arena.length + j) 0)

theorem turnDepths_length (j : Nat) (q : List Key) (arena : List Node) :
    (turnDepths j q arena).length = arena.length + j := by
  rw [turnDepths, foldl_depthStep_length, List.length_replicate]

/-- Walking the nodes of all turns is walking those after the first turn, then the first turn's (R145, R146). -/
theorem turnDepths_succ {j : Nat} {q q' : List Key} {arena : List Node} {n : Node}
    (h : pairLoop (j + 1) q arena = pairLoop j q' (arena ++ [n])) :
    turnDepths (j + 1) q arena =
      depthStep (pairLoop (j + 1) q arena) (turnDepths j q' (arena ++ [n])) arena.length := by
  have hlen : arena.length + (j + 1) = (arena ++ [n]).length + j := by simp; omega
  simp only [turnDepths, h, hlen, List.range'_succ, List.reverse_cons, List.foldl_append]
  simp

/-- The keys of a queue that PAIR works on name distinct nodes of the arena (R145). -/
def QueueOk (q : List Key) (arena : List Node) : Prop :=
  (q.map Prod.snd).Nodup ∧ ∀ k ∈ q, k.2 < arena.length

/-- The queue after a turn names distinct nodes too: the new node's id is new. -/
theorem QueueOk.next {q q2 : List Key} {a b : Key} {arena : List Node} {n : Node} {f : Nat}
    (h : QueueOk q arena) (p : q.Perm (a :: b :: q2)) :
    QueueOk (q2 ++ [(f, arena.length)]) (arena ++ [n]) := by
  obtain ⟨hnd, hlt⟩ := h
  have hnd : (a.2 :: b.2 :: q2.map Prod.snd).Nodup := (p.map Prod.snd).nodup_iff.mp hnd
  have hlt2 : ∀ k ∈ q2, k.2 < arena.length := fun k hk => hlt k (p.mem_iff.mpr (by simp [hk]))
  constructor
  · rw [List.map_append, List.nodup_append]
    refine ⟨hnd.of_cons.of_cons, by simp, ?_⟩
    simp only [List.mem_map, List.map_cons, List.map_nil, List.mem_singleton]
    rintro x ⟨k, hk, rfl⟩ y rfl
    exact (hlt2 k hk).ne
  · simp only [List.mem_append, List.mem_singleton, List.length_append, List.length_singleton]
    rintro k (hk | rfl)
    · exact Nat.lt_succ_of_lt (hlt2 k hk)
    · exact Nat.lt_succ_self _

/-- The nodes of the queue fill a tree by the depths that DEPTHS gives them, at every turn of PAIR (R145, R146). -/
theorem turnDepths_fillsTree (j : Nat) (q : List Key) (arena : List Node) (hq : q.length = j + 1)
    (hok : QueueOk q arena) (hN : arena.length + j ≤ 512) :
    FillsTree (turnDepths j q arena) (q.map Prod.snd) j := by
  induction j generalizing q arena with
  | zero =>
    obtain ⟨k, rfl⟩ := List.length_eq_one_iff.mp hq
    have hd : (turnDepths 0 [k] arena).getD k.2 0 = 0 := by
      simp only [turnDepths, List.range'_zero, List.reverse_nil, List.foldl_nil, List.getD_eq_getElem?_getD,
        List.getElem?_replicate]
      split <;> rfl
    refine ⟨rfl, ?_, ?_, by simp⟩
    · rw [List.map_singleton, List.map_singleton, List.sum_singleton, codeShare, hd, pow_zero]
    · rw [List.map_singleton, List.forall_mem_singleton, hd]
  | succ j ih =>
    obtain ⟨a, b, q1, q2, h1, h2, e⟩ := pairLoop_succ j q arena (by omega)
    have p : q.Perm (a :: b :: q2) := (extractMin_spec h1).1.trans ((extractMin_spec h2).1.cons a)
    have hrec := ih (q2 ++ [(a.1 + b.1, arena.length)]) (arena ++ [joinNode a b])
      (by have := p.length_eq; simp at this ⊢; omega) (hok.next p) (by simp; omega)
    rw [List.map_append, List.map_singleton] at hrec
    obtain ⟨hnd, hlt⟩ := hok
    have hnd : (a.2 :: b.2 :: q2.map Prod.snd).Nodup := (p.map Prod.snd).nodup_iff.mp hnd
    obtain ⟨hna, hnb⟩ := List.nodup_cons.mp hnd
    obtain ⟨hnb, -⟩ := List.nodup_cons.mp hnb
    rw [List.mem_cons, not_or] at hna
    have ha : a.2 < arena.length := hlt a (p.mem_iff.mpr (by simp))
    have hb : b.2 < arena.length := hlt b (p.mem_iff.mpr (by simp))
    have hnode : (pairLoop (j + 1) q arena)[arena.length]? = some (joinNode a b) := by
      obtain ⟨later, hl⟩ := pairLoop_prefix j (q2 ++ [(a.1 + b.1, arena.length)]) (arena ++ [joinNode a b])
      simp [e, ← hl]
    rw [turnDepths_succ e, depthStep_joinNode _ hnode (by omega) (by omega)]
    refine FillsTree.perm (hrec.split ?_ ?_ hna.1 hna.2 hnb) (p.map Prod.snd)
    · rw [turnDepths_length, List.length_append]; omega
    · rw [turnDepths_length, List.length_append]; omega

theorem leafKeys_ids (leaves : List Node) : (leafKeys leaves).map Prod.snd = List.range leaves.length := by
  apply List.ext_getElem <;> simp [leafKeys]

/-- The leaves of the tree that BUILD makes fill it, by the depths of DEPTHS (R145, R146). -/
theorem nodeDepths_fillsTree (leaves : List Node) (h0 : leaves ≠ []) (hn : leaves.length ≤ 256) :
    FillsTree (nodeDepths leaves.length (pairNodes leaves)) (List.range leaves.length) (leaves.length - 1) := by
  have hpos : 0 < leaves.length := List.length_pos_iff.mpr h0
  have hok : QueueOk (leafKeys leaves) leaves := by
    refine ⟨by rw [leafKeys_ids]; exact List.nodup_range, fun k hk => ?_⟩
    have := List.mem_map_of_mem (f := Prod.snd) hk
    rwa [leafKeys_ids, List.mem_range] at this
  have h := turnDepths_fillsTree (leaves.length - 1) (leafKeys leaves) leaves (by simp; omega) hok (by omega)
  rw [leafKeys_ids] at h
  rwa [nodeDepths, show 2 * leaves.length - 1 = leaves.length + (leaves.length - 1) by omega]

theorem nodeDepths_length (n : Nat) (arena : List Node) : (nodeDepths n arena).length = 2 * n - 1 := by
  rw [nodeDepths, foldl_depthStep_length, List.length_replicate]

/-! ### LEN from the depths -/

/-- The loop that enters the depths leaves the symbols it is not given. -/
theorem foldl_tableSet_other (syms : List Sym) (ds : List Nat) (t : Table Byte) (x : Sym) (hx : x ∉ syms) :
    tableGet ((syms.zip ds).foldl (fun t p => tableSet t p.1 (BitVec.ofNat 8 p.2)) t) x = tableGet t x := by
  induction syms generalizing ds t with
  | nil => rfl
  | cons s syms ih =>
    cases ds with
    | nil => rfl
    | cons d ds =>
      rw [List.mem_cons, not_or] at hx
      rw [List.zip_cons_cons, List.foldl_cons, ih _ _ hx.2, tableGet_tableSet_ne _ _ (Ne.symm hx.1)]

/-- The loop that enters the depths gives the symbols theirs, in order. -/
theorem foldl_tableSet_self (syms : List Sym) (ds : List Nat) (t : Table Byte) (hs : syms.Nodup)
    (hl : syms.length ≤ ds.length) :
    syms.map (tableGet ((syms.zip ds).foldl (fun t p => tableSet t p.1 (BitVec.ofNat 8 p.2)) t)) =
      (ds.take syms.length).map (BitVec.ofNat 8) := by
  induction syms generalizing ds t with
  | nil => rfl
  | cons s syms ih =>
    cases ds with
    | nil => simp at hl
    | cons d ds =>
      obtain ⟨hn, hs⟩ := List.nodup_cons.mp hs
      simp only [List.length_cons, Nat.add_le_add_iff_right] at hl
      simp only [List.zip_cons_cons, List.foldl_cons, List.map_cons, List.length_cons, List.take_succ_cons]
      rw [ih _ _ hs hl, foldl_tableSet_other _ _ _ _ hn, tableGet_tableSet_self]

theorem tableGet_depthLens_of_not_mem {syms : List Sym} (ds : List Nat) {x : Sym} (hx : x ∉ syms) :
    tableGet (depthLens syms ds) x = 0#8 := by
  rw [depthLens, foldl_tableSet_other _ _ _ _ hx, tableGet_tableFill]

/-- The lengths of the symbols as numbers are the first depths, when these fit a byte (R146). -/
theorem map_toNat_depthLens {syms : List Sym} {ds : List Nat} (hs : syms.Nodup) (hl : syms.length ≤ ds.length)
    (hb : ∀ k ∈ List.range syms.length, ds.getD k 0 ≤ 255) :
    syms.map (fun x => (tableGet (depthLens syms ds) x).toNat) = (List.range syms.length).map (ds.getD · 0) := by
  have h := congrArg (List.map BitVec.toNat) (foldl_tableSet_self syms ds (tableFill 0#8) hs hl)
  rw [List.map_map] at h
  refine h.trans (List.ext_getElem (by simp [hl]) fun i h1 h2 => ?_)
  have hi : i < syms.length := by simpa using h2
  have := hb i (List.mem_range.mpr hi)
  simp only [List.getD_eq_getElem?_getD] at this
  have hg : ds[i]? = some ds[i] := List.getElem?_eq_getElem (by omega)
  simp only [hg, Option.getD_some] at this
  simp [hg]
  omega

/-- The lengths BUILD gives the live symbols (R144 to R146). -/
def treeLens (freq : Table Data) : Table Byte :=
  depthLens (live freq) (nodeDepths (live freq).length (pairNodes (leafNodes freq)))

/-- The depths that BUILD makes of two or more live symbols (R146). -/
theorem treeDepths_fillsTree (freq : Table Data) (h2 : 2 ≤ (live freq).length) :
    FillsTree (nodeDepths (live freq).length (pairNodes (leafNodes freq))) (List.range (live freq).length)
      ((live freq).length - 1) := by
  have h := nodeDepths_fillsTree (leafNodes freq)
    (List.ne_nil_of_length_pos (by rw [leafNodes_length]; omega))
    (by rw [leafNodes_length]; exact live_length_le freq)
  rwa [leafNodes_length] at h

/-- The live symbols' lengths are the depths of their leaves (R146). -/
theorem map_toNat_treeLens (freq : Table Data) (h2 : 2 ≤ (live freq).length) :
    (live freq).map (fun x => (tableGet (treeLens freq) x).toNat) =
      (List.range (live freq).length).map
        ((nodeDepths (live freq).length (pairNodes (leafNodes freq))).getD · 0) := by
  refine map_toNat_depthLens (live_nodup freq) (by rw [nodeDepths_length]; omega) fun k hk => ?_
  have := (treeDepths_fillsTree freq h2).le k hk
  have := live_length_le freq
  omega

/-- The symbols with a length after BUILD are the live ones (R144). -/
theorem present_treeLens (freq : Table Data) (h2 : 2 ≤ (live freq).length) :
    present (treeLens freq) = live freq := by
  rw [present_eq_filter, live_eq_filter]
  refine List.filter_congr fun x _ => ?_
  by_cases hx : x ∈ live freq
  · have hm : (tableGet (treeLens freq) x).toNat ∈
        (live freq).map fun x => (tableGet (treeLens freq) x).toNat := List.mem_map_of_mem hx
    rw [map_toNat_treeLens freq h2, List.mem_map] at hm
    obtain ⟨k, hk, e⟩ := hm
    have hpos := (treeDepths_fillsTree freq h2).pos (by omega) k hk
    have hne : tableGet (treeLens freq) x ≠ 0#8 := fun h => by
      rw [h] at e; exact hpos.ne' e
    rw [bne_iff_ne.mpr hne, bne_iff_ne.mpr ((mem_live freq x).mp hx)]
  · have h0 : tableGet freq x = 0#64 := by simpa using hx
    simp [treeLens, tableGet_depthLens_of_not_mem _ hx, h0]

/-- Shares of the code space that add up to the whole of it are a Kraft sum of `2 ^ 32`, when no length is above 32
(R181). -/
theorem kraft_sum_of_shares (ls : List Nat) (h32 : ∀ l ∈ ls, l ≤ 32)
    (h : (ls.map fun l => (1 / 2 : ℚ) ^ l).sum = 1) : (ls.map fun l => 2 ^ (32 - l)).sum = 2 ^ 32 := by
  have hterm : ∀ l ∈ ls, (2 : ℚ) ^ (32 - l) = 2 ^ 32 * (1 / 2) ^ l := fun l hl => by
    rw [pow_sub₀ _ two_ne_zero (h32 l hl), one_div, inv_pow]
  have hq : (((ls.map fun l => 2 ^ (32 - l)).sum : Nat) : ℚ) = 2 ^ 32 := by
    rw [Nat.cast_list_sum, List.map_map]
    simp only [Function.comp_def, Nat.cast_pow, Nat.cast_ofNat]
    rw [List.map_congr_left hterm, List.sum_map_mul_left, h, mul_one]
  exact_mod_cast hq

/-- BUILD's lengths are a complete code, when none is above 32 (R150, R181). -/
theorem treeLens_complete (freq : Table Data) (h2 : 2 ≤ (live freq).length) (h32 : maxLen (treeLens freq) ≤ 32) :
    CompleteLens (treeLens freq) := by
  have hle : ∀ x, (tableGet (treeLens freq) x).toNat ≤ 32 := fun x => (len_le_maxLen _ x).trans h32
  refine ⟨by rw [nsym, present_treeLens freq h2]; exact h2, fun x _ => hle x, ?_⟩
  have hlens : presentLens (treeLens freq) = (live freq).map fun x => (tableGet (treeLens freq) x).toNat := by
    rw [presentLens_eq_map, present_treeLens freq h2]
  refine kraft_sum_of_shares _ (fun l hl => ?_) ?_
  · rw [hlens, List.mem_map] at hl
    obtain ⟨x, -, rfl⟩ := hl
    exact hle x
  · rw [hlens, map_toNat_treeLens freq h2, List.map_map]
    exact (treeDepths_fillsTree freq h2).whole

end Sys2Proof.Machine
end

section
/-! PROOFS. Everything a command can do, once: how it stops, what it has changed before that, and under which
condition on its operands and tables. The frames, the invariants and the error registers are read off from it. -/

namespace Sys2Proof.Machine

/-- How a command that has brought the block to `u` stops: with an OK response, with an error, or held on an empty
IN (R104, R316, R76). -/
inductive State.Stops (u : State) : State → Prop
  | ok (v : Data) : u.Stops (u.respondOk v)
  | raised (e : ErrCode) (arg : Data) (w : Word) (he : e ≠ .none) : u.Stops (u.raise e arg w)
  | held (p : Progress) : u.Stops (u.holdWith p)

/-- Stopping changes the error registers and the ports at most. -/
theorem State.Stops.frame {u t : State} (h : u.Stops t) : ∃ err errCode errArg errCmd cmd hold rsp,
    t = { u with err := err, errCode := errCode, errArg := errArg, errCmd := errCmd, cmd := cmd, hold := hold,
                 rsp := rsp } := by
  cases h with
  | ok v => exact ⟨_, _, _, _, _, _, _, rfl⟩
  | raised e arg w he =>
    cases hu : u.err
    · rw [raise_of_ok hu]; exact ⟨_, _, _, _, _, _, _, rfl⟩
    · rw [raise_of_err hu]; exact ⟨_, _, _, _, _, _, _, rfl⟩
  | held p => exact ⟨_, _, _, _, _, _, _, rfl⟩

/-- A command that begins outside the error state and ends in it has the response ERROR (R316). -/
theorem State.Stops.error_answered {u t : State} (h : u.Stops t) (hu : u.err = false) (ht : t.err = true) :
    t.rsp = some ⟨.error, 0#64⟩ := by
  cases h with
  | ok v => simp [hu] at ht
  | raised e arg w he => exact State.raise_rsp ..
  | held p => simp [hu] at ht

/-- How a command stops does not depend on the tables. -/
theorem State.Stops.before_tables {s t : State} {mode : Mode} {len : Table Byte} {code : Table Word}
    {nodes : Vector Node 511} {nnodes : BitVec 10}
    (h : { s with mode := mode, len := len, code := code, nodes := nodes, nnodes := nnodes }.Stops t) :
    ∃ u, s.Stops u ∧
      t = { u with mode := mode, len := len, code := code, nodes := nodes, nnodes := nnodes } := by
  cases h with
  | ok v => exact ⟨_, .ok v, rfl⟩
  | raised e arg w he =>
    refine ⟨_, .raised e arg w he, ?_⟩
    simp only [State.raise]
    split <;> rfl
  | held p => exact ⟨_, .held p, rfl⟩

/-! ### The reader -/

/-- What RDBITS, DECSYM and DECODE do before they stop: bits are consumed, within the budget, and bytes are pushed;
nothing else changes (R251, R256). -/
structure State.ReaderRan (s u : State) : Prop where
  pos : s.brPos.toNat ≤ s.brBudget.toNat → u.brPos.toNat ≤ u.brBudget.toNat
  nbits : s.brNbits.toNat ≤ 8 → u.brNbits.toNat ≤ 8
  inq : u.inq <:+ s.inq
  out : s.out <+: u.out
  frame : u = { s with brPos := u.brPos, brByte := u.brByte, brNbits := u.brNbits, inq := u.inq, out := u.out }

theorem State.ReaderRan.refl (s : State) : s.ReaderRan s :=
  ⟨id, id, List.suffix_refl _, List.prefix_refl _, rfl⟩

theorem State.ReaderRan.getBit {s u u' : State} {b : Bool} (h : s.ReaderRan u) (hb : u.getBit = .bit b u') :
    s.ReaderRan u' := by
  obtain ⟨hpos, hn, hin, hout, hframe⟩ := h
  obtain ⟨⟨hin', -, hn', hframe'⟩, -, hne, hpos', -⟩ := getBit_bit hb
  have hbudget : u'.brBudget = u.brBudget := by rw [hframe']
  have hout' : u'.out = u.out := by rw [hframe']
  refine ⟨fun hs => ?_, fun hs => hn' (hn hs), hin'.trans hin, hout' ▸ hout, ?_⟩
  · have hlt : u.brPos.toNat < u.brBudget.toNat :=
      lt_of_le_of_ne (hpos hs) fun e => hne (BitVec.eq_of_toNat_eq e)
    have := u.brBudget.isLt
    rw [hbudget, hpos', BitVec.toNat_add]
    simp
    omega
  · rw [hframe', hframe]

theorem State.ReaderRan.pushAll {s u : State} (h : s.ReaderRan u) (bs : List Byte) :
    s.ReaderRan { u with out := u.out ++ bs } := by
  obtain ⟨hpos, hn, hin, hout, hframe⟩ := h
  exact ⟨hpos, hn, hin, hout.trans (List.prefix_append ..), by rw [hframe]⟩

/-- A fact about states that every bit read by GETBIT keeps. -/
def KeptByGetBit (P : State → Prop) : Prop := ∀ s b t, P s → s.getBit = .bit b t → P t

/-- The state that a run of reads leaves meets `P`. -/
def SymRead.Leaves (P : State → Prop) : SymRead → Prop
  | .truncated t => P t
  | .hold _ _ t => P t
  | .got _ t => P t

theorem readBits_leaves {P : State → Prop} (hP : KeptByGetBit P) (k v l : Nat) (s : State) (h : P s) :
    (readBits k v l s).Leaves P := by
  induction k generalizing v l s with
  | zero => exact h
  | succ k ih =>
    unfold readBits
    split
    · exact h
    · exact h
    · next b t hb => exact ih _ _ _ (hP _ _ _ h hb)

theorem decode1_leaves {P : State → Prop} (hP : KeptByGetBit P) (fuel v l : Nat) (s : State) (h : P s) :
    (decode1 fuel v l s).Leaves P := by
  induction fuel generalizing v l s with
  | zero => exact h
  | succ fuel ih =>
    unfold decode1
    split
    · exact h
    · exact h
    · next b t hb =>
      have ht := hP _ _ _ h hb
      split
      · exact ht
      · exact ih _ _ _ ht

/-- The loop of DECODE stops in a state that the bits read and the bytes pushed lead to. -/
theorem decodeLoop_stops {P : State → Prop} (hP : KeptByGetBit P) (hout : ∀ s b, P s → P (s.outPush b))
    (count : Data) (fuel i v l : Nat) (s : State) (h : P s) :
    ∃ u, P u ∧ u.Stops (decodeLoop count fuel i v l s) := by
  induction fuel generalizing i v l s with
  | zero => exact ⟨s, h, .held _⟩
  | succ fuel ih =>
    unfold decodeLoop
    split
    · exact ⟨s, h, .ok _⟩
    · have hd : (s.decodeSym v l).Leaves P := decode1_leaves hP _ v l s h
      split
      · next t e => rw [e] at hd; exact ⟨t, hd, .raised _ _ _ (by decide)⟩
      · next t e => rw [e] at hd; exact ⟨t, hd, .held _⟩
      · next x t e => rw [e] at hd; exact ih _ _ _ _ (hout _ _ hd)

/-- Bits read leave OUT alone. -/
theorem keptByGetBit_readerRan_out (s : State) : KeptByGetBit fun u => s.ReaderRan u ∧ u.out = s.out := by
  rintro u b t ⟨hr, ho⟩ hb
  refine ⟨hr.getBit hb, ?_⟩
  rw [(getBit_bit hb).1.2.2.2]
  exact ho

/-- RDBITS (R252). -/
theorem readCmd_stops (s : State) (len : Byte) :
    ∃ u, (s.ReaderRan u ∧ u.out = s.out) ∧ u.Stops (s.readCmd len) := by
  unfold State.readCmd
  split
  · have hd := readBits_leaves (keptByGetBit_readerRan_out s) (len.toNat - s.progress.len) s.progress.val
      s.progress.len s ⟨.refl s, rfl⟩
    split
    · next t e => rw [e] at hd; exact ⟨t, hd, .raised _ _ _ (by decide)⟩
    · next v l t e => rw [e] at hd; exact ⟨t, hd, .held _⟩
    · next v t e => rw [e] at hd; exact ⟨t, hd, .ok _⟩
  · exact ⟨s, ⟨.refl s, rfl⟩, .raised _ _ _ (by decide)⟩

/-- DECSYM (R254). -/
theorem decsymCmd_stops (s : State) : ∃ u, (s.ReaderRan u ∧ u.out = s.out) ∧ u.Stops s.decsymCmd := by
  unfold State.decsymCmd
  split
  · exact ⟨s, ⟨.refl s, rfl⟩, .raised _ _ _ (by decide)⟩
  · exact ⟨s, ⟨.refl s, rfl⟩, .raised _ _ _ (by decide)⟩
  · exact ⟨s, ⟨.refl s, rfl⟩, .ok _⟩
  · have hd : (s.decodeSym s.progress.val s.progress.len).Leaves fun u => s.ReaderRan u ∧ u.out = s.out :=
      decode1_leaves (keptByGetBit_readerRan_out s) _ _ _ s ⟨.refl s, rfl⟩
    split
    · next t e => rw [e] at hd; exact ⟨t, hd, .raised _ _ _ (by decide)⟩
    · next v l t e => rw [e] at hd; exact ⟨t, hd, .held _⟩
    · next x t e => rw [e] at hd; exact ⟨t, hd, .ok _⟩

/-- DECODE (R256). -/
theorem decodeCmd_stops (s : State) (count : Data) : ∃ u, s.ReaderRan u ∧ u.Stops (s.decodeCmd count) := by
  unfold State.decodeCmd
  split
  · exact ⟨s, .refl s, .raised _ _ _ (by decide)⟩
  split
  · exact ⟨s, .refl s, .ok _⟩
  split
  · exact ⟨s, .refl s, .raised _ _ _ (by decide)⟩
  split
  · exact ⟨s, .refl s, .raised _ _ _ (by decide)⟩
  split
  · exact ⟨_, (State.ReaderRan.refl s).pushAll _, .ok _⟩
  · exact decodeLoop_stops (fun _ _ _ h hb => h.getBit hb) (fun _ b h => h.pushAll [b]) count _ _ _ _ s (.refl s)

/-! ### The writer -/

/-- What the commands of the writer do before they stop: the accumulator, its counters and OUT change, and the
accumulator stays within its bits (R38, R220). -/
structure State.WriterRan (s u : State) : Prop where
  acc : s.bwAcc.toNat < 2 ^ s.bwNbits.toNat → u.bwAcc.toNat < 2 ^ u.bwNbits.toNat
  out : s.out <+: u.out
  frame : u = { s with bwAcc := u.bwAcc, bwNbits := u.bwNbits, bwBitcnt := u.bwBitcnt, out := u.out }

theorem State.WriterRan.refl (s : State) : s.WriterRan s := ⟨id, List.prefix_refl _, rfl⟩

theorem State.WriterRan.trans {s u t : State} (h : s.WriterRan u) (k : u.WriterRan t) : s.WriterRan t := by
  obtain ⟨hacc, hout, hframe⟩ := h
  obtain ⟨kacc, kout, kframe⟩ := k
  exact ⟨fun hs => kacc (hacc hs), hout.trans kout, by rw [kframe, hframe]⟩

/-- A bit that joins an accumulator of `k` bits makes one of `k + 1` bits. -/
theorem shiftIn_lt {acc : Byte} {k : Nat} (b : Bool) (h : acc.toNat < 2 ^ k) :
    ((acc <<< 1) ||| (BitVec.ofBool b).zeroExtend 8).toNat < 2 ^ (k + 1) := by
  rw [BitVec.toNat_or]
  refine Nat.or_lt_two_pow ?_ ?_
  · rw [BitVec.toNat_shiftLeft, Nat.shiftLeft_eq, pow_succ]
    exact (Nat.mod_le ..).trans_lt (by omega)
  · have h2 : 2 ≤ 2 ^ (k + 1) := Nat.le_self_pow (by omega) 2
    cases b <;> simp

theorem putBit_writerRan (s : State) (b : Bool) : s.WriterRan (s.putBit b) := by
  unfold State.putBit
  split
  · exact ⟨fun _ => by simp, List.prefix_append .., rfl⟩
  · next h =>
    have hk : (s.bwNbits + 1#3).toNat = s.bwNbits.toNat + 1 := by
      have := s.bwNbits.isLt
      rw [BitVec.toNat_add]; simp; omega
    exact ⟨fun hs => by rw [hk]; exact shiftIn_lt b hs, List.prefix_refl _, rfl⟩

theorem putBits_writerRan (bs : List Bool) (s : State) : s.WriterRan (s.putBits bs) := by
  induction bs generalizing s with
  | nil => exact .refl s
  | cons b bs ih => exact (putBit_writerRan s b).trans (ih _)

/-- WRSYM (R221). -/
theorem writeSym_stops (s : State) (sym : Sym) : ∃ u, s.WriterRan u ∧ u.Stops (s.writeSym sym) := by
  unfold State.writeSym
  split
  · exact ⟨s, .refl s, .raised _ _ _ (by decide)⟩
  split
  · exact ⟨s, .refl s, .raised _ _ _ (by decide)⟩
  · exact ⟨_, putBits_writerRan _ s, .ok _⟩

/-! ### The tables -/

/-- MODE, LEN and CODE fit together: the clauses of the invariant that speak of them alone (R47, R186). -/
structure TableInv (mode : Mode) (len : Table Byte) (code : Table Word) : Prop where
  noneCode : mode = .none → ∀ x, (tableGet code x).toNat = 0
  emptyTable : mode = .empty → present len = []
  singleTable : mode = .single →
    ∃ x, present len = [x] ∧ (tableGet len x).toNat = 1 ∧ (tableGet code x).toNat = 0
  multiTable : mode = .multi → CompleteLens len ∧ code = canonTable len (tableFill 0#32)
  absentCode : ∀ x, (tableGet len x).toNat = 0 → (tableGet code x).toNat = 0

theorem tableInv_none (len : Table Byte) : TableInv .none len (tableFill 0#32) :=
  ⟨by simp, nofun, nofun, nofun, by simp⟩

theorem tableInv_empty {len : Table Byte} (h : present len = []) : TableInv .empty len (tableFill 0#32) :=
  ⟨nofun, fun _ => h, nofun, nofun, by simp⟩

theorem tableInv_single {len : Table Byte} {x : Sym} (h : present len = [x]) (h1 : tableGet len x = 1#8) :
    TableInv .single len (tableFill 0#32) :=
  ⟨nofun, nofun, fun _ => ⟨x, h, by simp [h1], by simp⟩, nofun, by simp⟩

theorem tableInv_multi {len : Table Byte} (h : CompleteLens len) :
    TableInv .multi len (canonTable len (tableFill 0#32)) :=
  ⟨nofun, nofun, nofun, fun _ => ⟨h, rfl⟩, fun x hx => by
    rw [canonTable_absent _ _ _ (BitVec.eq_of_toNat_eq hx)]; simp⟩

/-- GENCODE (R181): whether it builds or refuses, MODE and CODE fit the lengths. -/
theorem genCode_stops (s : State) : ∃ mode code, TableInv mode s.len code ∧
    { s with mode := mode, code := code }.Stops s.genCode := by
  have refused : ∀ arg : Nat, ∃ mode code, TableInv mode s.len code ∧
      { s with mode := mode, code := code }.Stops (s.refuseTable arg) := fun arg =>
    ⟨.none, tableFill 0#32, tableInv_none _, .raised _ _ _ (by decide)⟩
  unfold State.genCode
  split
  · next hp => exact ⟨.empty, _, tableInv_empty hp, .ok _⟩
  · next x hp =>
    split
    · next h1 => exact ⟨.single, _, tableInv_single hp h1, .ok _⟩
    · exact refused _
  · next x y rest hp =>
    split
    · exact refused _
    · next hmax =>
      split
      · exact refused _
      · next hk =>
        have hc : CompleteLens s.len := ⟨by simp [nsym, hp],
          fun z _ => (len_le_maxLen s.len z).trans (Nat.le_of_not_gt hmax), not_not.mp hk⟩
        exact ⟨.multi, _, tableInv_multi hc, .ok _⟩

/-- The arena of BUILD fits in the 511 slots (R35). -/
theorem toNat_ofNat_arena_le {n : Nat} (h : n ≤ 511) : (BitVec.ofNat 10 n).toNat ≤ 511 :=
  (Nat.mod_le ..).trans h

theorem present_tableSet_fill (x : Sym) : present (tableSet (tableFill 0#8) x 1#8) = [x] := by
  have hnd := present_nodup (tableSet (tableFill 0#8) x 1#8)
  have hmem : ∀ y, y ∈ present (tableSet (tableFill 0#8) x 1#8) ↔ y = x := fun y => by
    rw [mem_present, tableGet_tableSet]
    split
    · next h => simp [h]
    · next h => simp [Ne.symm h]
  exact List.perm_singleton.mp ((List.perm_ext_iff_of_nodup hnd (List.nodup_singleton x)).mpr (by simpa using hmem))

/-- The state of BUILD once it has the tree and its lengths (R145, R146). -/
def State.withTree (s : State) : State :=
  { s.setArena (pairNodes (leafNodes s.freq)) with len := treeLens s.freq }

/-- BUILD of symbols whose lengths exceed 32 (R147). -/
theorem buildTree_overflow {s : State} (h : maxLen (treeLens s.freq) > Config.maxCodeLen) :
    s.buildTree (live s.freq) = s.withTree.dropTable.raise .lenOverflow
      (BitVec.ofNat 64 (maxLen (treeLens s.freq))) (encodeWord .build) := if_pos h

/-- BUILD of symbols whose lengths do not (R147). -/
theorem buildTree_fits {s : State} (h : ¬ maxLen (treeLens s.freq) > Config.maxCodeLen) :
    s.buildTree (live s.freq) =
      { s.withTree with code := canonTable (treeLens s.freq) (tableFill 0#32), mode := .multi }.respondOk
        (BitVec.ofNat 64 (live s.freq).length) := if_neg h

/-- BUILD of two or more symbols (R145 to R147): a complete code, or LEN_OVERFLOW with no table. -/
theorem buildTree_stops (s : State) (h2 : 2 ≤ (live s.freq).length) :
    ∃ mode code nodes nnodes, TableInv mode (treeLens s.freq) code ∧ nnodes.toNat ≤ 511 ∧
      ((s.buildTree (live s.freq)).err = false → ∀ x, (tableGet (treeLens s.freq) x).toNat ≤ 32) ∧
      { s with mode := mode, len := treeLens s.freq, code := code, nodes := nodes, nnodes := nnodes }.Stops
        (s.buildTree (live s.freq)) := by
  have harena : (pairNodes (leafNodes s.freq)).length ≤ 511 := by
    have := live_length_le s.freq
    rw [pairNodes_length _ (List.ne_nil_of_length_pos (by rw [leafNodes_length]; omega)), leafNodes_length]
    omega
  have hn := toNat_ofNat_arena_le harena
  by_cases hmax : maxLen (treeLens s.freq) > Config.maxCodeLen
  · rw [buildTree_overflow hmax]
    exact ⟨.none, tableFill 0#32, _, _, tableInv_none _, hn, fun h => by simp at h, .raised _ _ _ (by decide)⟩
  · rw [buildTree_fits hmax]
    have h32 : maxLen (treeLens s.freq) ≤ 32 := Nat.le_of_not_gt hmax
    exact ⟨.multi, _, _, _, tableInv_multi (treeLens_complete s.freq h2 h32), hn,
      fun _ x => (len_le_maxLen _ x).trans h32, .ok _⟩

/-- The state of BUILD once it has the leaves, LEN and CODE cleared (R143, R144). -/
def State.withLeaves (s : State) : State :=
  { s.setArena (leafNodes s.freq) with len := tableFill 0#8, code := tableFill 0#32 }

/-- BUILD refuses a sum of frequencies that does not fit (R143). -/
theorem build_refused {s : State} (h : freqTotal s.freq ≥ Config.freqLimit) :
    s.build = s.raise .freqOverflow 0#64 (encodeWord .build) := if_pos h

/-- BUILD of no symbol (R143). -/
theorem build_empty {s : State} (h : ¬ freqTotal s.freq ≥ Config.freqLimit) (hl : live s.freq = []) :
    s.build = { s.withLeaves with mode := .empty }.respondOk 0#64 := by
  rw [State.build, if_neg h, hl]; rfl

/-- BUILD of one symbol (R143). -/
theorem build_single {s : State} (h : ¬ freqTotal s.freq ≥ Config.freqLimit) {x : Sym} (hl : live s.freq = [x]) :
    s.build = { s.withLeaves with len := tableSet (tableFill 0#8) x 1#8, mode := .single }.respondOk 1#64 := by
  rw [State.build, if_neg h, hl]; rfl

/-- BUILD of two or more symbols (R143). -/
theorem build_tree {s : State} (h : ¬ freqTotal s.freq ≥ Config.freqLimit) (hl : 2 ≤ (live s.freq).length) :
    s.build = s.buildTree (live s.freq) := by
  rcases e : live s.freq with _ | ⟨x, _ | ⟨y, l⟩⟩
  · simp [e] at hl
  · simp [e] at hl
  · rw [State.build, if_neg h, e]

/-- The four cases of BUILD (R143). -/
theorem build_cases (s : State) : freqTotal s.freq ≥ Config.freqLimit ∨ ¬ freqTotal s.freq ≥ Config.freqLimit ∧
    (live s.freq = [] ∨ (∃ x, live s.freq = [x]) ∨ 2 ≤ (live s.freq).length) := by
  refine or_iff_not_imp_left.mpr fun h => ⟨h, ?_⟩
  rcases live s.freq with _ | ⟨x, _ | ⟨y, l⟩⟩
  · exact .inl rfl
  · exact .inr (.inl ⟨x, rfl⟩)
  · exact .inr (.inr (by simp))

/-- BUILD (R143): the tables it leaves fit together, unless it refuses the sum and leaves all as it is. -/
theorem build_stops (s : State) : s.Stops s.build ∨
    ∃ mode len code nodes nnodes, TableInv mode len code ∧ nnodes.toNat ≤ 511 ∧
      (s.build.err = false → ∀ x, (tableGet len x).toNat ≤ 32) ∧
      { s with mode := mode, len := len, code := code, nodes := nodes, nnodes := nnodes }.Stops s.build := by
  have hleaves : s.withLeaves.nnodes.toNat ≤ 511 :=
    toNat_ofNat_arena_le (by have := live_length_le s.freq; rw [leafNodes_length]; omega)
  rcases build_cases s with hsum | ⟨hsum, hl | ⟨x, hl⟩ | hl⟩
  · rw [build_refused hsum]
    exact .inl (.raised _ _ _ (by decide))
  · rw [build_empty hsum hl]
    exact .inr ⟨.empty, _, _, _, _, tableInv_empty present_tableFill_zero, hleaves,
      fun _ y => by rw [tableGet_tableFill]; decide, .ok _⟩
  · rw [build_single hsum hl]
    refine .inr ⟨.single, _, _, _, _, tableInv_single (present_tableSet_fill x) (by simp), hleaves, fun _ y => ?_,
      .ok _⟩
    rw [tableGet_tableSet]
    split <;> simp
  · rw [build_tree hsum hl]
    obtain ⟨mode, code, nodes, nnodes, h⟩ := buildTree_stops s hl
    exact .inr ⟨mode, _, code, nodes, nnodes, h⟩

/-! ### All commands -/

/-- What a command but CLR can do outside the error state. -/
inductive State.Runs (s : State) : Instr → State → Prop
  | idle {i : Instr} {t : State} (hs : s.Stops t) : s.Runs i t
  | setfreq {sym : Sym} {count : Data} {t : State}
      (hs : { s with freq := tableSet s.freq sym count, mode := .none, code := tableFill 0#32 }.Stops t) :
      s.Runs (.setfreq sym count) t
  | setlen {sym : Sym} {len : Byte} {t : State} (hlen : len.toNat ≤ 32)
      (hs : { s with len := tableSet s.len sym len, nnodes := 0#10, mode := .none,
                     code := tableFill 0#32 }.Stops t) :
      s.Runs (.setlen sym len) t
  | gencode {mode : Mode} {code : Table Word} {t : State} (ht : TableInv mode s.len code)
      (hs : { s with mode := mode, code := code }.Stops t) : s.Runs .gencode t
  | build {mode : Mode} {len : Table Byte} {code : Table Word} {nodes : Vector Node 511} {nnodes : BitVec 10}
      {t : State} (ht : TableInv mode len code) (hn : nnodes.toNat ≤ 511)
      (hlen : t.err = false → ∀ x, (tableGet len x).toNat ≤ 32)
      (hs : { s with mode := mode, len := len, code := code, nodes := nodes, nnodes := nnodes }.Stops t) :
      s.Runs .build t
  | write {i : Instr} {u t : State}
      (hi : (∃ sym, i = .wrsym sym) ∨ (∃ len bits, i = .wrbits len bits) ∨ i = .flush ∨ i = .bwrst)
      (hout : i = .bwrst → u.out = s.out) (hw : s.WriterRan u) (hs : u.Stops t) : s.Runs i t
  | brstart {budget : Data} {t : State}
      (hs : { s with brBudget := budget, brPos := 0#64, brByte := 0#8, brNbits := 0#4 }.Stops t) :
      s.Runs (.brstart budget) t
  | read {i : Instr} {u t : State}
      (hi : (∃ len, i = .rdbits len) ∨ i = .decsym ∨ ∃ count, i = .decode count)
      (hout : (∀ count, i ≠ .decode count) → u.out = s.out) (hr : s.ReaderRan u) (hs : u.Stops t) : s.Runs i t

/-- Outside the error state the commands but CLR do what `Runs` says; in the error state they only respond. -/
inductive State.Answers (s : State) (i : Instr) (t : State) : Prop
  | clr (hi : i = .clr) (ht : t = { s.resetState with inq := [] }.respondOk 0#64)
  | inError (he : s.err = true) (st : Status) (v : Data) (ht : t = s.respond st v)
  | runs (he : s.err = false) (hr : s.Runs i t)

theorem answers_of_unlessErr {s : State} {i : Instr} {body : State → State} (hb : s.Runs i (body s)) :
    s.Answers i (s.unlessErr body) := by
  rcases unlessErr_cases s body with ⟨he, e⟩ | ⟨he, e⟩
  · exact .inError he _ _ e
  · rw [e]; exact .runs he hb

theorem answers_of_stops {s t : State} {i : Instr} (h : s.Stops t)
    (he : s.err = true → ∃ st v, t = s.respond st v) :
    s.Answers i t := by
  cases hs : s.err
  · exact .runs hs (.idle h)
  · obtain ⟨st, v, e⟩ := he hs
    exact .inError hs st v e

/-- Everything a command can do. -/
theorem exec_answers {i : Instr} {s t : State} (h : exec i s = .next t) : s.Answers i t := by
  cases i with
  | nop => cases h; exact answers_of_stops (.ok _) fun _ => ⟨_, _, rfl⟩
  | clr => cases h; exact .clr rfl rfl
  | setfreq sym count => cases h; exact answers_of_unlessErr (.setfreq (.ok _))
  | rdfreq sym => cases h; exact answers_of_unlessErr (.idle (.ok _))
  | build =>
    cases h
    refine answers_of_unlessErr ?_
    rcases build_stops s with hs | ⟨_, _, _, _, _, ht, hn, hlen, hs⟩
    · exact .idle hs
    · exact .build ht hn hlen hs
  | rdnode idx =>
    cases h
    refine answers_of_unlessErr ?_
    split <;> exact .idle (.ok _)
  | rdnfreq idx =>
    cases h
    refine answers_of_unlessErr ?_
    split <;> exact .idle (.ok _)
  | setlen sym len =>
    cases h
    refine answers_of_unlessErr ?_
    unfold State.loadLen
    split
    · next hl => exact .setlen (of_decide_eq_true hl) (.ok _)
    · exact .idle (.raised _ _ _ (by decide))
  | gencode =>
    cases h
    obtain ⟨_, _, ht, hs⟩ := genCode_stops s
    exact answers_of_unlessErr (.gencode ht hs)
  | rdlen sym => cases h; exact answers_of_unlessErr (.idle (.ok _))
  | rdcode sym => cases h; exact answers_of_unlessErr (.idle (.ok _))
  | rdent k =>
    cases h
    refine answers_of_unlessErr ?_
    split <;> exact .idle (.ok _)
  | wrsym sym =>
    cases h
    obtain ⟨u, hw, hs⟩ := writeSym_stops s sym
    exact answers_of_unlessErr (.write (.inl ⟨_, rfl⟩) nofun hw hs)
  | wrbits len bits =>
    cases h
    refine answers_of_unlessErr ?_
    split
    · exact .write (.inr (.inl ⟨_, _, rfl⟩)) nofun (putBits_writerRan _ s) (.ok _)
    · exact .idle (.raised _ _ _ (by decide))
  | flush =>
    cases h
    refine answers_of_unlessErr ?_
    split
    · refine .write (u := { s with bwAcc := 0#8, bwNbits := 0#3 }.outPush s.paddedByte) (by simp) nofun
        ⟨fun _ => ?_, List.prefix_append .., rfl⟩ (.ok _)
      simp
    · exact .idle (.ok _)
  | bwrst =>
    cases h
    refine answers_of_unlessErr (.write (u := { s with bwAcc := 0#8, bwNbits := 0#3, bwBitcnt := 0#64 }) (by simp)
      (fun _ => rfl) ⟨fun _ => ?_, List.prefix_refl _, rfl⟩ (.ok _))
    simp
  | brstart budget => cases h; exact answers_of_unlessErr (.brstart (.ok _))
  | rdbits len =>
    cases h
    obtain ⟨u, ⟨hr, ho⟩, hs⟩ := readCmd_stops s len
    exact answers_of_unlessErr (.read (.inl ⟨_, rfl⟩) (fun _ => ho) hr hs)
  | decsym =>
    cases h
    obtain ⟨u, ⟨hr, ho⟩, hs⟩ := decsymCmd_stops s
    exact answers_of_unlessErr (.read (.inr (.inl rfl)) (fun _ => ho) hr hs)
  | decode count =>
    cases h
    obtain ⟨u, hr, hs⟩ := decodeCmd_stops s count
    exact answers_of_unlessErr (.read (.inr (.inr ⟨_, rfl⟩)) (fun hn => absurd rfl (hn count)) hr hs)
  | rdreg reg =>
    cases h
    split
    · exact answers_of_stops (.ok _) fun _ => ⟨_, _, rfl⟩
    · exact answers_of_stops (.raised _ _ _ (by decide)) fun he => ⟨_, _, raise_of_err he ..⟩

end Sys2Proof.Machine
end

section
/-! PROOFS. The invariants of R47 hold after reset, and every step of block and host keeps them; so does the clause
that an error has its ERROR response (R316, R364). -/

namespace Sys2Proof.Machine

/-- The reset state meets the invariants: no table, and every register 0. -/
theorem reset_inv : State.reset.Inv where
  noneCode _ x := by simp [State.codeOf, State.reset, tableGet]
  emptyTable := nofun
  singleTable := nofun
  multiTable := nofun
  absentCode x _ := by simp [State.codeOf, State.reset, tableGet]
  lenBound _ x := by simp [State.lenOf, State.reset, tableGet]
  writerAcc := by decide
  readerBits := by decide
  readerPos := by decide
  errIff := by decide
  errClear _ := ⟨rfl, rfl⟩
  arena := by decide
  oneOutstanding := nofun
  holdOutstanding := nofun

/-- Settles O17: with no table and no error, every clause is about zeros. -/
theorem resetMeetsInvariants : Obligations.ResetMeetsInvariants := ⟨reset_inv, nofun⟩

/-! ### What keeps the invariants -/

/-- The streams and the host's side do not matter, and the ports only by the two clauses on them. -/
theorem State.Inv.setPorts {s : State} (h : s.Inv) (inq out : List Byte) {cmd : Option Command}
    {hold : Option Progress} {rsp : Option Response} (script : List HostAction) (rspLog : List Response)
    (received : List Byte) (hc : cmd.isSome → rsp = none) (hh : hold.isSome → cmd.isSome) :
    { s with inq := inq, out := out, cmd := cmd, hold := hold, rsp := rsp, script := script, rspLog := rspLog,
             received := received }.Inv :=
  { h with oneOutstanding := hc, holdOutstanding := hh }

/-- New tables that fit together keep the invariants. -/
theorem State.Inv.setTables {s : State} (h : s.Inv) (freq : Table Data) {mode : Mode} {len : Table Byte}
    {code : Table Word} (nodes : Vector Node 511) {nnodes : BitVec 10} (ht : TableInv mode len code)
    (hlen : s.err = false → ∀ x, (tableGet len x).toNat ≤ 32) (hn : nnodes.toNat ≤ 511) :
    { s with freq := freq, len := len, code := code, nodes := nodes, nnodes := nnodes, mode := mode }.Inv :=
  { h with
    noneCode := ht.noneCode
    emptyTable := ht.emptyTable
    singleTable := ht.singleTable
    multiTable := ht.multiTable
    absentCode := ht.absentCode
    lenBound := hlen
    arena := hn }

theorem State.Inv.writerRan {s u : State} (h : s.Inv) (hw : s.WriterRan u) : u.Inv := by
  rw [hw.frame]
  exact { h with writerAcc := hw.acc h.writerAcc }

theorem State.Inv.readerRan {s u : State} (h : s.Inv) (hr : s.ReaderRan u) : u.Inv := by
  have hbudget : u.brBudget = s.brBudget := by rw [hr.frame]
  have hpos := hr.pos h.readerPos
  rw [hbudget] at hpos
  rw [hr.frame]
  exact { h with readerBits := hr.nbits h.readerBits, readerPos := hpos }

/-- A response ends the outstanding command. -/
theorem State.Inv.respond {s : State} (h : s.Inv) (st : Status) (v : Data) : (s.respond st v).Inv :=
  h.setPorts s.inq s.out s.script s.rspLog s.received nofun nofun

theorem State.Inv.raise {s : State} (h : s.Inv) {e : ErrCode} (he : e ≠ .none) (arg : Data) (w : Word) :
    (s.raise e arg w).Inv := by
  cases hs : s.err
  · rw [raise_of_ok hs]
    exact { h with
      lenBound := nofun
      errIff := ⟨nofun, fun hn => absurd hn he⟩
      errClear := nofun
      oneOutstanding := nofun
      holdOutstanding := nofun }
  · rw [raise_of_err hs]
    exact h.respond _ _

/-- However a command stops, the invariants stay. -/
theorem State.Stops.inv {u t : State} (hs : u.Stops t) (h : u.Inv) (hc : u.cmd.isSome) : t.Inv := by
  cases hs with
  | ok v => exact h.respond _ _
  | raised e arg w he => exact h.raise he arg w
  | held p => exact { h with holdOutstanding := fun _ => hc }

/-- Every command outside the error state keeps the invariants. -/
theorem State.Runs.inv {s t : State} {i : Instr} (hr : s.Runs i t) (h : s.Inv) (he : s.err = false)
    (hc : s.cmd.isSome) : t.Inv := by
  cases hr with
  | idle hs => exact hs.inv h hc
  | setfreq hs => exact hs.inv (h.setTables _ s.nodes (tableInv_none s.len) h.lenBound h.arena) hc
  | @setlen sym len t hlen hs =>
    refine hs.inv (h.setTables s.freq s.nodes (tableInv_none _) (fun _ x => ?_) (by decide)) hc
    rw [tableGet_tableSet]
    split
    · exact hlen
    · exact h.lenBound he x
  | gencode ht hs => exact hs.inv (h.setTables s.freq s.nodes ht h.lenBound h.arena) hc
  | @build mode len code nodes nnodes t ht hn hlen hs =>
    obtain ⟨u, hu, rfl⟩ := hs.before_tables
    exact (hu.inv h hc).setTables u.freq nodes ht hlen hn
  | @write i u t hi hout hw hs => exact hs.inv (h.writerRan hw) (by rw [hw.frame]; exact hc)
  | brstart hs => exact hs.inv { h with readerBits := by simp, readerPos := by simp } hc
  | @read i u t hi hout hread hs => exact hs.inv (h.readerRan hread) (by rw [hread.frame]; exact hc)

/-- Every command keeps the invariants. -/
theorem State.Answers.inv {s t : State} {i : Instr} (ha : s.Answers i t) (h : s.Inv) (hc : s.cmd.isSome) : t.Inv := by
  cases ha with
  | clr hi ht => subst ht; exact reset_inv.setPorts [] s.out s.script s.rspLog s.received nofun nofun
  | inError he st v ht => subst ht; exact h.respond st v
  | runs he hr => exact hr.inv h he hc

/-- A word is executed as one of the commands; an illegal one does no more than NOP may (R103). -/
theorem runCommand_answers {c : Command} {s t : State} (h : runCommand c s = .next t) :
    ∃ i, (i = .clr → decode c = .instr .clr) ∧ s.Answers i t := by
  unfold runCommand at h
  split at h
  · next i hd => exact ⟨i, fun hi => hi ▸ hd, exec_answers h⟩
  · cases h
    exact ⟨.nop, nofun, answers_of_unlessErr (.idle (.raised _ _ _ (by decide)))⟩

theorem hostMove_inv {s : State} (h : s.Inv) : s.hostMove.Inv := by
  rcases hostMove_cases s with e | ⟨c, rest, -, -, hr, e⟩ | ⟨r, rest, -, -, e⟩ | ⟨b, rest, -, e⟩ |
    ⟨b, bs, rest, -, -, e⟩ | ⟨k, rest, -, e⟩ <;> rw [e]
  · exact h
  · exact { h with oneOutstanding := fun _ => hr, holdOutstanding := fun _ => rfl }
  · exact { h with oneOutstanding := fun _ => rfl }
  · exact { h with }
  · exact { h with }
  · exact reset_inv.setPorts [] s.out rest [] [] nofun nofun

theorem step_inv {s t : State} (h : s.Inv) (hst : step s = .next t) : t.Inv := by
  rcases step_cases hst with ⟨-, rfl⟩ | ⟨c, hc, -, -, hrun⟩ | ⟨c, k, rest, u, -, -, -, -, rfl⟩
  · exact hostMove_inv h
  · obtain ⟨i, -, ha⟩ := runCommand_answers hrun
    exact ha.inv h (by simp [hc])
  · exact reset_inv.setPorts [] _ rest [] [] nofun nofun

/-! ### The ERROR response -/

theorem errorAnswered_of_ok {s : State} (h : s.err = false) : s.ErrorAnswered := fun he => by simp [h] at he

/-- No command changes ERR before it stops. -/
theorem State.Runs.stops {s t : State} {i : Instr} (hr : s.Runs i t) : ∃ u : State, u.Stops t ∧ u.err = s.err := by
  cases hr with
  | idle hs => exact ⟨_, hs, rfl⟩
  | setfreq hs => exact ⟨_, hs, rfl⟩
  | setlen hlen hs => exact ⟨_, hs, rfl⟩
  | gencode ht hs => exact ⟨_, hs, rfl⟩
  | build ht hn hlen hs => exact ⟨_, hs, rfl⟩
  | write hi hout hw hs => exact ⟨_, hs, by rw [hw.frame]⟩
  | brstart hs => exact ⟨_, hs, rfl⟩
  | read hi hout hread hs => exact ⟨_, hs, by rw [hread.frame]⟩

/-- A command that begins in the error state leaves the run's ERROR response in the record; one that enters the error
state responds ERROR (R316). -/
theorem State.Answers.errorAnswered {s t : State} {i : Instr} (ha : s.Answers i t) (hrsp : s.rsp = none)
    (h : s.ErrorAnswered) : t.ErrorAnswered := by
  cases ha with
  | clr hi ht => subst ht; exact errorAnswered_of_ok rfl
  | inError he st v ht =>
    subst ht
    intro _
    obtain ⟨r, hr, hst⟩ := h he
    rw [hrsp, Option.toList_none, List.append_nil] at hr
    exact ⟨r, List.mem_append_left _ hr, hst⟩
  | runs he hr =>
    intro ht
    obtain ⟨u, hs, hu⟩ := hr.stops
    have hanswer := hs.error_answered (hu.trans he) ht
    exact ⟨⟨.error, 0#64⟩, by simp [hanswer], rfl⟩

theorem hostMove_errorAnswered {s : State} (h : s.ErrorAnswered) : s.hostMove.ErrorAnswered := by
  rcases hostMove_cases s with e | ⟨c, rest, -, -, -, e⟩ | ⟨r, rest, -, hr, e⟩ | ⟨b, rest, -, e⟩ |
    ⟨b, bs, rest, -, -, e⟩ | ⟨k, rest, -, e⟩ <;> rw [e]
  · exact h
  · exact h
  · intro he
    have := h he
    rw [hr] at this
    simpa using this
  · exact h
  · exact h
  · exact errorAnswered_of_ok rfl

theorem step_errorAnswered {s t : State} (hi : s.Inv) (h : s.ErrorAnswered) (hst : step s = .next t) :
    t.ErrorAnswered := by
  rcases step_cases hst with ⟨-, rfl⟩ | ⟨c, hc, -, -, hrun⟩ | ⟨c, k, rest, u, -, -, -, -, rfl⟩
  · exact hostMove_errorAnswered h
  · obtain ⟨i, -, ha⟩ := runCommand_answers hrun
    exact ha.errorAnswered (hi.oneOutstanding (by simp [hc])) h
  · exact errorAnswered_of_ok rfl

/-- Settles O18, by what each agent's move can do; that BUILD's lengths are a complete code is its hard part. -/
theorem stepKeepsInvariants : Obligations.StepKeepsInvariants :=
  fun _ _ h hst => ⟨step_inv h hst, fun ha => step_errorAnswered h ha hst⟩

/-! ### The first error -/

/-- No move of the host but `rst_n` touches the error registers. -/
theorem hostMove_errorRegisters {s : State} (h : s.resetNext = none) : s.hostMove.err = s.err ∧
    s.hostMove.errCode = s.errCode ∧ s.hostMove.errArg = s.errArg ∧ s.hostMove.errCmd = s.errCmd := by
  rcases hostMove_cases s with e | ⟨c, rest, -, -, -, e⟩ | ⟨r, rest, -, -, e⟩ | ⟨b, rest, -, e⟩ |
    ⟨b, bs, rest, -, -, e⟩ | ⟨k, rest, hs, e⟩
  case inr.inr.inr.inr.inr => simp [State.resetNext, hs] at h
  all_goals rw [e]; exact ⟨rfl, rfl, rfl, rfl⟩

/-- Settles O24: in the error state every command but CLR only responds, and of the host's moves only `rst_n` touches
the error registers. -/
theorem firstErrorStays : Obligations.FirstErrorStays := by
  intro s t he hst hreset hclr
  rcases step_cases hst with ⟨-, rfl⟩ | ⟨c, hc, -, -, hrun⟩ | ⟨c, k, rest, u, -, -, hs, -, -⟩
  · have hkeep := hostMove_errorRegisters hreset
    rwa [he] at hkeep
  · obtain ⟨i, hi, ha⟩ := runCommand_answers hrun
    cases ha with
    | clr h ht => exact absurd (hi h) (hclr c hc)
    | inError _ st v ht => subst ht; exact ⟨he, rfl, rfl, rfl⟩
    | runs hok _ => simp [he] at hok
  · simp [State.resetNext, hs] at hreset

/-! ### The writers of each table and register -/

/-- Settles O14: what a command can do names the fields it writes, and stopping writes the error registers and the
ports only. -/
theorem onlyNamedWritersChangeState : Obligations.OnlyNamedWritersChangeState := by
  intro i s t h hclr
  cases exec_answers h with
  | clr hi ht => exact absurd hi hclr
  | inError he st v ht => subst ht; simp
  | runs he hr =>
    cases hr with
    | idle hs => obtain ⟨_, _, _, _, _, _, _, rfl⟩ := hs.frame; simp
    | setfreq hs => obtain ⟨_, _, _, _, _, _, _, rfl⟩ := hs.frame; simp
    | setlen hlen hs => obtain ⟨_, _, _, _, _, _, _, rfl⟩ := hs.frame; simp
    | gencode ht hs => obtain ⟨_, _, _, _, _, _, _, rfl⟩ := hs.frame; simp
    | build ht hn hlen hs => obtain ⟨_, _, _, _, _, _, _, rfl⟩ := hs.frame; simp
    | write hi hout hw hs =>
      obtain ⟨_, _, _, _, _, _, _, rfl⟩ := hs.frame
      rw [hw.frame]
      rcases hi with ⟨sym, rfl⟩ | ⟨len, bits, rfl⟩ | rfl | rfl
      · simp
      · simp
      · simp
      · simp [hout rfl]
    | brstart hs => obtain ⟨_, _, _, _, _, _, _, rfl⟩ := hs.frame; simp
    | read hi hout hread hs =>
      obtain ⟨_, _, _, _, _, _, _, rfl⟩ := hs.frame
      rw [hread.frame]
      rcases hi with ⟨len, rfl⟩ | rfl | ⟨count, rfl⟩
      · simp [hout nofun]
      · simp [hout nofun]
      · simp

end Sys2Proof.Machine
end

section
/-! PROOFS. What the arena's slots at or above NNODES hold is never observable (R35, R45). All commands but CLR and
BUILD run alike on two arenas that agree below NNODES; BUILD writes the slots it then counts. -/

namespace Sys2Proof.Machine

/-- The state with another arena. -/
def State.withNodes (s : State) (v : Vector Node 511) : State := { s with nodes := v }

theorem withNodes_raise (s : State) (v : Vector Node 511) (e : ErrCode) (arg : Data) (w : Word) :
    (s.withNodes v).raise e arg w = (s.raise e arg w).withNodes v := by
  cases h : s.err
  · rw [raise_of_ok h, raise_of_ok (s := s.withNodes v) h]; rfl
  · rw [raise_of_err h, raise_of_err (s := s.withNodes v) h]; rfl

/-- The error-state check does not look at the arena. -/
theorem withNodes_unlessErr {s : State} {v : Vector Node 511} {body : State → State}
    (h : body (s.withNodes v) = (body s).withNodes v) :
    (s.withNodes v).unlessErr body = (s.unlessErr body).withNodes v := by
  cases hs : s.err
  · rw [unlessErr_of_ok hs, unlessErr_of_ok (s := s.withNodes v) hs, h]
  · rw [unlessErr_of_err hs, unlessErr_of_err (s := s.withNodes v) hs]; rfl

/-! ### The reader -/

/-- GETBIT's answer with another arena. -/
def BitRead.withNodes (v : Vector Node 511) : BitRead → BitRead
  | .bit b s => .bit b (s.withNodes v)
  | r => r

/-- The answer of a run of reads with another arena. -/
def SymRead.withNodes (v : Vector Node 511) : SymRead → SymRead
  | .truncated s => .truncated (s.withNodes v)
  | .hold x l s => .hold x l (s.withNodes v)
  | .got x s => .got x (s.withNodes v)

theorem withNodes_getBit (s : State) (v : Vector Node 511) :
    (s.withNodes v).getBit = s.getBit.withNodes v := by
  by_cases hb : s.brPos = s.brBudget
  · simp [State.getBit, State.withNodes, hb, BitRead.withNodes]
  by_cases h0 : s.brNbits = 0#4
  · cases hi : s.inq <;> simp [State.getBit, State.withNodes, hb, h0, hi, BitRead.withNodes, State.takeBit]
  · simp [State.getBit, State.withNodes, hb, h0, BitRead.withNodes, State.takeBit]

theorem withNodes_readBits (k x l : Nat) (s : State) (v : Vector Node 511) :
    readBits k x l (s.withNodes v) = (readBits k x l s).withNodes v := by
  induction k generalizing x l s with
  | zero => rfl
  | succ k ih =>
    rw [readBits, readBits, withNodes_getBit]
    cases s.getBit with
    | truncated => rfl
    | hold => rfl
    | bit b t => exact ih _ _ t

theorem withNodes_decode1 (fuel x l : Nat) (s : State) (v : Vector Node 511) :
    decode1 fuel x l (s.withNodes v) = (decode1 fuel x l s).withNodes v := by
  induction fuel generalizing x l s with
  | zero => rfl
  | succ fuel ih =>
    rw [decode1, decode1, withNodes_getBit]
    cases s.getBit with
    | truncated => rfl
    | hold => rfl
    | bit b t =>
      dsimp only [BitRead.withNodes, State.withNodes]
      cases matchCode t.len t.code (2 * x + b.toNat) (l + 1) with
      | some y => rfl
      | none => exact ih _ _ t

theorem withNodes_decodeSym (s : State) (v : Vector Node 511) (x l : Nat) :
    (s.withNodes v).decodeSym x l = (s.decodeSym x l).withNodes v := withNodes_decode1 _ x l s v

theorem withNodes_decodeLoop (count : Data) (fuel i x l : Nat) (s : State) (v : Vector Node 511) :
    decodeLoop count fuel i x l (s.withNodes v) = (decodeLoop count fuel i x l s).withNodes v := by
  induction fuel generalizing i x l s with
  | zero => rfl
  | succ fuel ih =>
    rw [decodeLoop, decodeLoop]
    split
    · rfl
    · rw [withNodes_decodeSym]
      cases s.decodeSym x l with
      | truncated t => exact withNodes_raise ..
      | hold y m t => rfl
      | got y t => exact ih _ _ _ (t.outPush (BitVec.ofNat 8 y))

theorem withNodes_readCmd (s : State) (v : Vector Node 511) (len : Byte) :
    (s.withNodes v).readCmd len = (s.readCmd len).withNodes v := by
  have hp : (s.withNodes v).progress = s.progress := rfl
  unfold State.readCmd
  split
  · rw [hp, withNodes_readBits]
    cases readBits (len.toNat - s.progress.len) s.progress.val s.progress.len s with
    | truncated t => exact withNodes_raise ..
    | hold x l t => rfl
    | got x t => rfl
  · exact withNodes_raise ..

theorem withNodes_decsymCmd (s : State) (v : Vector Node 511) :
    (s.withNodes v).decsymCmd = s.decsymCmd.withNodes v := by
  have hp : (s.withNodes v).progress = s.progress := rfl
  have hm : (s.withNodes v).mode = s.mode := rfl
  unfold State.decsymCmd
  rw [hm, hp, withNodes_decodeSym]
  cases s.mode with
  | none => exact withNodes_raise ..
  | empty => exact withNodes_raise ..
  | single => rfl
  | multi =>
    cases s.decodeSym s.progress.val s.progress.len with
    | truncated t => exact withNodes_raise ..
    | hold x l t => rfl
    | got x t => rfl

theorem withNodes_decodeCmd (s : State) (v : Vector Node 511) (count : Data) :
    (s.withNodes v).decodeCmd count = (s.decodeCmd count).withNodes v := by
  have hm : (s.withNodes v).mode = s.mode := rfl
  have hu : (s.withNodes v).underway = s.underway := rfl
  have hs : (s.withNodes v).tooShort count.toNat = s.tooShort count.toNat := rfl
  have hl : (s.withNodes v).decodeMulti count = (s.decodeMulti count).withNodes v := withNodes_decodeLoop ..
  unfold State.decodeCmd
  rw [hm, hu, hs, hl, withNodes_raise, withNodes_raise, withNodes_raise]
  simp only [apply_ite (State.withNodes · v)]
  rfl

/-! ### The writer and the code table -/

theorem withNodes_putBit (s : State) (v : Vector Node 511) (b : Bool) :
    (s.withNodes v).putBit b = (s.putBit b).withNodes v := by
  by_cases h : s.bwNbits.toNat + 1 = 8 <;> simp [State.putBit, State.withNodes, State.outPush, h]

theorem withNodes_putBits (bs : List Bool) (s : State) (v : Vector Node 511) :
    (s.withNodes v).putBits bs = (s.putBits bs).withNodes v := by
  induction bs generalizing s with
  | nil => rfl
  | cons b bs ih =>
    have h := ih (s.putBit b)
    rwa [← withNodes_putBit] at h

theorem withNodes_writeSym (s : State) (v : Vector Node 511) (sym : Sym) :
    (s.withNodes v).writeSym sym = (s.writeSym sym).withNodes v := by
  unfold State.writeSym State.putCode
  rw [withNodes_raise, withNodes_raise, withNodes_putBits]
  simp only [apply_ite (State.withNodes · v)]
  rfl

theorem withNodes_genCode (s : State) (v : Vector Node 511) :
    (s.withNodes v).genCode = s.genCode.withNodes v := by
  have refused : ∀ arg : Nat, (s.withNodes v).refuseTable arg = (s.refuseTable arg).withNodes v := fun arg =>
    withNodes_raise s.dropTable v ..
  have hl : (s.withNodes v).len = s.len := rfl
  unfold State.genCode
  simp only [hl, refused]
  rcases present s.len with _ | ⟨x, _ | ⟨y, l⟩⟩
  · rfl
  · simp only [apply_ite (State.withNodes · v)]
    rfl
  · simp only [apply_ite (State.withNodes · v)]
    rfl

/-- A slot in use holds the same in arenas that agree below NNODES (R72). -/
theorem withNodes_nodeAt {s : State} {v : Vector Node 511} (hv : ∀ k < s.nnodes.toNat, v[k]? = s.nodes[k]?)
    (idx : NodeId) : (s.withNodes v).nodeAt idx = s.nodeAt idx := by
  unfold State.nodeAt
  by_cases h : idx.toNat < s.nnodes.toNat
  · rw [if_pos h, if_pos (show idx.toNat < (s.withNodes v).nnodes.toNat from h)]
    exact hv _ h
  · rw [if_neg h, if_neg (show ¬ idx.toNat < (s.withNodes v).nnodes.toNat from h)]

/-! ### The tree builder -/

/-- Writing one arena over two others makes them agree in the slots that NNODES then counts (R144). -/
theorem writeArena_agree (v w : Vector Node 511) (arena : List Node) (k : Nat)
    (hk : k < (BitVec.ofNat 10 arena.length).toNat) : (writeArena v arena)[k]? = (writeArena w arena)[k]? := by
  have hk : k < arena.length := lt_of_lt_of_le hk (Nat.mod_le ..)
  rw [writeArena_getElem?, writeArena_getElem?]
  by_cases h : k < 511
  · rw [if_pos ⟨hk, h⟩, if_pos ⟨hk, h⟩]
  · rw [if_neg (by omega), if_neg (by omega), Vector.getElem?_eq_none (by omega), Vector.getElem?_eq_none (by omega)]

/-- BUILD on another arena: the result differs above NNODES at most. -/
theorem withNodes_build (s : State) (v : Vector Node 511) (hv : ∀ k < s.nnodes.toNat, v[k]? = s.nodes[k]?) :
    ∃ v', (s.withNodes v).build = s.build.withNodes v' ∧
      ∀ k < s.build.nnodes.toNat, v'[k]? = s.build.nodes[k]? := by
  have hf : (s.withNodes v).freq = s.freq := rfl
  rcases build_cases s with hsum | ⟨hsum, hl | ⟨x, hl⟩ | hl⟩
  · rw [build_refused hsum, build_refused (s := s.withNodes v) hsum, withNodes_raise]
    exact ⟨v, rfl, by simpa using hv⟩
  · rw [build_empty hsum hl, build_empty (s := s.withNodes v) hsum hl]
    exact ⟨_, rfl, writeArena_agree v s.nodes _⟩
  · rw [build_single hsum hl, build_single (s := s.withNodes v) hsum hl]
    exact ⟨_, rfl, writeArena_agree v s.nodes _⟩
  · rw [build_tree hsum hl, build_tree (s := s.withNodes v) hsum hl, hf]
    by_cases hmax : maxLen (treeLens s.freq) > Config.maxCodeLen
    · have e := buildTree_overflow (s := s.withNodes v) hmax
      have hw : (s.withNodes v).withTree.dropTable =
          s.withTree.dropTable.withNodes (writeArena v (pairNodes (leafNodes s.freq))) := rfl
      rw [hf, hw, withNodes_raise] at e
      rw [buildTree_overflow hmax, e]
      refine ⟨_, rfl, ?_⟩
      simp only [State.raise_nodes, State.raise_nnodes]
      exact writeArena_agree v s.nodes _
    · have e := buildTree_fits (s := s.withNodes v) hmax
      rw [hf] at e
      rw [buildTree_fits hmax, e]
      exact ⟨_, rfl, writeArena_agree v s.nodes _⟩

/-! ### All commands -/

/-- Every command but CLR and BUILD runs alike on arenas that agree below NNODES. -/
theorem exec_withNodes {i : Instr} {s t : State} {v : Vector Node 511}
    (hv : ∀ k < s.nnodes.toNat, v[k]? = s.nodes[k]?) (hclr : i ≠ .clr) (hbuild : i ≠ .build)
    (h : exec i s = .next t) : exec i (s.withNodes v) = .next (t.withNodes v) := by
  cases i with
  | nop => cases h; rfl
  | clr => exact absurd rfl hclr
  | setfreq sym count => cases h; exact congrArg _ (withNodes_unlessErr rfl)
  | rdfreq sym => cases h; exact congrArg _ (withNodes_unlessErr rfl)
  | build => exact absurd rfl hbuild
  | rdnode idx =>
    cases h
    refine congrArg _ (withNodes_unlessErr ?_)
    rw [withNodes_nodeAt hv]
    cases s.nodeAt idx <;> rfl
  | rdnfreq idx =>
    cases h
    refine congrArg _ (withNodes_unlessErr ?_)
    rw [withNodes_nodeAt hv]
    cases s.nodeAt idx <;> rfl
  | setlen sym len =>
    cases h
    refine congrArg _ (withNodes_unlessErr ?_)
    unfold State.loadLen
    split
    · rfl
    · exact withNodes_raise ..
  | gencode => cases h; exact congrArg _ (withNodes_unlessErr (withNodes_genCode s v))
  | rdlen sym => cases h; exact congrArg _ (withNodes_unlessErr rfl)
  | rdcode sym => cases h; exact congrArg _ (withNodes_unlessErr rfl)
  | rdent k =>
    cases h
    refine congrArg _ (withNodes_unlessErr ?_)
    have hl : (s.withNodes v).len = s.len := rfl
    rw [hl]
    cases (present s.len)[k.toNat]? <;> rfl
  | wrsym sym => cases h; exact congrArg _ (withNodes_unlessErr (withNodes_writeSym s v sym))
  | wrbits len bits =>
    cases h
    refine congrArg _ (withNodes_unlessErr ?_)
    unfold State.putCode
    split
    · rw [withNodes_putBits]; rfl
    · exact withNodes_raise ..
  | flush =>
    cases h
    refine congrArg _ (withNodes_unlessErr ?_)
    simp only [apply_ite (State.withNodes · v)]
    rfl
  | bwrst => cases h; exact congrArg _ (withNodes_unlessErr rfl)
  | brstart budget => cases h; exact congrArg _ (withNodes_unlessErr rfl)
  | rdbits len => cases h; exact congrArg _ (withNodes_unlessErr (withNodes_readCmd s v len))
  | decsym => cases h; exact congrArg _ (withNodes_unlessErr (withNodes_decsymCmd s v))
  | decode count => cases h; exact congrArg _ (withNodes_unlessErr (withNodes_decodeCmd s v count))
  | rdreg reg =>
    cases h
    refine congrArg Host.Outcome.next ?_
    split
    · rfl
    · exact withNodes_raise ..

/-- BUILD runs alike on arenas that agree below NNODES, and leaves them agreeing below the new NNODES. -/
theorem exec_build_withNodes {s : State} {v : Vector Node 511} (hv : ∀ k < s.nnodes.toNat, v[k]? = s.nodes[k]?) :
    ∃ v', exec .build (s.withNodes v) = .next ((s.unlessErr State.build).withNodes v') ∧
      ∀ k < (s.unlessErr State.build).nnodes.toNat, v'[k]? = (s.unlessErr State.build).nodes[k]? := by
  rcases unlessErr_cases s State.build with ⟨hs, e⟩ | ⟨hs, e⟩
  · rw [e]
    exact ⟨v, congrArg Host.Outcome.next (unlessErr_of_err (s := s.withNodes v) hs State.build), hv⟩
  · rw [e]
    obtain ⟨v', eb, hv'⟩ := withNodes_build s v hv
    exact ⟨v', congrArg Host.Outcome.next ((unlessErr_of_ok (s := s.withNodes v) hs State.build).trans eb), hv'⟩

/-- A command that is neither CLR nor BUILD keeps the arena, and counts no more of its slots (R35). -/
theorem exec_nodes {i : Instr} {s t : State} (hclr : i ≠ .clr) (hbuild : i ≠ .build) (h : exec i s = .next t) :
    t.nodes = s.nodes ∧ t.nnodes.toNat ≤ s.nnodes.toNat := by
  cases exec_answers h with
  | clr hi ht => exact absurd hi hclr
  | inError he st v ht => subst ht; exact ⟨rfl, Nat.le_refl _⟩
  | runs he hr =>
    cases hr with
    | setlen hlen hs => obtain ⟨_, _, _, _, _, _, _, rfl⟩ := hs.frame; simp
    | build ht hn hlen hs => exact absurd rfl hbuild
    | idle hs => obtain ⟨_, _, _, _, _, _, _, rfl⟩ := hs.frame; simp
    | setfreq hs => obtain ⟨_, _, _, _, _, _, _, rfl⟩ := hs.frame; simp
    | gencode ht hs => obtain ⟨_, _, _, _, _, _, _, rfl⟩ := hs.frame; simp
    | write hi hout hw hs => obtain ⟨_, _, _, _, _, _, _, rfl⟩ := hs.frame; rw [hw.frame]; simp
    | brstart hs => obtain ⟨_, _, _, _, _, _, _, rfl⟩ := hs.frame; simp
    | read hi hout hread hs => obtain ⟨_, _, _, _, _, _, _, rfl⟩ := hs.frame; rw [hread.frame]; simp

/-- Settles O15: CLR forgets the arena, BUILD writes the slots it counts, and the others look below NNODES only. -/
theorem deadSlotsUnobservable : Obligations.DeadSlotsUnobservable := by
  intro i s t v hv h
  by_cases hclr : i = .clr
  · subst hclr
    cases h
    exact ⟨_, rfl, fun _ _ => rfl⟩
  by_cases hbuild : i = .build
  · subst hbuild
    cases h
    exact exec_build_withNodes hv
  · obtain ⟨hnodes, hle⟩ := exec_nodes hclr hbuild h
    refine ⟨v, exec_withNodes hv hclr hbuild h, fun k hk => ?_⟩
    rw [hnodes]
    exact hv k (hk.trans_le hle)

end Sys2Proof.Machine
end

section
/-! PROOFS. What the control registers hold (R37, R41 to R43), RDREG that reads them (R292), and what DECODE checks
before it reads (R255, R256). -/

namespace Sys2Proof.Machine

/-! ### STATUS -/

theorem statusWord_err (s : State) : s.statusWord.getLsbD 0 = s.err := by
  simp [State.statusWord]

theorem statusWord_errCode (s : State) : s.statusWord.extractLsb' 4 4 = s.errCode.bits := by
  ext i hi
  interval_cases i <;> simp [State.statusWord, BitVec.getLsbD_of_ge]

theorem statusWord_mode (s : State) : s.statusWord.extractLsb' 8 2 = s.mode.bits := by
  ext i hi
  interval_cases i <;> simp [State.statusWord, BitVec.getLsbD_of_ge]

/-- The bits of STATUS that no field has are 0 (R42). -/
theorem statusWord_reserved (s : State) (i : Nat) (h : 0 < i ∧ i < 4 ∨ 10 ≤ i) :
    s.statusWord.getLsbD i = false := by
  rcases h with ⟨h0, h4⟩ | h10
  · interval_cases i <;> simp [State.statusWord]
  · simp [State.statusWord, BitVec.getLsbD_of_ge, show i ≠ 0 by omega, show 4 ≤ i - 4 by omega,
      show 2 ≤ i - 8 by omega]

/-- Settles O22: each field of the word is read off, and MODE and ERRCODE have the numbers of R36 and R310. -/
theorem statusFields : Obligations.StatusFields := by
  refine ⟨by decide, fun s => ⟨statusWord_err s, ?_, ?_, ?_, ?_⟩⟩
  · ext i hi
    simpa using statusWord_reserved s (1 + i) (by omega)
  · rw [statusWord_errCode]
    cases s.errCode <;> rfl
  · rw [statusWord_mode]
    cases s.mode <;> rfl
  · ext i hi
    simpa using statusWord_reserved s (10 + i) (by omega)

/-! ### The registers derived from LEN -/

/-- NSYM counts the nonzero entries of LEN (R37). -/
theorem nsym_eq_length_filter (len : Table Byte) :
    nsym len = (len.toList.filter fun l => l ≠ 0#8).length := by
  have hsnd : (entries len).map Prod.snd = len.toList :=
    List.map_snd_zip (by rw [allSyms_length, Vector.length_toList])
  rw [nsym, present, List.length_map, ← hsnd, List.filter_map, List.length_map]
  congr 2
  funext e
  exact (decide_not ..).symm

/-- Without a present symbol MAXLEN and MINLEN are 0 (R37). -/
theorem maxLen_minLen_of_absent {len : Table Byte} (h : ∀ x, (tableGet len x).toNat = 0) :
    maxLen len = 0 ∧ minLen len = 0 := by
  have hp : present len = [] :=
    List.eq_nil_iff_forall_not_mem.mpr fun x hx => (mem_present len x).mp hx (BitVec.eq_of_toNat_eq (h x))
  have hl : presentLens len = [] := by rw [presentLens_eq_map, hp, List.map_nil]
  simp [maxLen, minLen, hl, leastOf]

/-- MAXLEN is the length of a present symbol, where there is one (R37). -/
theorem maxLen_mem {len : Table Byte} {y : Sym} (hy : y ∈ present len) :
    ∃ x ∈ present len, (tableGet len x).toNat = maxLen len := by
  have hpos : 0 < (tableGet len y).toNat :=
    Nat.pos_of_ne_zero fun e => (mem_present len y).mp hy (BitVec.eq_of_toNat_eq e)
  have hmax := len_le_maxLen len y
  rcases foldl_max_mem (presentLens len) 0 with h | h
  · rw [maxLen, h] at hmax; omega
  · rw [presentLens_eq_map, List.mem_map, ← presentLens_eq_map] at h
    exact h

/-- A symbol is present exactly when its length is not 0 (R13). -/
theorem lenOf_ne_zero_iff (s : State) (x : Sym) : s.lenOf x ≠ 0 ↔ x ∈ present s.len := by
  rw [mem_present, State.lenOf, ne_eq, ne_eq, ← BitVec.toNat_inj]
  rfl

/-! ### RDREG -/

/-- `REGVAL` by the list of the registers' contents, in the order of their numbers (R41). -/
theorem regVal_of_getElem? {s : State} {r : Byte} {v : Data}
    (h : [s.statusWord, BitVec.ofNat 64 (nsym s.len), BitVec.ofNat 64 (maxLen s.len),
        BitVec.ofNat 64 (minLen s.len), BitVec.ofNat 64 s.nnodes.toNat, s.bwBitcnt,
        BitVec.ofNat 64 s.bwNbits.toNat, s.brBudget, s.brPos, BitVec.ofNat 64 s.brNbits.toNat, s.errArg,
        BitVec.ofNat 64 s.errCmd.toNat, 0x0000000148434231#64][r.toNat]? = some v) :
    r.toNat ≤ 0x0C ∧ s.regVal r = v := by
  have hlt : r.toNat < 13 := (List.getElem?_eq_some_iff.mp h).1
  refine ⟨by omega, ?_⟩
  unfold State.regVal
  generalize r.toNat = n at h hlt
  interval_cases n <;> simpa [Config.idValue] using h

theorem exec_rdreg_accepted (s : State) {r : Byte} (h : r.toNat ≤ 0x0C) :
    exec (.rdreg r) s = .next (s.respondOk (s.regVal r)) :=
  congrArg Host.Outcome.next (if_pos (decide_eq_true h))

theorem exec_rdreg_refused (s : State) {r : Byte} (h : 0x0C < r.toNat) :
    exec (.rdreg r) s = .next (s.raise .illegalCmd (BitVec.ofNat 64 r.toNat) (encodeWord (.rdreg r))) := by
  rw [BitVec.ofNat_toNat]
  refine congrArg Host.Outcome.next (if_neg fun hr => ?_)
  exact absurd (of_decide_eq_true hr) (Nat.not_le.mpr h)

/-- Settles O21: the map of the registers, the error above it, and the derived registers as counts and bounds. -/
theorem rdregReadsRegisters : Obligations.RdregReadsRegisters := by
  refine ⟨fun s r => ⟨rfl, fun v hv => ?_, fun hr he => ?_, fun hr he => ?_⟩,
    fun s => ⟨nsym_eq_length_filter s.len, len_le_maxLen s.len,
      fun x hx => minLen_le_len s.len x ((lenOf_ne_zero_iff s x).mp hx), maxLen_minLen_of_absent, ?_⟩⟩
  · obtain ⟨hr, rfl⟩ := regVal_of_getElem? hv
    exact exec_rdreg_accepted s hr
  · rw [exec_rdreg_refused s hr, raise_of_ok he]
  · rw [exec_rdreg_refused s hr, raise_of_err he]
    rfl
  · rintro ⟨y, hy⟩
    have hy := (lenOf_ne_zero_iff s y).mp hy
    obtain ⟨x, hx, hmax⟩ := maxLen_mem hy
    obtain ⟨z, hz, hmin⟩ := minLen_mem s.len (List.ne_nil_of_mem hy)
    exact ⟨⟨x, (lenOf_ne_zero_iff s x).mpr hx, hmax⟩, ⟨z, (lenOf_ne_zero_iff s z).mpr hz, hmin⟩⟩

/-! ### The checks of DECODE -/

theorem exec_decode_of_ok {s : State} (he : s.err = false) (count : Data) :
    exec (.decode count) s = .next (s.decodeCmd count) :=
  congrArg Host.Outcome.next (unlessErr_of_ok he _)

theorem tooShort_iff (s : State) (n : Nat) : s.tooShort n = true ↔ s.budgetLeft < n * minLen s.len := by
  simp [State.tooShort, State.budgetLeft]

/-- A command that has not begun is not under way. -/
theorem underway_of_hold_none {s : State} (h : s.hold = none) : s.underway = false := by
  simp [State.underway, State.progress, h]

/-- The early check (R255): a count that the budget left cannot hold at MINLEN bits a symbol is refused. -/
theorem decodeCmd_early {s : State} {count : Data} (hh : s.hold = none) (hm : s.mode = .single ∨ s.mode = .multi)
    (h : s.budgetLeft < count.toNat * minLen s.len) :
    s.decodeCmd count = s.raise .truncated 0#64 0x4C000000#32 := by
  have h0 : count ≠ 0#64 := by
    rintro rfl
    simp at h
  have hnone : s.mode ≠ .none := by rcases hm with e | e <;> rw [e] <;> decide
  have hempty : s.mode ≠ .empty := by rcases hm with e | e <;> rw [e] <;> decide
  have hearly : (!s.underway && s.tooShort count.toNat) = true := by
    rw [underway_of_hold_none hh, (tooShort_iff s _).mpr h]
    rfl
  rw [State.decodeCmd, if_neg hnone, if_neg h0, if_neg hempty, if_pos hearly]
  rfl

/-- The least length in a SINGLE table is one bit (R37, R47). -/
theorem State.Inv.minLen_single {s : State} (h : s.Inv) (hm : s.mode = .single) : minLen s.len = 1 := by
  obtain ⟨x, hx, hl, -⟩ := h.singleTable hm
  obtain ⟨y, hy, e⟩ := minLen_mem s.len (by simp [hx])
  rw [hx, List.mem_singleton] at hy
  subst hy
  exact e.symm.trans hl

/-- A bound of the lengths in a MULTI table is a bound of the least (R37, R47). -/
theorem State.Inv.le_minLen_multi {s : State} (h : s.Inv) (hm : s.mode = .multi) {m : Nat}
    (hle : ∀ x ∈ present s.len, m ≤ s.lenOf x) : m ≤ minLen s.len := by
  obtain ⟨⟨h2, -, -⟩, -⟩ := h.multiTable hm
  obtain ⟨y, hy, e⟩ := minLen_mem s.len (List.ne_nil_of_length_pos (Nat.zero_lt_two.trans_le h2))
  exact e ▸ hle y hy

/-- Settles O59: the branches of DECODE in order, the early check last. -/
theorem decodeChecksInOrder : Obligations.DecodeChecksInOrder := by
  intro s count he hh
  have early : s.mode = .single ∨ s.mode = .multi → s.budgetLeft < count.toNat * minLen s.len →
      s.decodeCmd count = _ := fun hm h => (decodeCmd_early hh hm h).trans (raise_of_ok he ..)
  rw [exec_decode_of_ok he]
  refine ⟨fun hm => ?_, fun hm h0 => ?_, fun hm h0 => ?_, fun hm _ h => ?_, fun hi hm h => ?_,
    fun m hi hm hle h => ?_⟩ <;> refine congrArg Host.Outcome.next ?_
  · rw [State.decodeCmd, if_pos hm]
    exact raise_of_ok he ..
  · rw [State.decodeCmd, if_neg hm, if_pos h0]
    rfl
  · rw [State.decodeCmd, if_neg (by rw [hm]; decide), if_neg h0, if_pos hm]
    exact raise_of_ok he ..
  · exact early hm h
  · exact early (.inl hm) (by rwa [hi.minLen_single hm, Nat.mul_one])
  · exact early (.inr hm) (h.trans_le (Nat.mul_le_mul_left _ (hi.le_minLen_multi hm hle)))

end Sys2Proof.Machine
end

section
/-! PROOFS. What the host's actions do at the ports (R88, R89), the order of the two streams (R74, R75), and the reads
of the node arena (R148, R149). -/

namespace Sys2Proof.Machine

/-! ### The host's actions -/

/-- The host moves when the block cannot: no command is accepted, or the command is held (R76, R89). -/
theorem step_of_waiting {s : State} (h : s.cmd = none ∨ s.held = true) : step s = .next s.hostMove := by
  unfold step
  split
  · rfl
  · next c hc =>
    rcases h with h | h
    · simp [hc] at h
    · rw [if_pos h]

/-- `cmd_ready` is low while a command or a response is outstanding (R88). -/
theorem cmdReady_eq_false {s : State} (h : s.cmd ≠ none ∨ s.rsp ≠ none) : s.cmdReady = false := by
  simpa [State.cmdReady, ← Option.isSome_iff_ne_none, or_iff_not_imp_left] using h

/-- Settles O9: the block waits, so the step is the host's move, which is read off for each action. -/
theorem hostActionsAtThePorts : Obligations.HostActionsAtThePorts := by
  intro s rest hw
  rw [step_of_waiting hw]
  refine ⟨fun c hs => ⟨fun hc hr => ?_, fun h => ?_⟩, fun hs => ⟨fun r hr => ?_, fun hr => ?_⟩, fun b hs => ?_,
    fun hs => ⟨fun b bs ho => ?_, fun ho => ?_⟩⟩
  · simp [State.hostMove, hs, State.cmdReady, hc, hr]
  · simp [State.hostMove, hs, cmdReady_eq_false h]
  · simp [State.hostMove, hs, hr]
  · simp [State.hostMove, hs, hr]
  · simp [State.hostMove, hs]
  · simp [State.hostMove, hs, ho]
  · simp [State.hostMove, hs, ho]

/-! ### The order of the streams -/

/-- `t` follows from `s` with the host's side untouched, OUT grown at its end at most, and IN shortened at its front at
most (R74, R75). -/
def State.StreamsFrom (s t : State) : Prop :=
  t.script = s.script ∧ t.rspLog = s.rspLog ∧ t.received = s.received ∧ s.out <+: t.out ∧ t.inq <:+ s.inq

theorem State.StreamsFrom.refl (s : State) : s.StreamsFrom s :=
  ⟨rfl, rfl, rfl, List.prefix_refl _, List.suffix_refl _⟩

/-- No way of stopping touches the streams or the host's side. -/
theorem State.Stops.streamsFrom {s u t : State} (hs : u.Stops t) (h : s.StreamsFrom u) : s.StreamsFrom t := by
  obtain ⟨_, _, _, _, _, _, _, rfl⟩ := hs.frame
  exact h

theorem State.WriterRan.streamsFrom {s u : State} (h : s.WriterRan u) : s.StreamsFrom u := by
  rw [h.frame]
  exact ⟨rfl, rfl, rfl, h.out, List.suffix_refl _⟩

theorem State.ReaderRan.streamsFrom {s u : State} (h : s.ReaderRan u) : s.StreamsFrom u := by
  rw [h.frame]
  exact ⟨rfl, rfl, rfl, h.out, h.inq⟩

/-- Settles O13: of what a command does before it stops, only the writer and the reader touch a stream; CLR empties
IN. -/
theorem streamsKeepTheirOrder : Obligations.StreamsKeepTheirOrder := by
  intro i s t h
  cases exec_answers h with
  | clr hi ht => subst ht; exact ⟨rfl, rfl, rfl, List.prefix_refl _, List.nil_suffix⟩
  | inError he st v ht => subst ht; exact State.StreamsFrom.refl s
  | runs he hr =>
    cases hr with
    | idle hs => exact hs.streamsFrom (.refl s)
    | setfreq hs => exact hs.streamsFrom (.refl s)
    | setlen hlen hs => exact hs.streamsFrom (.refl s)
    | gencode ht hs => exact hs.streamsFrom (.refl s)
    | build ht hn hlen hs => exact hs.streamsFrom (.refl s)
    | write hi hout hw hs => exact hs.streamsFrom hw.streamsFrom
    | brstart hs => exact hs.streamsFrom (.refl s)
    | read hi hout hread hs => exact hs.streamsFrom hread.streamsFrom

/-! ### The node reads -/

/-- An id at or above NNODES, or above the arena's last slot, names no node (R72). -/
theorem nodeAt_eq_none {s : State} {i : NodeId} (h : s.nnodes.toNat ≤ i.toNat ∨ i = 511#9) : s.nodeAt i = none := by
  unfold State.nodeAt
  rcases h with h | rfl
  · exact if_neg (Nat.not_lt.mpr h)
  · simp

/-- A slot in use is what its id names (R72). -/
theorem nodeAt_eq_some {s : State} {i : NodeId} {n : Node} (h : i.toNat < s.nnodes.toNat)
    (hn : s.nodes[i.toNat]? = some n) : s.nodeAt i = some n := (if_pos h).trans hn

/-- A field that begins above a number's bits is joined to it by addition. -/
theorem or_mul_two_pow {a k : Nat} (h : a < 2 ^ k) (b : Nat) : a ||| b * 2 ^ k = a + b * 2 ^ k := by
  rw [Nat.or_comm, Nat.add_comm, Nat.mul_comm, Nat.two_pow_add_eq_or_of_lt h]

/-- The fields of RDNODE's result stand one above the other and do not overlap (R148). -/
theorem pack_eq_ofNat_sum (n : Node) : n.pack = BitVec.ofNat 64
    (n.leaf.toNat + n.sym.toNat * 2 ^ 1 + n.left.toNat * 2 ^ 9 + n.right.toNat * 2 ^ 18) := by
  have hleaf := n.leaf.toNat_lt
  have hsym := n.sym.isLt
  have hleft := n.left.isLt
  rw [← or_mul_two_pow (by omega), ← or_mul_two_pow (by omega), ← or_mul_two_pow (by omega)]
  apply BitVec.eq_of_toNat_eq
  simp [Node.pack, Nat.shiftLeft_eq]

theorem exec_rdnode_of_ok {s : State} (he : s.err = false) {i : NodeId} {o : Option Node} (h : s.nodeAt i = o) :
    exec (.rdnode i) s = .next (s.respondOk (o.elim allOnes Node.pack)) := by
  refine congrArg Host.Outcome.next ((unlessErr_of_ok he _).trans ?_)
  rw [h]
  cases o <;> rfl

theorem exec_rdnfreq_of_ok {s : State} (he : s.err = false) {i : NodeId} {o : Option Node} (h : s.nodeAt i = o) :
    exec (.rdnfreq i) s = .next (s.respondOk (o.elim allOnes Node.freq)) := by
  refine congrArg Host.Outcome.next ((unlessErr_of_ok he _).trans ?_)
  rw [h]
  cases o <;> rfl

/-- Settles O36: the id names a slot in use or none, and the commands answer with what it names. -/
theorem nodeReadsReturnSlot : Obligations.NodeReadsReturnSlot := by
  intro s i he
  refine ⟨rfl, rfl, fun hi => ?_, fun n hi hn => ?_⟩
  · rw [exec_rdnode_of_ok he (nodeAt_eq_none hi), exec_rdnfreq_of_ok he (nodeAt_eq_none hi)]
    exact ⟨rfl, rfl⟩
  · rw [exec_rdnode_of_ok he (nodeAt_eq_some hi hn), exec_rdnfreq_of_ok he (nodeAt_eq_some hi hn),
      ← pack_eq_ofNat_sum]
    exact ⟨rfl, rfl⟩

end Sys2Proof.Machine
end

section
/-! PROOFS. How a command ends (R104, R76): with one response, or held on an empty IN, from where it continues as if
the bytes it waits for had been in IN before it began. -/

namespace Sys2Proof.Machine

/-! ### The response -/

/-- The command has ended: its response waits, with RESULT 0 unless it is OK, and the block holds no command (R104). -/
def State.Answered (t : State) : Prop :=
  ∃ r, t.rsp = some r ∧ t.cmd = none ∧ t.hold = none ∧ (r.status ≠ .ok → r.result = 0#64)

theorem answered_respondOk (s : State) (v : Data) : (s.respondOk v).Answered :=
  ⟨⟨.ok, v⟩, rfl, rfl, rfl, fun h => absurd rfl h⟩

theorem answered_raise (s : State) (e : ErrCode) (arg : Data) (w : Word) : (s.raise e arg w).Answered :=
  ⟨⟨.error, 0#64⟩, State.raise_rsp .., State.raise_cmd .., State.raise_hold .., fun _ => rfl⟩

theorem answered_reject (s : State) : s.reject.Answered :=
  ⟨⟨.rejected, 0#64⟩, rfl, rfl, rfl, fun _ => rfl⟩

theorem answered_unlessErr {s : State} {body : State → State} (h : (body s).Answered) :
    (s.unlessErr body).Answered := by
  rcases unlessErr_cases s body with ⟨-, e⟩ | ⟨-, e⟩ <;> rw [e]
  · exact answered_reject s
  · exact h

/-- The three commands that read IN (R251). -/
def ReadsIn (i : Instr) : Prop := (∃ len, i = .rdbits len) ∨ i = .decsym ∨ ∃ n, i = .decode n

theorem answered_genCode (s : State) : s.genCode.Answered := by
  unfold State.genCode
  split
  · exact answered_respondOk ..
  · split
    · exact answered_respondOk ..
    · exact answered_raise ..
  · split
    · exact answered_raise ..
    split
    · exact answered_raise ..
    · exact answered_respondOk ..

theorem answered_build (s : State) : s.build.Answered := by
  unfold State.build
  split
  · exact answered_raise ..
  dsimp only
  split
  · exact answered_respondOk ..
  · exact answered_respondOk ..
  · unfold State.buildTree
    dsimp only
    split
    · exact answered_raise ..
    · exact answered_respondOk ..

theorem answered_writeSym (s : State) (sym : Sym) : (s.writeSym sym).Answered := by
  unfold State.writeSym
  split
  · exact answered_raise ..
  split
  · exact answered_raise ..
  · exact answered_respondOk ..

/-- A command that does not read IN ends with a response (R76, R104). -/
theorem exec_answered {i : Instr} {s t : State} (hi : ¬ ReadsIn i) (h : exec i s = .next t) : t.Answered := by
  cases i with
  | nop => cases h; exact answered_respondOk ..
  | clr => cases h; exact answered_respondOk ..
  | setfreq sym count => cases h; exact answered_unlessErr (answered_respondOk ..)
  | rdfreq sym => cases h; exact answered_unlessErr (answered_respondOk ..)
  | build => cases h; exact answered_unlessErr (answered_build s)
  | rdnode idx => cases h; refine answered_unlessErr ?_; split <;> exact answered_respondOk ..
  | rdnfreq idx => cases h; refine answered_unlessErr ?_; split <;> exact answered_respondOk ..
  | setlen sym len =>
    cases h
    refine answered_unlessErr ?_
    unfold State.loadLen
    split
    · exact answered_respondOk ..
    · exact answered_raise ..
  | gencode => cases h; exact answered_unlessErr (answered_genCode s)
  | rdlen sym => cases h; exact answered_unlessErr (answered_respondOk ..)
  | rdcode sym => cases h; exact answered_unlessErr (answered_respondOk ..)
  | rdent k => cases h; refine answered_unlessErr ?_; split <;> exact answered_respondOk ..
  | wrsym sym => cases h; exact answered_unlessErr (answered_writeSym s sym)
  | wrbits len bits =>
    cases h
    refine answered_unlessErr ?_
    split
    · exact answered_respondOk ..
    · exact answered_raise ..
  | flush => cases h; refine answered_unlessErr ?_; split <;> exact answered_respondOk ..
  | bwrst => cases h; exact answered_unlessErr (answered_respondOk ..)
  | brstart budget => cases h; exact answered_unlessErr (answered_respondOk ..)
  | rdbits len => exact absurd (.inl ⟨_, rfl⟩) hi
  | decsym => exact absurd (.inr (.inl rfl)) hi
  | decode count => exact absurd (.inr (.inr ⟨_, rfl⟩)) hi
  | rdreg reg =>
    cases h
    split
    · exact answered_respondOk ..
    · exact answered_raise ..

/-! ### The loops of the reader, without their bound on turns -/

theorem readBits_bit {s t : State} {b : Bool} (h : s.getBit = .bit b t) (k v l : Nat) :
    readBits (k + 1) v l s = readBits k (2 * v + b.toNat) (l + 1) t := by
  rw [readBits, h]

theorem readBits_hold {s : State} (h : s.getBit = .hold) (k v l : Nat) : readBits (k + 1) v l s = .hold v l s := by
  rw [readBits, h]

theorem readBits_truncated {s : State} (h : s.getBit = .truncated) (k v l : Nat) :
    readBits (k + 1) v l s = .truncated s := by
  rw [readBits, h]

theorem decodeSym_truncated {s : State} (h : s.getBit = .truncated) (v l : Nat) : s.decodeSym v l = .truncated s := by
  rw [State.decodeSym, decode1, h]

theorem decodeSym_hold {s : State} (h : s.getBit = .hold) (v l : Nat) : s.decodeSym v l = .hold v l s := by
  rw [State.decodeSym, decode1, h]

/-- The bits read are a code (R253). -/
theorem decodeSym_match {s t : State} {b : Bool} {v l : Nat} {x : Sym} (h : s.getBit = .bit b t)
    (hx : matchCode t.len t.code (2 * v + b.toNat) (l + 1) = some x) : s.decodeSym v l = .got x.toNat t := by
  rw [State.decodeSym, decode1, h]
  dsimp only
  rw [hx]

/-- The bits read are not yet a code (R253). -/
theorem decodeSym_next {s t : State} {b : Bool} {v l : Nat} (h : s.getBit = .bit b t)
    (hx : matchCode t.len t.code (2 * v + b.toNat) (l + 1) = none) :
    s.decodeSym v l = t.decodeSym (2 * v + b.toNat) (l + 1) := by
  have ha := (getBit_bit h).2.1
  rw [State.decodeSym, decode1, h]
  dsimp only
  rw [hx]
  exact decode1_fuel _ _ _ _ _ (by omega) (by omega)

/-- Induction along the turns of DECODE1: each takes one of the bits at hand (R253). -/
theorem decodeSym_induction {P : State → Nat → Nat → Prop}
    (truncated : ∀ s v l, s.getBit = .truncated → P s v l)
    (hold : ∀ s v l, s.getBit = .hold → P s v l)
    (found : ∀ s v l b t x, s.getBit = .bit b t →
      matchCode t.len t.code (2 * v + b.toNat) (l + 1) = some x → P s v l)
    (next : ∀ s v l b t, s.getBit = .bit b t → matchCode t.len t.code (2 * v + b.toNat) (l + 1) = none →
      P t (2 * v + b.toNat) (l + 1) → P s v l)
    (s : State) (v l : Nat) : P s v l := by
  induction hn : s.availBits generalizing s v l with
  | zero =>
    rcases hb : s.getBit with _ | _ | ⟨b, t⟩
    · exact truncated _ _ _ hb
    · exact hold _ _ _ hb
    · have := (getBit_bit hb).2.1
      omega
  | succ n ih =>
    rcases hb : s.getBit with _ | _ | ⟨b, t⟩
    · exact truncated _ _ _ hb
    · exact hold _ _ _ hb
    · have ha := (getBit_bit hb).2.1
      cases hx : matchCode t.len t.code (2 * v + b.toNat) (l + 1) with
      | some x => exact found _ _ _ _ _ _ hb hx
      | none => exact next _ _ _ _ _ hb hx (ih _ _ _ (by omega))

/-- The loop of DECODE from the point `p` on (R256). -/
def State.decodeFrom (s : State) (count : Data) (p : Progress) : State :=
  decodeLoop count (s.availBits + 1) p.done p.val p.len s

theorem decodeMulti_eq (s : State) (count : Data) : s.decodeMulti count = s.decodeFrom count s.progress := rfl

/-- All symbols are pushed. -/
theorem decodeFrom_done {s : State} {count : Data} {p : Progress} (h : count.toNat ≤ p.done) :
    s.decodeFrom count p = s.respondOk count := by
  rw [State.decodeFrom, decodeLoop, if_pos h]

theorem decodeFrom_truncated {s t : State} {count : Data} {p : Progress} (h : p.done < count.toNat)
    (hd : s.decodeSym p.val p.len = .truncated t) :
    s.decodeFrom count p = t.raise .truncated (BitVec.ofNat 64 p.done) (encodeWord (.decode count)) := by
  rw [State.decodeFrom, decodeLoop, if_neg (Nat.not_le.mpr h), hd]

theorem decodeFrom_hold {s t : State} {count : Data} {p : Progress} {v l : Nat} (h : p.done < count.toNat)
    (hd : s.decodeSym p.val p.len = .hold v l t) : s.decodeFrom count p = t.holdWith ⟨v, l, p.done⟩ := by
  rw [State.decodeFrom, decodeLoop, if_neg (Nat.not_le.mpr h), hd]

/-- One more symbol is pushed. -/
theorem decodeFrom_got {s t : State} {count : Data} {p : Progress} {x : Nat} (h : p.done < count.toNat)
    (hd : s.decodeSym p.val p.len = .got x t) :
    s.decodeFrom count p = (t.outPush (BitVec.ofNat 8 x)).decodeFrom count ⟨0, 0, p.done + 1⟩ := by
  have hlt : t.availBits < s.availBits := decode1_got_lt hd
  rw [State.decodeFrom, decodeLoop, if_neg (Nat.not_le.mpr h), hd]
  exact decodeLoop_fuel count _ _ _ _ _ (t.outPush (BitVec.ofNat 8 x)) hlt (Nat.lt_succ_self _)

/-! ### More bytes in IN -/

/-- The host has supplied bytes (R74). -/
def State.feed (s : State) (bytes : List Byte) : State := { s with inq := s.inq ++ bytes }

/-- A bit that is at hand does not depend on the bytes behind it (R251). -/
theorem getBit_feed {s t : State} {b : Bool} (h : s.getBit = .bit b t) (bytes : List Byte) :
    (s.feed bytes).getBit = .bit b (t.feed bytes) := by
  unfold State.getBit at h
  split at h
  · cases h
  · next hb =>
    split at h
    · next h0 =>
      split at h
      · cases h
      · next x rest hi => cases h; simp [State.getBit, State.feed, State.takeBit, hb, h0, hi]
    · next h0 => cases h; simp [State.getBit, State.feed, State.takeBit, hb, h0]

/-- RDBITS that ran out of bytes reads on from there once it has them (R76). -/
theorem readBits_feed_of_hold {k v l v' l' : Nat} {s t : State} (h : readBits k v l s = .hold v' l' t) :
    ∃ k', l' + k' = l + k ∧ ∀ bytes, readBits k v l (s.feed bytes) = readBits k' v' l' (t.feed bytes) := by
  induction k generalizing v l s with
  | zero => cases h
  | succ k ih =>
    rcases hb : s.getBit with _ | _ | ⟨b, u⟩
    · rw [readBits_truncated hb] at h; cases h
    · rw [readBits_hold hb] at h; cases h; exact ⟨k + 1, rfl, fun _ => rfl⟩
    · rw [readBits_bit hb] at h
      obtain ⟨k', e, hk⟩ := ih h
      exact ⟨k', by omega, fun bytes => (readBits_bit (getBit_feed hb bytes) k v l).trans (hk bytes)⟩

/-- A symbol that is at hand does not depend on the bytes behind it (R253). -/
theorem decodeSym_feed_of_got {s t : State} {v l x : Nat} (h : s.decodeSym v l = .got x t) (bytes : List Byte) :
    (s.feed bytes).decodeSym v l = .got x (t.feed bytes) := by
  induction s, v, l using decodeSym_induction with
  | truncated s v l hb => rw [decodeSym_truncated hb] at h; cases h
  | hold s v l hb => rw [decodeSym_hold hb] at h; cases h
  | found s v l b u y hb hy =>
    rw [decodeSym_match hb hy] at h
    cases h
    exact decodeSym_match (getBit_feed hb bytes) hy
  | next s v l b u hb hy ih =>
    rw [decodeSym_next hb hy] at h
    exact (decodeSym_next (getBit_feed hb bytes) hy).trans (ih h)

/-- DECODE1 that ran out of bytes reads on from there once it has them (R76). -/
theorem decodeSym_feed_of_hold {s t : State} {v l v' l' : Nat} (h : s.decodeSym v l = .hold v' l' t)
    (bytes : List Byte) : (s.feed bytes).decodeSym v l = (t.feed bytes).decodeSym v' l' := by
  induction s, v, l using decodeSym_induction with
  | truncated s v l hb => rw [decodeSym_truncated hb] at h; cases h
  | hold s v l hb => rw [decodeSym_hold hb] at h; cases h; rfl
  | found s v l b u y hb hy => rw [decodeSym_match hb hy] at h; cases h
  | next s v l b u hb hy ih =>
    rw [decodeSym_next hb hy] at h
    exact (decodeSym_next (getBit_feed hb bytes) hy).trans (ih h)

/-- DECODE1 that ran out of bytes has read a bit, or stands where it began (R253). -/
theorem decodeSym_hold_progress {s t : State} {v l v' l' : Nat} (h : s.decodeSym v l = .hold v' l' t) :
    l < l' ∨ (v' = v ∧ l' = l ∧ t = s) := by
  induction s, v, l using decodeSym_induction with
  | truncated s v l hb => rw [decodeSym_truncated hb] at h; cases h
  | hold s v l hb => rw [decodeSym_hold hb] at h; cases h; exact .inr ⟨rfl, rfl, rfl⟩
  | found s v l b u y hb hy => rw [decodeSym_match hb hy] at h; cases h
  | next s v l b u hb hy ih =>
    rw [decodeSym_next hb hy] at h
    rcases ih h with hl | ⟨-, hl, -⟩ <;> exact .inl (by omega)

/-! ### The progress kept while held does not matter to the reads -/

/-- GETBIT's answer with another progress. -/
def BitRead.holdWith (p : Progress) : BitRead → BitRead
  | .bit b s => .bit b (s.holdWith p)
  | r => r

/-- The answer of a run of reads with another progress. -/
def SymRead.holdWith (p : Progress) : SymRead → SymRead
  | .truncated s => .truncated (s.holdWith p)
  | .hold v l s => .hold v l (s.holdWith p)
  | .got x s => .got x (s.holdWith p)

theorem getBit_holdWith (s : State) (p : Progress) : (s.holdWith p).getBit = s.getBit.holdWith p := by
  by_cases hb : s.brPos = s.brBudget
  · simp [State.getBit, State.holdWith, hb, BitRead.holdWith]
  by_cases h0 : s.brNbits = 0#4
  · cases hi : s.inq <;> simp [State.getBit, State.holdWith, hb, h0, hi, BitRead.holdWith, State.takeBit]
  · simp [State.getBit, State.holdWith, hb, h0, BitRead.holdWith, State.takeBit]

theorem readBits_holdWith (k v l : Nat) (s : State) (p : Progress) :
    readBits k v l (s.holdWith p) = (readBits k v l s).holdWith p := by
  induction k generalizing v l s with
  | zero => rfl
  | succ k ih =>
    rw [readBits, readBits, getBit_holdWith]
    cases s.getBit with
    | truncated => rfl
    | hold => rfl
    | bit b t => exact ih _ _ t

theorem decodeSym_holdWith (s : State) (v l : Nat) (p : Progress) :
    (s.holdWith p).decodeSym v l = (s.decodeSym v l).holdWith p := by
  induction s, v, l using decodeSym_induction with
  | truncated s v l hb =>
    rw [decodeSym_truncated hb, decodeSym_truncated (by rw [getBit_holdWith, hb]; rfl)]; rfl
  | hold s v l hb => rw [decodeSym_hold hb, decodeSym_hold (by rw [getBit_holdWith, hb]; rfl)]; rfl
  | found s v l b t x hb hx =>
    rw [decodeSym_match hb hx, decodeSym_match (t := t.holdWith p) (by rw [getBit_holdWith, hb]; rfl) hx]; rfl
  | next s v l b t hb hx ih =>
    rw [decodeSym_next hb hx, decodeSym_next (t := t.holdWith p) (by rw [getBit_holdWith, hb]; rfl) hx, ih]

theorem raise_holdWith (s : State) (p : Progress) (e : ErrCode) (arg : Data) (w : Word) :
    (s.holdWith p).raise e arg w = s.raise e arg w := by
  cases h : s.err
  · rw [raise_of_ok h, raise_of_ok (s := s.holdWith p) h]; rfl
  · rw [raise_of_err h, raise_of_err (s := s.holdWith p) h]; rfl

/-- Induction along the turns of DECODE's loop: each symbol takes one of the bits at hand at least (R256). -/
theorem decodeFrom_induction {count : Data} {P : State → Progress → Prop}
    (done : ∀ s p, count.toNat ≤ p.done → P s p)
    (truncated : ∀ s p t, p.done < count.toNat → s.decodeSym p.val p.len = .truncated t → P s p)
    (hold : ∀ s p v l t, p.done < count.toNat → s.decodeSym p.val p.len = .hold v l t → P s p)
    (got : ∀ s p x t, p.done < count.toNat → s.decodeSym p.val p.len = .got x t →
      P (t.outPush (BitVec.ofNat 8 x)) ⟨0, 0, p.done + 1⟩ → P s p)
    (s : State) (p : Progress) : P s p := by
  induction hn : s.availBits using Nat.strong_induction_on generalizing s p with
  | h n ih =>
    rcases Nat.lt_or_ge p.done count.toNat with hp | hp
    · rcases hd : s.decodeSym p.val p.len with t | ⟨v, l, t⟩ | ⟨x, t⟩
      · exact truncated _ _ _ hp hd
      · exact hold _ _ _ _ _ hp hd
      · have hlt : t.availBits < s.availBits := decode1_got_lt hd
        exact got _ _ _ _ hp hd (ih _ (hn ▸ hlt) (t.outPush (BitVec.ofNat 8 x)) _ rfl)
    · exact done _ _ hp

/-- All that DECODE's loop ends with is a response or a progress of its own (R256). -/
theorem decodeFrom_holdWith (s : State) (count : Data) (p q : Progress) :
    (s.holdWith q).decodeFrom count p = s.decodeFrom count p := by
  have hd := fun (s : State) (p : Progress) => decodeSym_holdWith s p.val p.len q
  induction s, p using decodeFrom_induction (count := count) with
  | done s p hp => rw [decodeFrom_done hp, decodeFrom_done hp]; rfl
  | truncated s p t hp e =>
    rw [decodeFrom_truncated hp e, decodeFrom_truncated hp (by rw [hd, e]; rfl), raise_holdWith]
  | hold s p v l t hp e => rw [decodeFrom_hold hp e, decodeFrom_hold hp (by rw [hd, e]; rfl)]; rfl
  | got s p x t hp e ih => rw [decodeFrom_got hp e, decodeFrom_got hp (by rw [hd, e]; rfl), ← ih]; rfl

/-- The loop of DECODE depends on its next symbol and on how many there are (R256). -/
theorem decodeFrom_congr {s t : State} {count : Data} {p q : Progress} (hp : p.done < count.toNat)
    (hq : q.done = p.done) (h : s.decodeSym p.val p.len = t.decodeSym q.val q.len) :
    s.decodeFrom count p = t.decodeFrom count q := by
  have hlt : q.done < count.toNat := hq ▸ hp
  rcases hd : s.decodeSym p.val p.len with u | ⟨v, l, u⟩ | ⟨x, u⟩
  · rw [decodeFrom_truncated hp hd, decodeFrom_truncated hlt (h ▸ hd), hq]
  · rw [decodeFrom_hold hp hd, decodeFrom_hold hlt (h ▸ hd), hq]
  · rw [decodeFrom_got hp hd, decodeFrom_got hlt (h ▸ hd), hq]

/-! ### A held command -/

/-- The loop of DECODE, at `p` in `s`, runs out of bytes at `q` in `u`: there it has come further or stands where it
was, only the reader and OUT have moved, and it goes on once it has bytes (R76, R256). -/
structure State.DecodeHolds (s : State) (count : Data) (p q : Progress) (u : State) : Prop where
  starved : u.starved
  frame : u = { s with brPos := u.brPos, brByte := u.brByte, brNbits := u.brNbits, inq := u.inq, out := u.out }
  further : q.len > 0 ∨ q.done > 0 ∨ (q = p ∧ u = s)
  resumes : ∀ bytes, (s.feed bytes).decodeFrom count p = (u.feed bytes).decodeFrom count q

theorem decodeFrom_answered_or_holds (s : State) (count : Data) (p : Progress) :
    (s.decodeFrom count p).Answered ∨
      ∃ q u, s.decodeFrom count p = u.holdWith q ∧ s.DecodeHolds count p q u := by
  induction s, p using decodeFrom_induction (count := count) with
  | done s p hp => rw [decodeFrom_done hp]; exact .inl (answered_respondOk ..)
  | truncated s p t hp e => rw [decodeFrom_truncated hp e]; exact .inl (answered_raise ..)
  | hold s p v l t hp e =>
    have hends := decodeSym_ends s p.val p.len
    rw [e] at hends
    obtain ⟨⟨-, -, -, hframe⟩, hstarved⟩ := hends
    have hout : t.out = s.out := by rw [hframe]
    refine .inr ⟨_, t, decodeFrom_hold hp e, hstarved, hout ▸ hframe, ?_, fun bytes => ?_⟩
    · rcases decodeSym_hold_progress e with hl | ⟨rfl, rfl, rfl⟩
      · exact .inl (Nat.zero_lt_of_lt hl)
      · exact .inr (.inr ⟨rfl, rfl⟩)
    · exact decodeFrom_congr hp rfl (decodeSym_feed_of_hold e bytes)
  | got s p x t hp e ih =>
    rw [decodeFrom_got hp e]
    refine ih.imp id ?_
    rintro ⟨q, u, hq, hstarved, hframe, hfurther, hresumes⟩
    have hends := decodeSym_ends s p.val p.len
    rw [e] at hends
    obtain ⟨-, -, -, ht⟩ := hends
    refine ⟨q, u, hq, hstarved, ?_, ?_, fun bytes => ?_⟩
    · rw [hframe, ht]; rfl
    · rcases hfurther with h | h | ⟨rfl, -⟩
      · exact .inl h
      · exact .inr (.inl h)
      · exact .inr (.inl (Nat.succ_pos _))
    · rw [← hresumes, decodeFrom_got hp (decodeSym_feed_of_got e bytes)]
      rfl

/-- A meaning ends with a response, or it stands held on an empty IN and goes on, once it has bytes, as it would have
gone with these bytes from the start (R76). -/
inductive AnswersOrHolds (body : State → State) (s : State) : Prop
  | answers (h : (body s).Answered)
  | holds (p : Progress) (u : State) (stops : body s = u.holdWith p) (inq : u.inq = []) (cmd : u.cmd = s.cmd)
      (rsp : u.rsp = s.rsp) (err : u.err = s.err)
      (resumes : ∀ bytes, body ((u.feed bytes).holdWith p) = body (s.feed bytes))

/-- How RDBITS and DECSYM end on what they have read (R252, R254). -/
def SymRead.conclude (w : Word) : SymRead → State
  | .truncated t => t.raise .truncated 0#64 w
  | .hold v l t => t.holdWith ⟨v, l, 0⟩
  | .got x t => t.respondOk (BitVec.ofNat 64 x)

theorem conclude_holdWith (r : SymRead) (p : Progress) (w : Word) : (r.holdWith p).conclude w = r.conclude w := by
  cases r with
  | truncated t => exact raise_holdWith ..
  | hold v l t => rfl
  | got x t => rfl

theorem readCmd_eq {len : Byte} (h : lenAccepted len = true) (s : State) : s.readCmd len =
    (readBits (len.toNat - s.progress.len) s.progress.val s.progress.len s).conclude (encodeWord (.rdbits len)) := by
  rw [State.readCmd, if_pos h]
  cases readBits (len.toNat - s.progress.len) s.progress.val s.progress.len s <;> rfl

theorem decsymCmd_eq {s : State} (h : s.mode = .multi) :
    s.decsymCmd = (s.decodeSym s.progress.val s.progress.len).conclude (encodeWord .decsym) := by
  rw [State.decsymCmd, h]
  cases s.decodeSym s.progress.val s.progress.len <;> rfl

theorem answersOrHolds_of_conclude {body : State → State} {s : State} {r : SymRead} {w : Word}
    (hb : body s = r.conclude w) (hr : r.Ends s)
    (resumes : ∀ v l t bytes, r = .hold v l t → body ((t.feed bytes).holdWith ⟨v, l, 0⟩) = body (s.feed bytes)) :
    AnswersOrHolds body s := by
  cases r with
  | truncated t => exact .answers (hb ▸ answered_raise ..)
  | hold v l t =>
    obtain ⟨⟨-, -, -, hframe⟩, -, -, hin⟩ := hr
    exact .holds _ t hb hin (by rw [hframe]) (by rw [hframe]) (by rw [hframe]) fun bytes => resumes v l t bytes rfl
  | got x t => exact .answers (hb ▸ answered_respondOk ..)

/-- RDBITS (R252). -/
theorem readCmd_answersOrHolds (len : Byte) (s : State) : AnswersOrHolds (fun s => s.readCmd len) s := by
  by_cases hl : lenAccepted len = true
  · refine answersOrHolds_of_conclude (readCmd_eq hl s) (readBits_ends ..) fun v l t bytes hr => ?_
    have hk0 : len.toNat - s.progress.len ≠ 0 := fun h0 => by rw [h0] at hr; cases hr
    obtain ⟨k, hk, hfeed⟩ := readBits_feed_of_hold hr
    have hrest : len.toNat - l = k := by omega
    rw [readCmd_eq hl, readCmd_eq hl, readBits_holdWith, conclude_holdWith]
    exact congrArg _ ((congrArg (readBits · v l _) hrest).trans (hfeed bytes).symm)
  · exact .answers (by rw [State.readCmd, if_neg hl]; exact answered_raise ..)

/-- DECSYM (R254). -/
theorem decsymCmd_answersOrHolds (s : State) : AnswersOrHolds State.decsymCmd s := by
  cases hm : s.mode with
  | none => exact .answers (by rw [State.decsymCmd, hm]; exact answered_raise ..)
  | empty => exact .answers (by rw [State.decsymCmd, hm]; exact answered_raise ..)
  | single => exact .answers (by rw [State.decsymCmd, hm]; exact answered_respondOk ..)
  | multi =>
    refine answersOrHolds_of_conclude (decsymCmd_eq hm) (decodeSym_ends ..) fun v l t bytes hr => ?_
    have hends := decodeSym_ends s s.progress.val s.progress.len
    rw [hr] at hends
    obtain ⟨⟨-, -, -, hframe⟩, -⟩ := hends
    have ht : t.mode = .multi := by rw [hframe]; exact hm
    rw [decsymCmd_eq (s := (t.feed bytes).holdWith _) ht, decsymCmd_eq (s := s.feed bytes) hm, decodeSym_holdWith,
      conclude_holdWith]
    exact congrArg _ (decodeSym_feed_of_hold hr bytes).symm

theorem underway_eq_false_iff {s : State} : s.underway = false ↔ s.progress.len = 0 ∧ s.progress.done = 0 := by
  simp [State.underway]

/-- DECODE comes to its loop with a MULTI table and a count above 0, when it has begun or the early check passes
(R255, R256). -/
def State.EntersLoop (s : State) (count : Data) : Prop :=
  s.mode = .multi ∧ count ≠ 0#64 ∧ (s.underway = false → s.tooShort count.toNat = false)

theorem decodeCmd_eq {s : State} {count : Data} (h : s.EntersLoop count) :
    s.decodeCmd count = s.decodeFrom count s.progress := by
  obtain ⟨hm, h0, hcheck⟩ := h
  have hpass : (!s.underway && s.tooShort count.toNat) = false := by
    cases hu : s.underway
    · simp [hcheck hu]
    · rfl
  simp [State.decodeCmd, hm, h0, hpass, decodeMulti_eq]

theorem decodeCmd_answered_of_not_enters {s : State} {count : Data} (h : ¬ s.EntersLoop count) :
    (s.decodeCmd count).Answered := by
  unfold State.decodeCmd
  split
  · exact answered_raise ..
  split
  · exact answered_respondOk ..
  split
  · exact answered_raise ..
  split
  · exact answered_raise ..
  split
  · exact answered_respondOk ..
  · next hnone h0 hempty hcheck hsingle =>
    refine absurd ⟨?_, h0, fun hu => ?_⟩ h
    · cases hm : s.mode <;> simp_all
    · simpa [hu] using hcheck

/-- DECODE (R256). -/
theorem decodeCmd_answersOrHolds (count : Data) (s : State) : AnswersOrHolds (fun s => s.decodeCmd count) s := by
  by_cases henter : s.EntersLoop count
  · have hb := decodeCmd_eq henter
    rcases decodeFrom_answered_or_holds s count s.progress with h | ⟨p, u, h, ⟨-, -, hin⟩, hframe, hfurther, hfeed⟩
    · exact .answers (hb ▸ h)
    · refine .holds p u (hb.trans h) hin (by rw [hframe]) (by rw [hframe]) (by rw [hframe]) fun bytes => ?_
      have hu : ((u.feed bytes).holdWith p).EntersLoop count := by
        obtain ⟨hm, h0, hcheck⟩ := henter
        refine ⟨?_, h0, fun hunder => ?_⟩
        · show u.mode = .multi
          rw [hframe]
          exact hm
        · obtain ⟨hl, hd⟩ := underway_eq_false_iff.mp hunder
          rcases hfurther with h | h | ⟨rfl, rfl⟩
          · exact absurd hl (Nat.ne_of_gt h)
          · exact absurd hd (Nat.ne_of_gt h)
          · exact hcheck (underway_eq_false_iff.mpr ⟨hl, hd⟩)
      rw [decodeCmd_eq hu, decodeCmd_eq (s := s.feed bytes) henter, decodeFrom_holdWith]
      exact (hfeed bytes).symm
  · exact .answers (decodeCmd_answered_of_not_enters henter)

/-- The error state only rejects (R317). -/
theorem AnswersOrHolds.unlessErr {body : State → State} {s : State} (h : AnswersOrHolds body s) :
    AnswersOrHolds (fun s => s.unlessErr body) s := by
  cases h with
  | answers h => exact .answers (answered_unlessErr h)
  | holds p u stops inq cmd rsp err resumes =>
    rcases unlessErr_cases s body with ⟨-, e⟩ | ⟨he, e⟩
    · exact .answers (e ▸ answered_reject s)
    · refine .holds p u (e.trans stops) inq cmd rsp err fun bytes => ?_
      rw [unlessErr_of_ok (s := (u.feed bytes).holdWith p) (err.trans he), resumes,
        unlessErr_of_ok (s := s.feed bytes) he]

/-- A command that reads IN is one body in every state. -/
theorem exec_of_readsIn {i : Instr} (hi : ReadsIn i) :
    ∃ body, (∀ s, exec i s = .next (body s)) ∧ ∀ s, AnswersOrHolds body s := by
  rcases hi with ⟨len, rfl⟩ | rfl | ⟨count, rfl⟩
  · exact ⟨_, fun _ => rfl, fun s => (readCmd_answersOrHolds len s).unlessErr⟩
  · exact ⟨_, fun _ => rfl, fun s => (decsymCmd_answersOrHolds s).unlessErr⟩
  · exact ⟨_, fun _ => rfl, fun s => (decodeCmd_answersOrHolds count s).unlessErr⟩

/-- Settles O12: only a command that reads IN holds, and each goes on from its hold as if the bytes had been there. -/
theorem heldCommandContinues : Obligations.HeldCommandContinues := by
  intro i s t bytes h hhold
  by_cases hi : ReadsIn i
  · obtain ⟨body, hbody, hends⟩ := exec_of_readsIn hi
    rw [hbody] at h
    cases h
    cases hends s with
    | answers h =>
      obtain ⟨-, -, -, hnone, -⟩ := h
      simp [hnone] at hhold
    | holds p u stops inq cmd rsp err resumes =>
      have hfed : { body s with inq := bytes } = (u.feed bytes).holdWith p := by
        simp [stops, State.feed, State.holdWith, inq]
      rw [hbody, hbody, hfed, resumes]
      rfl
  · obtain ⟨-, -, -, hnone, -⟩ := exec_answered hi h
    simp [hnone] at hhold

/-- Every command ends with a response or stands held on an empty IN (R76, R104). -/
theorem exec_answered_or_held {i : Instr} {s t : State} (h : exec i s = .next t) : t.Answered ∨
    (ReadsIn i ∧ t.hold.isSome = true ∧ t.inq = [] ∧ t.cmd = s.cmd ∧ t.rsp = s.rsp) := by
  by_cases hi : ReadsIn i
  · obtain ⟨body, hbody, hends⟩ := exec_of_readsIn hi
    rw [hbody] at h
    cases h
    cases hends s with
    | answers h => exact .inl h
    | holds p u stops inq cmd rsp err resumes =>
      rw [stops]
      exact .inr ⟨hi, rfl, inq, cmd, rsp⟩
  · exact .inl (exec_answered hi h)

end Sys2Proof.Machine
end

section
/-! PROOFS. The canonical codes of a MULTI table (R182): each code, scaled to 32 bits, begins where those before it in
the order end, so the codes fit their lengths and no code begins another (R183). -/

namespace Sys2Proof.Machine

/-! ### Bit strings -/

/-- The first bits of a number are those of the number shifted right by the others (R10). -/
theorem bitsOf_add (w l k : Nat) : bitsOf w (l + k) = bitsOf (w / 2 ^ k) l ++ bitsOf w k := by
  induction l with
  | zero => simp [bitsOf]
  | succ l ih => rw [Nat.succ_add, bitsOf, ih, bitsOf, Nat.testBit_div_two_pow, List.cons_append]

/-- A bit string that begins another denotes the other's number without its last bits (R10). -/
theorem eq_div_of_bitsOf_prefix {v l w m : Nat} (hv : v < 2 ^ l) (hw : w < 2 ^ m) (h : bitsOf v l <+: bitsOf w m) :
    l ≤ m ∧ v = w / 2 ^ (m - l) := by
  have hle : l ≤ m := by simpa using h.length_le
  refine ⟨hle, bitsOf_inj hv ?_ ?_⟩
  · rw [Nat.div_lt_iff_lt_mul (by positivity), ← Nat.pow_add, Nat.add_sub_cancel' hle]
    exact hw
  · have hsplit := bitsOf_add w l (m - l)
    rw [Nat.add_sub_cancel' hle] at hsplit
    rw [hsplit] at h
    exact (List.prefix_of_prefix_length_le h (List.prefix_append _ _) (by simp)).eq_of_length (by simp)

/-! ### CANON -/

/-- What a code takes of the `2 ^ 32` strings of 32 bits: those that begin with it (R181). -/
def codeSpan (len : Table Byte) (x : Sym) : Nat := 2 ^ (32 - (tableGet len x).toNat)

/-- What the codes of some symbols take together. -/
def spanSum (len : Table Byte) (xs : List Sym) : Nat := (xs.map (codeSpan len)).sum

theorem codeSpan_pos (len : Table Byte) (x : Sym) : 0 < codeSpan len x := Nat.two_pow_pos _

@[simp] theorem spanSum_nil (len : Table Byte) : spanSum len [] = 0 := rfl

@[simp] theorem spanSum_cons (len : Table Byte) (x : Sym) (xs : List Sym) :
    spanSum len (x :: xs) = codeSpan len x + spanSum len xs := List.sum_cons

@[simp] theorem spanSum_append (len : Table Byte) (xs ys : List Sym) :
    spanSum len (xs ++ ys) = spanSum len xs + spanSum len ys := by
  simp [spanSum]

/-- The Kraft sum counts what the codes take (R181). -/
theorem kraftSum_eq_spanSum (len : Table Byte) : kraftSum len = spanSum len (canonOrder len) := by
  rw [spanSum, ((canonOrder_perm len).map _).sum_eq, kraftSum, presentLens_eq_map, List.map_map]
  rfl

/-- The step of CANON keeps the place of the next code: a shift left by the increase in length is no more than a
longer spelling of the same 32 bits (R182). -/
theorem shift_mul_span {c prev l : Nat} (hprev : prev ≤ l) (hl : l ≤ 32) :
    (c <<< (l - prev)) * 2 ^ (32 - l) = c * 2 ^ (32 - prev) := by
  rw [Nat.shiftLeft_eq, Nat.mul_assoc, ← Nat.pow_add]
  congr 2
  omega

/-- The loop of CANON: a code begins where the codes before it end, the first of them after the code before the loop
(R182). -/
theorem canonAssign_code (len : Table Byte) {rest : List Sym} (hnodup : rest.Nodup)
    (hsorted : rest.Pairwise fun x y => (tableGet len x).toNat ≤ (tableGet len y).toNat)
    (h32 : ∀ x ∈ rest, (tableGet len x).toNat ≤ 32) {code prev : Nat}
    (hprev : ∀ x ∈ rest, prev ≤ (tableGet len x).toNat)
    (hfit : (code + 1) * 2 ^ (32 - prev) + spanSum len rest ≤ 2 ^ 32) (tab : Table Word)
    {pre post : List Sym} {x : Sym} (hx : rest = pre ++ x :: post) :
    (tableGet (canonAssign len code prev rest tab) x).toNat * codeSpan len x =
      (code + 1) * 2 ^ (32 - prev) + spanSum len pre := by
  induction rest generalizing code prev tab pre with
  | nil => simp at hx
  | cons y rest ih =>
    obtain ⟨hy, hnodup⟩ := List.nodup_cons.mp hnodup
    obtain ⟨hle, hsorted⟩ := List.pairwise_cons.mp hsorted
    have hplace := shift_mul_span (c := code + 1) (hprev y (by simp)) (h32 y (by simp))
    rw [spanSum_cons, ← hplace] at hfit
    rw [canonAssign, ← hplace]
    rcases List.cons_eq_append_iff.mp hx with ⟨rfl, hcons⟩ | ⟨pre', rfl, hrest⟩
    · obtain ⟨rfl, rfl⟩ := List.cons.inj hcons
      have hpos := codeSpan_pos len x
      have hlt : (code + 1) <<< ((tableGet len x).toNat - prev) < 2 ^ 32 := by
        refine lt_of_le_of_lt (Nat.le_mul_of_pos_right _ hpos) ?_
        unfold codeSpan at *
        omega
      rw [canonAssign_other _ _ _ hy, tableGet_tableSet_self, BitVec.toNat_ofNat, Nat.mod_eq_of_lt hlt]
      rfl
    · rw [ih hnodup hsorted (fun z hz => h32 z (by simp [hz])) hle ?_ _ hrest]
      · simp only [spanSum_cons, codeSpan]
        ring
      · unfold codeSpan at hfit
        linarith

/-- A canonical code begins, on the scale of 32 bits, where the codes before it in the order end (R182). -/
theorem canonTable_code {len : Table Byte} (h : CompleteLens len) (tab : Table Word) {pre post : List Sym} {x : Sym}
    (hx : canonOrder len = pre ++ x :: post) :
    (tableGet (canonTable len tab) x).toNat * codeSpan len x = spanSum len pre := by
  obtain ⟨-, h32, hkraft⟩ := h
  have hperm := canonOrder_perm len
  have hnodup := hperm.nodup_iff.mpr (present_nodup len)
  have hsorted : (canonOrder len).Pairwise fun x y => (tableGet len x).toNat ≤ (tableGet len y).toNat := by
    refine (canonOrder_pairwise len).imp fun {x y} hxy => ?_
    simp only [canonLe, Bool.or_eq_true, decide_eq_true_eq, Bool.and_eq_true, beq_iff_eq] at hxy
    omega
  have h32 : ∀ x ∈ canonOrder len, (tableGet len x).toNat ≤ 32 := fun x hx => h32 x (hperm.mem_iff.mp hx)
  rw [kraftSum_eq_spanSum] at hkraft
  unfold canonTable
  cases hord : canonOrder len with
  | nil => simp [hord] at hx
  | cons y rest =>
    rw [hord] at hx hnodup hsorted h32 hkraft
    obtain ⟨hy, hnodup⟩ := List.nodup_cons.mp hnodup
    obtain ⟨hle, hsorted⟩ := List.pairwise_cons.mp hsorted
    dsimp only
    rcases List.cons_eq_append_iff.mp hx with ⟨rfl, hcons⟩ | ⟨pre', rfl, hrest⟩
    · cases hcons
      rw [canonAssign_other _ _ _ hy, tableGet_tableSet_self]
      simp
    · rw [canonAssign_code len hnodup hsorted (fun z hz => h32 z (by simp [hz])) hle ?_ _ hrest]
      · simp [codeSpan]
      · rw [spanSum_cons, codeSpan] at hkraft
        omega

/-! ### A MULTI table -/

/-- The codes fit their lengths, and no code begins another (R183). -/
structure State.PrefixCode (s : State) : Prop where
  fits : ∀ x ∈ present s.len, s.codeOf x < 2 ^ s.lenOf x
  prefixFree : ∀ x ∈ present s.len, ∀ y ∈ present s.len, s.codeBits x <+: s.codeBits y → x = y

section
variable {s : State} (hi : s.Inv) (hm : s.mode = .multi)
include hi hm

/-- The code of the symbol at some place of the order (R182). -/
theorem State.Inv.codeOf_mul_span {pre post : List Sym} {x : Sym} (hx : canonOrder s.len = pre ++ x :: post) :
    s.codeOf x * codeSpan s.len x = spanSum s.len pre := by
  obtain ⟨hlens, hcode⟩ := hi.multiTable hm
  rw [State.codeOf, hcode]
  exact canonTable_code hlens _ hx

/-- A code takes no string of 32 bits above the last (R181). -/
theorem State.Inv.code_end_le {x : Sym} (hx : x ∈ present s.len) : (s.codeOf x + 1) * codeSpan s.len x ≤ 2 ^ 32 := by
  obtain ⟨⟨-, -, hkraft⟩, -⟩ := hi.multiTable hm
  obtain ⟨pre, post, hord⟩ := List.append_of_mem ((canonOrder_perm s.len).mem_iff.mpr hx)
  rw [kraftSum_eq_spanSum, hord, spanSum_append, spanSum_cons] at hkraft
  rw [Nat.add_mul, hi.codeOf_mul_span hm hord]
  omega

/-- A code begins after those before it in the order (R182). -/
theorem State.Inv.code_end_le_code {pre post : List Sym} {x y : Sym} (hy : canonOrder s.len = pre ++ y :: post)
    (hx : x ∈ pre) : (s.codeOf x + 1) * codeSpan s.len x ≤ s.codeOf y * codeSpan s.len y := by
  obtain ⟨a, b, rfl⟩ := List.append_of_mem hx
  rw [hi.codeOf_mul_span hm hy, Nat.add_mul, hi.codeOf_mul_span hm (by rw [hy]; simp; rfl)]
  simp

/-- Two codes take different strings of 32 bits (R183). -/
theorem State.Inv.codes_disjoint {x y : Sym} (hx : x ∈ present s.len) (hy : y ∈ present s.len) (hne : x ≠ y) :
    (s.codeOf x + 1) * codeSpan s.len x ≤ s.codeOf y * codeSpan s.len y ∨
      (s.codeOf y + 1) * codeSpan s.len y ≤ s.codeOf x * codeSpan s.len x := by
  obtain ⟨pre, post, hord⟩ := List.append_of_mem ((canonOrder_perm s.len).mem_iff.mpr hy)
  have hmem := (canonOrder_perm s.len).mem_iff.mpr hx
  rw [hord, List.mem_append, List.mem_cons] at hmem
  rcases hmem with hpre | rfl | hpost
  · exact .inl (hi.code_end_le_code hm hord hpre)
  · exact absurd rfl hne
  · obtain ⟨a, b, rfl⟩ := List.append_of_mem hpost
    exact .inr (hi.code_end_le_code hm (pre := pre ++ y :: a) (post := b) (by rw [hord]; simp) (by simp))

theorem State.Inv.codeOf_lt {x : Sym} (hx : x ∈ present s.len) : s.codeOf x < 2 ^ s.lenOf x := by
  obtain ⟨⟨-, h32, -⟩, -⟩ := hi.multiTable hm
  have hend := hi.code_end_le hm hx
  have hsplit : 2 ^ 32 = 2 ^ s.lenOf x * codeSpan s.len x := by
    rw [codeSpan, ← Nat.pow_add]
    exact congrArg _ (Nat.add_sub_cancel' (h32 x hx)).symm
  rw [hsplit] at hend
  exact Nat.le_of_mul_le_mul_right hend (codeSpan_pos ..)

/-- In a MULTI table no code begins another (R183 item 1). -/
theorem State.Inv.prefixCode : s.PrefixCode := by
  refine ⟨fun x hx => hi.codeOf_lt hm hx, fun x hx y hy hpre => ?_⟩
  obtain ⟨⟨-, h32, -⟩, -⟩ := hi.multiTable hm
  obtain ⟨hle, hdiv⟩ := eq_div_of_bitsOf_prefix (hi.codeOf_lt hm hx) (hi.codeOf_lt hm hy) hpre
  have hspan : codeSpan s.len x = 2 ^ (s.lenOf y - s.lenOf x) * codeSpan s.len y := by
    rw [codeSpan, codeSpan, ← Nat.pow_add]
    have := h32 y hy
    unfold State.lenOf at *
    congr 1
    omega
  have hlo : s.codeOf x * 2 ^ (s.lenOf y - s.lenOf x) ≤ s.codeOf y := hdiv ▸ Nat.div_mul_le_self ..
  have hhi : s.codeOf y < (s.codeOf x + 1) * 2 ^ (s.lenOf y - s.lenOf x) :=
    hdiv ▸ Nat.lt_mul_of_div_lt (Nat.lt_succ_self _) (Nat.two_pow_pos _)
  have hpos := codeSpan_pos s.len y
  by_contra hne
  rcases hi.codes_disjoint hm hx hy hne with h | h
  · rw [hspan, ← Nat.mul_assoc] at h
    exact absurd (Nat.le_of_mul_le_mul_right h hpos) (Nat.not_le.mpr hhi)
  · rw [hspan, ← Nat.mul_assoc] at h
    exact absurd ((Nat.le_of_mul_le_mul_right h hpos).trans hlo) (Nat.not_succ_le_self _)

end

end Sys2Proof.Machine
end

section
/-! PROOFS. The reader by the bits it has before IN runs dry (R251 to R253, R256): which bits GETBIT and the loops over
it consume, which symbol is read, and where a command holds. -/

namespace Sys2Proof.Machine

/-! ### Bits consumed -/

theorem readerBits_length (s : State) : s.readerBits.length = s.availBits := by
  have h : (s.inq.flatMap byteBits).length = 8 * s.inq.length := by
    induction s.inq with
    | nil => rfl
    | cons b bs ih => simp [ih]; omega
  simp [State.readerBits, State.availBits, h]

/-- With budget left, the next bit of the stream is the one GETBIT takes (R251). -/
theorem getBit_of_readerBits_cons {s : State} {b : Bool} {bs : List Bool} (h : s.readerBits = b :: bs)
    (hb : 0 < s.budgetLeft) : s.getBit = .bit b (s.afterBits 1) ∧ (s.afterBits 1).readerBits = bs := by
  rcases hg : s.getBit with _ | _ | ⟨b', t⟩
  · simp [State.budgetLeft, getBit_truncated hg] at hb
  · obtain ⟨-, h0, hin⟩ := getBit_hold hg
    simp [State.readerBits, h0, hin, bitsOf] at h
  · obtain ⟨-, -, -, -, hr⟩ := getBit_bit hg
    cases getBit_afterBits hg
    rw [h] at hr
    obtain ⟨rfl, rfl⟩ := List.cons.inj hr
    exact ⟨rfl, rfl⟩

/-- With budget left and no bit at hand, GETBIT waits for a byte (R251). -/
theorem getBit_of_readerBits_nil {s : State} (h : s.readerBits = []) (hb : 0 < s.budgetLeft) : s.getBit = .hold := by
  rcases hg : s.getBit with _ | _ | ⟨b, t⟩
  · simp [State.budgetLeft, getBit_truncated hg] at hb
  · rfl
  · obtain ⟨-, -, -, -, hr⟩ := getBit_bit hg
    rw [h] at hr
    cases hr

/-- Bits within the budget come off it (R251). -/
theorem budgetLeft_afterBits {s : State} {k : Nat} (h : k ≤ s.budgetLeft) :
    (s.afterBits k).budgetLeft = s.budgetLeft - k := by
  have := s.brBudget.isLt
  unfold State.budgetLeft at *
  simp only [State.afterBits, BitVec.toNat_add, BitVec.toNat_ofNat]
  omega

/-- GETBIT takes the first of some bits at hand within the budget, and leaves the others so (R251). -/
theorem getBit_of_readerBits_append {s : State} {b : Bool} {bs rest : List Bool} (h : s.readerBits = b :: bs ++ rest)
    (hb : (b :: bs).length ≤ s.budgetLeft) : s.getBit = .bit b (s.afterBits 1) ∧
      (s.afterBits 1).readerBits = bs ++ rest ∧ bs.length ≤ (s.afterBits 1).budgetLeft ∧
      (s.afterBits 1).afterBits bs.length = s.afterBits (b :: bs).length := by
  have hlen := readerBits_length s
  rw [h, List.length_append] at hlen
  rw [List.length_cons] at hb hlen ⊢
  obtain ⟨hg, hr⟩ := getBit_of_readerBits_cons h (by omega)
  have hleft := budgetLeft_afterBits (s := s) (k := 1) (by omega)
  exact ⟨hg, hr, by omega, by rw [State.afterBits_add _ _ _ (by omega), Nat.add_comm]⟩

/-- Bits consumed within the budget leave the rest of the stream (R251). -/
theorem readerBits_afterBits {s : State} {bs rest : List Bool} (h : s.readerBits = bs ++ rest)
    (hb : bs.length ≤ s.budgetLeft) : (s.afterBits bs.length).readerBits = rest := by
  induction bs generalizing s with
  | nil => simpa using h
  | cons b bs ih =>
    obtain ⟨-, hr, hbs, hadd⟩ := getBit_of_readerBits_append h hb
    rw [← hadd]
    exact ih hr hbs

/-- Where all bits at hand are consumed, IN is empty and so is BR_BYTE (R251). -/
theorem afterBits_all (s : State) :
    (s.afterBits s.readerBits.length).inq = [] ∧ (s.afterBits s.readerBits.length).brNbits = 0#4 := by
  have hlen := readerBits_length s
  have hbytes : s.bytesFor s.readerBits.length = s.inq.length := by
    unfold State.bytesFor
    rw [hlen, State.availBits]
    omega
  refine ⟨by simp [State.afterBits, hbytes], BitVec.eq_of_toNat_eq ?_⟩
  rw [State.afterBits_brNbits, hbytes, hlen, State.availBits]
  simp

/-! ### The loops -/

/-- RDBITS reads the bits at hand, most significant first (R252). -/
theorem readBits_of_readerBits {s : State} {read bs rest : List Bool} (h : s.readerBits = bs ++ rest)
    (hb : bs.length ≤ s.budgetLeft) (k : Nat) :
    readBits (bs.length + k) (bitsValue read) read.length s =
      readBits k (bitsValue (read ++ bs)) (read ++ bs).length (s.afterBits bs.length) := by
  induction bs generalizing s read with
  | nil => simp
  | cons b bs ih =>
    obtain ⟨hg, hr, hbs, hadd⟩ := getBit_of_readerBits_append h hb
    have hread := ih (read := read ++ [b]) hr hbs
    rw [bitsValue_append_bit, List.length_append, List.length_singleton, List.append_assoc, List.singleton_append,
      hadd] at hread
    rw [List.length_cons, Nat.succ_add, readBits_bit hg, hread, List.length_cons]

/-- What MATCH finds for a bit string is a symbol with that code (R184). -/
theorem codeBits_of_matchCode {s : State} {bs : List Bool} {x : Sym}
    (h : matchCode s.len s.code (bitsValue bs) bs.length = some x) : x ∈ present s.len ∧ s.codeBits x = bs := by
  obtain ⟨hx, hl, hc⟩ := matchCode_some h
  refine ⟨hx, ?_⟩
  rw [State.codeBits, State.codeOf, State.lenOf, hl, hc, bitsOf_bitsValue]

/-- MATCH finds the symbol of a code (R184). -/
theorem State.PrefixCode.matchCode_codeBits {s : State} (hc : s.PrefixCode) {x : Sym} (hx : x ∈ present s.len) :
    matchCode s.len s.code (bitsValue (s.codeBits x)) (s.codeBits x).length = some x := by
  cases hm : matchCode s.len s.code (bitsValue (s.codeBits x)) (s.codeBits x).length with
  | none =>
    refine absurd ?_ (matchCode_none hm x hx (bitsOf_length ..).symm)
    exact (bitsValue_bitsOf (hc.fits x hx)).symm
  | some y =>
    obtain ⟨hy, e⟩ := codeBits_of_matchCode hm
    rw [hc.prefixFree y hy x hx (by rw [e])]

/-- DECODE1 reads on while the bits read begin with no code (R253). -/
theorem decodeSym_of_readerBits {s : State} {read bs rest : List Bool} (h : s.readerBits = bs ++ rest)
    (hb : bs.length ≤ s.budgetLeft) (hno : ∀ x ∈ present s.len, ¬ s.codeBits x <+: read ++ bs) :
    s.decodeSym (bitsValue read) read.length =
      (s.afterBits bs.length).decodeSym (bitsValue (read ++ bs)) (read ++ bs).length := by
  induction bs generalizing s read with
  | nil => simp
  | cons b bs ih =>
    obtain ⟨hg, hr, hbs, hadd⟩ := getBit_of_readerBits_append h hb
    have hsplit : read ++ b :: bs = (read ++ [b]) ++ bs := by simp
    have hmatch : matchCode s.len s.code (bitsValue (read ++ [b])) (read ++ [b]).length = none := by
      cases hm : matchCode s.len s.code (bitsValue (read ++ [b])) (read ++ [b]).length with
      | none => rfl
      | some x =>
        obtain ⟨hx, hcode⟩ := codeBits_of_matchCode hm
        refine absurd ?_ (hno x hx)
        rw [hcode, hsplit]
        exact List.prefix_append ..
    rw [hsplit] at hno ⊢
    rw [← hadd, ← ih (read := read ++ [b]) hr hbs hno]
    rw [bitsValue_append_bit, List.length_append, List.length_singleton] at hmatch ⊢
    exact decodeSym_next hg hmatch

/-- DECODE1 reads the symbol whose code is next (R253). -/
theorem State.PrefixCode.decodeSym_codeBits {s : State} (hc : s.PrefixCode) {x : Sym} (hx : x ∈ present s.len)
    {rest : List Bool} (h : s.readerBits = s.codeBits x ++ rest) (hb : s.lenOf x ≤ s.budgetLeft) :
    s.decodeSym 0 0 = .got x.toNat (s.afterBits (s.lenOf x)) := by
  have hlen : (s.codeBits x).length = s.lenOf x := bitsOf_length ..
  have hne : s.codeBits x ≠ [] := List.ne_nil_of_length_pos (by have := (lenOf_ne_zero_iff s x).mpr hx; omega)
  obtain ⟨init, b, hcode⟩ := (List.eq_nil_or_concat' (s.codeBits x)).resolve_left hne
  have hinit : init.length + 1 = s.lenOf x := by rw [← hlen, hcode, List.length_append, List.length_singleton]
  have hno : ∀ y ∈ present s.len, ¬ s.codeBits y <+: init := by
    intro y hy hpre
    have hyx := hc.prefixFree y hy x hx (hpre.trans (by rw [hcode]; exact List.prefix_append ..))
    have := hpre.length_le
    rw [hyx, hlen] at this
    omega
  have hmatch := hc.matchCode_codeBits hx
  rw [hcode, bitsValue_append_bit, List.length_append, List.length_singleton] at hmatch
  rw [hcode, List.append_assoc, List.singleton_append] at h
  have hleft := budgetLeft_afterBits (s := s) (k := init.length) (by omega)
  have hbits := readerBits_length s
  simp only [h, List.length_append, List.length_cons] at hbits
  obtain ⟨hg, -⟩ := getBit_of_readerBits_cons (readerBits_afterBits h (by omega)) (by omega)
  rw [State.afterBits_add _ _ _ (by omega), hinit] at hg
  exact (decodeSym_of_readerBits (read := []) h (by omega) hno).trans (decodeSym_match hg hmatch)

/-- DECODE1 holds where the bits at hand begin with no code and the budget goes beyond them (R76, R253). -/
theorem decodeSym_hold_of_readerBits {s : State} {bs : List Bool} (h : s.readerBits = bs)
    (hb : bs.length < s.budgetLeft) (hno : ∀ x ∈ present s.len, ¬ s.codeBits x <+: bs) :
    s.decodeSym 0 0 = .hold (bitsValue bs) bs.length (s.afterBits bs.length) := by
  rw [← List.append_nil bs] at h
  have hleft := budgetLeft_afterBits hb.le
  have hg := getBit_of_readerBits_nil (readerBits_afterBits h hb.le) (by omega)
  exact (decodeSym_of_readerBits (read := []) h hb.le hno).trans (decodeSym_hold hg ..)

/-- RDBITS of more bits than there are holds, where the budget goes beyond them (R76, R252). -/
theorem readBits_hold_of_readerBits {s : State} {bs : List Bool} (h : s.readerBits = bs)
    (hb : bs.length < s.budgetLeft) {k : Nat} (hk : bs.length < k) :
    readBits k 0 0 s = .hold (bitsValue bs) bs.length (s.afterBits bs.length) := by
  rw [← List.append_nil bs] at h
  have hleft := budgetLeft_afterBits hb.le
  have hg := getBit_of_readerBits_nil (readerBits_afterBits h hb.le) (by omega)
  obtain ⟨j, rfl⟩ := Nat.exists_eq_add_of_lt hk
  exact (readBits_of_readerBits (read := []) h hb.le (j + 1)).trans (readBits_hold hg ..)

/-- Bytes pushed to OUT, in order (R77). -/
def State.pushAll (s : State) (bs : List Byte) : State := { s with out := s.out ++ bs }

@[simp] theorem pushAll_nil (s : State) : s.pushAll [] = s := by simp [State.pushAll]

theorem pushAll_outPush (s : State) (b : Byte) (bs : List Byte) : (s.outPush b).pushAll bs = s.pushAll (b :: bs) := by
  simp [State.pushAll, State.outPush]

/-- Bytes pushed and bits consumed do not meet. -/
theorem afterBits_outPush (s : State) (b : Byte) (k : Nat) : (s.outPush b).afterBits k = (s.afterBits k).outPush b := rfl

theorem afterBits_pushAll (s : State) (bs : List Byte) (k : Nat) :
    (s.pushAll bs).afterBits k = (s.afterBits k).pushAll bs := rfl

/-- The loop of DECODE pushes the symbols whose codes are next (R256). -/
theorem State.PrefixCode.decodeFrom_codes {s : State} (hc : s.PrefixCode) {xs : List Sym}
    (hxs : ∀ x ∈ xs, x ∈ present s.len) {rest : List Bool} (h : s.readerBits = xs.flatMap s.codeBits ++ rest)
    (hb : (xs.flatMap s.codeBits).length ≤ s.budgetLeft) {count : Data} {i : Nat} (hi : i + xs.length ≤ count.toNat) :
    s.decodeFrom count ⟨0, 0, i⟩ =
      ((s.afterBits (xs.flatMap s.codeBits).length).pushAll xs).decodeFrom count ⟨0, 0, i + xs.length⟩ := by
  induction xs generalizing s i with
  | nil => simp
  | cons x xs ih =>
    have hlen : (s.codeBits x).length = s.lenOf x := bitsOf_length ..
    rw [List.flatMap_cons, List.append_assoc] at h
    rw [List.flatMap_cons, List.length_append, hlen] at hb
    rw [List.length_cons] at hi
    have hsym := hc.decodeSym_codeBits (hxs x (by simp)) h (by omega)
    have hleft := budgetLeft_afterBits (s := s) (k := s.lenOf x) (by omega)
    have hrest := readerBits_afterBits h (by omega)
    have hbits := readerBits_length s
    simp only [h, List.length_append] at hbits
    rw [hlen] at hrest hbits
    have hpush := ih (s := (s.afterBits (s.lenOf x)).outPush x) ⟨hc.fits, hc.prefixFree⟩
      (fun y hy => hxs y (by simp [hy])) hrest (hleft ▸ Nat.le_sub_of_add_le' hb) (i := i + 1) (by omega)
    rw [decodeFrom_got (p := ⟨0, 0, i⟩) (by show i < _; omega) hsym, BitVec.ofNat_toNat, BitVec.setWidth_eq, hpush,
      afterBits_outPush, pushAll_outPush, List.flatMap_cons, List.length_append, hlen,
      ← State.afterBits_add _ _ _ (by omega), List.length_cons, Nat.add_assoc, Nat.add_comm 1]
    rfl

/-! ### The commands that hold -/

theorem progress_of_hold_none {s : State} (h : s.hold = none) : s.progress = ⟨0, 0, 0⟩ := by
  rw [State.progress, h]
  rfl

/-- RDBITS of more bits than there are stands held, all bits at hand consumed (R76, R252). -/
theorem exec_rdbits_holds {s : State} {len : Byte} (he : s.err = false) (hh : s.hold = none)
    (hb : s.readerBits.length < s.budgetLeft) (hl : len.toNat ≤ 32) (hk : s.readerBits.length < len.toNat) :
    exec (.rdbits len) s = .next ((s.afterBits s.readerBits.length).holdWith
      ⟨bitsValue s.readerBits, s.readerBits.length, 0⟩) := by
  refine congrArg Host.Outcome.next ((unlessErr_of_ok he _).trans ((readCmd_eq (decide_eq_true hl) s).trans ?_))
  rw [progress_of_hold_none hh, Nat.sub_zero, readBits_hold_of_readerBits rfl hb hk]
  rfl

/-- DECSYM whose code the bits at hand do not hold stands held, all of them consumed (R76, R254). -/
theorem exec_decsym_holds {s : State} (he : s.err = false) (hh : s.hold = none)
    (hb : s.readerBits.length < s.budgetLeft) (hm : s.mode = .multi)
    (hno : ∀ x ∈ present s.len, ¬ s.codeBits x <+: s.readerBits) :
    exec .decsym s = .next ((s.afterBits s.readerBits.length).holdWith
      ⟨bitsValue s.readerBits, s.readerBits.length, 0⟩) := by
  refine congrArg Host.Outcome.next ((unlessErr_of_ok he _).trans ((decsymCmd_eq hm).trans ?_))
  rw [progress_of_hold_none hh, decodeSym_hold_of_readerBits rfl hb hno]
  rfl

/-- DECODE with a MULTI table comes to its loop where the budget holds its count of some present symbol (R255). -/
theorem entersLoop_of_budget {s : State} {count : Data} (hm : s.mode = .multi)
    (h0 : 0 < count.toNat) (hbudget : ∃ x ∈ present s.len, count.toNat * s.lenOf x ≤ s.budgetLeft) :
    s.EntersLoop count := by
  obtain ⟨x, hx, hle⟩ := hbudget
  refine ⟨hm, fun e => by simp [e] at h0, fun _ => ?_⟩
  rw [← Bool.not_eq_true, tooShort_iff, Nat.not_lt]
  exact (Nat.mul_le_mul_left _ (minLen_le_len s.len x hx)).trans hle

/-- DECODE whose next symbol the bits at hand do not hold stands held, the symbols complete among them pushed (R76,
R256). -/
theorem exec_decode_holds {s : State} {xs : List Sym} {tail : List Bool} {count : Data} (he : s.err = false)
    (hh : s.hold = none) (hb : s.readerBits.length < s.budgetLeft) (hi : s.Inv) (hm : s.mode = .multi)
    (hlt : xs.length < count.toNat) (hxs : ∀ x ∈ xs, x ∈ present s.len)
    (hbits : s.readerBits = xs.flatMap s.codeBits ++ tail) (hno : ∀ x ∈ present s.len, ¬ s.codeBits x <+: tail)
    (hbudget : ∃ x ∈ present s.len, count.toNat * s.lenOf x ≤ s.budgetLeft) :
    exec (.decode count) s = .next { s.afterBits s.readerBits.length with
      out := s.out ++ xs, hold := some ⟨bitsValue tail, tail.length, xs.length⟩ } := by
  have hlen : s.readerBits.length = (xs.flatMap s.codeBits).length + tail.length := by
    rw [hbits, List.length_append]
  have hleft := budgetLeft_afterBits (s := s) (k := (xs.flatMap s.codeBits).length) (by omega)
  have htail := readerBits_afterBits hbits (by omega)
  have hsym := decodeSym_hold_of_readerBits (s := (s.afterBits (xs.flatMap s.codeBits).length).pushAll xs) htail
    (show _ < (s.afterBits _).budgetLeft by omega) hno
  rw [exec_decode_of_ok he, decodeCmd_eq (entersLoop_of_budget hm (Nat.zero_lt_of_lt hlt) hbudget),
    progress_of_hold_none hh, (hi.prefixCode hm).decodeFrom_codes hxs hbits (by omega) (by omega), Nat.zero_add,
    decodeFrom_hold hlt hsym, afterBits_pushAll, State.afterBits_add _ _ _ (by rw [← readerBits_length]; omega), ← hlen]
  rfl

/-- Settles O11: every command ends with its response or a hold; and where the bits at hand do not suffice, the loops
of the three reader commands consume them all and hold. -/
theorem oneResponseOrHeld : Obligations.OneResponseOrHeld := by
  refine ⟨fun i s t h => exec_answered_or_held h, fun s he hh hb => ?_⟩
  obtain ⟨hin, hnbits⟩ := afterBits_all s
  exact ⟨hin, hnbits, fun len hl hk => exec_rdbits_holds he hh hb hl hk, fun hm hno => exec_decsym_holds he hh hb hm hno,
    fun xs tail count hi hm hlt hxs hbits hno hbudget =>
      exec_decode_holds he hh hb hi hm hlt hxs hbits hno hbudget⟩

end Sys2Proof.Machine
end

section
/-! PROOFS. The decoder and the encoder undo each other (R103, R105), the legal words are those of the formats (R101),
and DATA takes no part in decoding (R100). A field and the bits of a format that are reserved are both the word under
a mask; so a row of the opcode map, a legal word and an encoding are compared by their masks. -/

namespace Sys2Proof

/-! ### The fields of a word -/

/-- The bits of a word that a field of width `n` from bit `lo` on takes. -/
def fieldMask (lo n : Nat) : Word := (BitVec.allOnes n).zeroExtend 32 <<< lo

/-- A field written back to where it was read from is the word under the field's mask. -/
theorem extractLsb'_shiftLeft_eq_and (w : Word) (lo n : Nat) :
    (w.extractLsb' lo n).zeroExtend 32 <<< lo = w &&& fieldMask lo n := by
  ext i hi
  by_cases h : lo ≤ i
  · simp [fieldMask, Nat.not_lt.mpr h, Nat.add_sub_cancel' h, BitVec.getLsbD_eq_getElem, hi, Bool.and_comm]
  · simp [fieldMask, Nat.lt_of_not_le h]

/-- A field reads back what was written to it. -/
theorem extractLsb'_shiftLeft_self {n lo : Nat} (x : BitVec n) (h : lo + n ≤ 32) :
    (x.zeroExtend 32 <<< lo : Word).extractLsb' lo n = x := by
  ext i hi
  have : lo + i < 32 ∧ i < 32 := by omega
  simp [this, hi]

/-- A field reads 0 where only another field was written. -/
theorem extractLsb'_shiftLeft_of_disjoint {m n lo lo' : Nat} (x : BitVec m) (h : lo' + m ≤ lo ∨ lo + n ≤ lo') :
    (x.zeroExtend 32 <<< lo' : Word).extractLsb' lo n = 0#n := by
  ext i hi
  rcases h with h | h
  · simp [BitVec.getLsbD_of_ge x (lo + i - lo') (by omega)]
  · simp [show lo + i < lo' by omega]

/-- A field is 0 exactly when the word under the field's mask is. -/
theorem extractLsb'_eq_zero_iff (w : Word) {lo n : Nat} (hn : lo + n ≤ 32) :
    w.extractLsb' lo n = 0#n ↔ w &&& fieldMask lo n = 0#32 := by
  rw [← extractLsb'_shiftLeft_eq_and]
  refine ⟨fun h => by simp [h], fun h => ?_⟩
  rw [← extractLsb'_shiftLeft_self (w.extractLsb' lo n) hn, h, BitVec.extractLsb'_zero]

/-! ### The formats -/

/-- The bits a format reserves (R101). -/
def Format.reservedMask : Format → Word
  | .n => fieldMask 0 26
  | .s => fieldMask 0 18
  | .sl => fieldMask 0 10
  | .l => fieldMask 18 8 ||| fieldMask 0 10
  | .i => fieldMask 0 17

theorem Format.reservedZero_iff (f : Format) (w : Word) :
    f.reservedZero w = true ↔ w &&& f.reservedMask = 0#32 := by
  cases f <;> simp [reservedZero, reservedMask, extractLsb'_eq_zero_iff, BitVec.and_or_distrib_left]

/-- The word of a format with the opcode `op` and the fields of the word `w` (R101). -/
def Format.assemble (op : BitVec 6) (w : Word) : Format → Word
  | .n => wordN op
  | .s => wordS op (symField w)
  | .sl => wordSL op (symField w) (lenField w)
  | .l => wordL op (lenField w)
  | .i => wordI op (idxField w)

theorem wordN_opField (w : Word) : wordN (opField w) = w &&& fieldMask 26 6 :=
  extractLsb'_shiftLeft_eq_and w 26 6

/-- The opcode and the fields of a word, assembled again, are the word without its reserved bits. -/
theorem Format.assemble_opField (f : Format) (w : Word) :
    f.assemble (opField w) w = w &&& ~~~f.reservedMask := by
  cases f <;>
    simp only [assemble, wordSL, wordS, wordL, wordI, wordN_opField, symField, lenField, idxField,
      extractLsb'_shiftLeft_eq_and, ← BitVec.and_or_distrib_left] <;>
    exact congrArg (w &&& ·) (by decide)

/-- A word whose reserved bits are 0 is assembled from its opcode and its fields (R105). -/
theorem Format.assemble_eq_self {f : Format} {w : Word} (h : f.reservedZero w = true) :
    f.assemble (opField w) w = w := by
  rw [reservedZero_iff] at h
  calc f.assemble (opField w) w
      = (w &&& ~~~f.reservedMask) ||| (w &&& f.reservedMask) := by rw [assemble_opField, h, BitVec.or_zero]
    _ = w := by rw [← BitVec.and_or_distrib_left, BitVec.not_or_self, BitVec.and_allOnes]

/-! ### The opcode map -/

/-- A row's mask is the opcode and its format's reserved bits, and its match is the opcode (R101, R105). -/
theorem opcodeRow_eq : ∀ op : BitVec 6, opcodeRow op.toNat =
    (Format.ofOpcode op.toNat).map fun f => ⟨wordN op, fieldMask 26 6 ||| f.reservedMask⟩ := by
  decide

/-- A word of a row's opcode matches the row exactly when its reserved bits are 0 (R103). -/
theorem matches_row_iff (f : Format) (w : Word) :
    w &&& (fieldMask 26 6 ||| f.reservedMask) = wordN (opField w) ↔ f.reservedZero w = true := by
  rw [Format.reservedZero_iff, BitVec.and_or_distrib_left, wordN_opField]
  refine ⟨fun h => ?_, fun h => by rw [h, BitVec.or_zero]⟩
  have hdisj : fieldMask 26 6 &&& f.reservedMask = 0#32 := by cases f <;> decide
  have := congrArg (· &&& f.reservedMask) h
  simpa [BitVec.and_or_distrib_right, BitVec.and_assoc, hdisj] using this

/-- An opcode has a command exactly when it has a format, and the command's word is that format's (R105). -/
theorem instrOf_map_encodeWord (c : Command) (n : Nat) : (instrOf c n).map encodeWord =
    (Format.ofOpcode n).map fun f => f.assemble (BitVec.ofNat 6 n) c.word := by
  unfold instrOf
  split
  case h_22 => simp [Format.ofOpcode, *]
  all_goals rfl

/-- Every opcode with a format has a command (R101). -/
theorem exists_instrOf_of_format {f : Format} {n : Nat} (h : Format.ofOpcode n = some f) (c : Command) :
    ∃ i, instrOf c n = some i := by
  have hword := instrOf_map_encodeWord c n
  rw [h, Option.map_some, Option.map_eq_some_iff] at hword
  exact hword.imp fun _ => And.left

/-- The opcodes that are not reserved (R107). -/
theorem ofOpcode_isSome_iff : ∀ op : BitVec 6, (Format.ofOpcode op.toNat).isSome = true ↔ op.toNat ≤ 0x14 := by
  decide

theorem wf_iff {c : Command} : c.wf = true ↔
    ∃ f, Format.ofOpcode (opField c.word).toNat = some f ∧ f.reservedZero c.word = true := by
  rw [Command.wf, ← opField]
  cases Format.ofOpcode (opField c.word).toNat <;> simp

/-- Decoding is the check of legality followed by reading the fields of the opcode's row (R103). -/
theorem decode_eq_instr_iff {c : Command} {i : Instr} :
    decode c = .instr i ↔ c.wf = true ∧ instrOf c (opField c.word).toNat = some i := by
  rw [decode, wf_iff, opcodeRow_eq]
  cases hf : Format.ofOpcode (opField c.word).toNat with
  | none => simp
  | some f =>
    obtain ⟨j, hj⟩ := exists_instrOf_of_format hf c
    by_cases hr : f.reservedZero c.word = true <;> simp [hj, matches_row_iff, hr]

/-! ### Decoding an encoding -/

theorem symField_wordS (op : BitVec 6) (sym : Byte) : symField (wordS op sym) = sym := by
  simp [symField, wordS, wordN, BitVec.extractLsb'_or, extractLsb'_shiftLeft_self, extractLsb'_shiftLeft_of_disjoint]

theorem symField_wordSL (op : BitVec 6) (sym len : Byte) : symField (wordSL op sym len) = sym := by
  simp [symField, wordSL, wordS, wordN, BitVec.extractLsb'_or, extractLsb'_shiftLeft_self,
    extractLsb'_shiftLeft_of_disjoint]

theorem lenField_wordSL (op : BitVec 6) (sym len : Byte) : lenField (wordSL op sym len) = len := by
  simp [lenField, wordSL, wordS, wordN, BitVec.extractLsb'_or, extractLsb'_shiftLeft_self,
    extractLsb'_shiftLeft_of_disjoint]

theorem lenField_wordL (op : BitVec 6) (len : Byte) : lenField (wordL op len) = len := by
  simp [lenField, wordL, wordN, BitVec.extractLsb'_or, extractLsb'_shiftLeft_self, extractLsb'_shiftLeft_of_disjoint]

theorem idxField_wordI (op : BitVec 6) (idx : NodeId) : idxField (wordI op idx) = idx := by
  simp [idxField, wordI, wordN, BitVec.extractLsb'_or, extractLsb'_shiftLeft_self, extractLsb'_shiftLeft_of_disjoint]

/-- Every command's word has its opcode and is legal. -/
theorem encoding_legal : ∀ i : Instr, Laws.EncodingLegal.Statement i
  | .nop => Laws.EncodingLegal.nop
  | .clr => Laws.EncodingLegal.clr
  | .setfreq sym count => Laws.EncodingLegal.setfreq sym count
  | .rdfreq sym => Laws.EncodingLegal.rdfreq sym
  | .build => Laws.EncodingLegal.build
  | .rdnode idx => Laws.EncodingLegal.rdnode idx
  | .rdnfreq idx => Laws.EncodingLegal.rdnfreq idx
  | .setlen sym len => Laws.EncodingLegal.setlen sym len
  | .gencode => Laws.EncodingLegal.gencode
  | .rdlen sym => Laws.EncodingLegal.rdlen sym
  | .rdcode sym => Laws.EncodingLegal.rdcode sym
  | .rdent k => Laws.EncodingLegal.rdent k
  | .wrsym sym => Laws.EncodingLegal.wrsym sym
  | .wrbits len bits => Laws.EncodingLegal.wrbits len bits
  | .flush => Laws.EncodingLegal.flush
  | .bwrst => Laws.EncodingLegal.bwrst
  | .brstart budget => Laws.EncodingLegal.brstart budget
  | .rdbits len => Laws.EncodingLegal.rdbits len
  | .decsym => Laws.EncodingLegal.decsym
  | .decode count => Laws.EncodingLegal.decode count
  | .rdreg reg => Laws.EncodingLegal.rdreg reg

/-- The row of a command's opcode reads the command's own operands from its encoding. -/
theorem instrOf_encode (i : Instr) : instrOf (encode i) (Laws.opcodeOf i).toNat = some i := by
  cases i with
  | nop | clr | build | gencode | flush | bwrst | brstart | decsym | decode => rfl
  | setfreq sym | rdfreq sym | rdlen sym | rdcode sym | rdent sym | wrsym sym | rdreg sym =>
    simp [Laws.opcodeOf, instrOf, encode, encodeWord, encodeData, symField_wordS]
  | setlen sym len => simp [Laws.opcodeOf, instrOf, encode, encodeWord, symField_wordSL, lenField_wordSL]
  | wrbits len | rdbits len => simp [Laws.opcodeOf, instrOf, encode, encodeWord, encodeData, lenField_wordL]
  | rdnode idx | rdnfreq idx => simp [Laws.opcodeOf, instrOf, encode, encodeWord, idxField_wordI]

/-- Settles O2: the encoding is legal, and its fields read back as the operands. -/
theorem decodeOfEncode : Obligations.DecodeOfEncode := by
  intro i
  obtain ⟨hop, hwf⟩ := encoding_legal i
  exact decode_eq_instr_iff.mpr ⟨hwf, by rw [encode, hop]; exact instrOf_encode i⟩

/-- Settles O3: a legal word is assembled from its own fields, and so is the word of the command read from them. -/
theorem encodeOfDecode : Obligations.EncodeOfDecode := by
  intro c i h
  obtain ⟨hwf, hi⟩ := decode_eq_instr_iff.mp h
  obtain ⟨f, hf, hr⟩ := wf_iff.mp hwf
  have hword := instrOf_map_encodeWord c (opField c.word).toNat
  simpa [hi, hf, Format.assemble_eq_self hr] using hword

/-- Settles O4: an opcode has a command exactly when it has a format, which is up to 0x14. -/
theorem legalWordsByFormat : Obligations.LegalWordsByFormat := by
  intro c
  rw [← ofOpcode_isSome_iff]
  cases hf : Format.ofOpcode (opField c.word).toNat with
  | none => simp [decode_eq_instr_iff, wf_iff, hf]
  | some f =>
    obtain ⟨i, hi⟩ := exists_instrOf_of_format hf c
    simp [decode_eq_instr_iff, wf_iff, hf, hi]

/-! ### DATA -/

/-- The command with another DATA operand; a command that does not use DATA is left as it is (R100). -/
def Instr.withData (d : Data) : Instr → Instr
  | .setfreq sym _ => .setfreq sym d
  | .wrbits len _ => .wrbits len d
  | .brstart _ => .brstart d
  | .decode _ => .decode d
  | i => i

/-- The decoder's answer with another DATA operand. -/
def Decoded.withData (d : Data) : Decoded → Decoded
  | .instr i => .instr (i.withData d)
  | .illegal why => .illegal why

/-- The fields are read from the word alone (R100). -/
theorem instrOf_withData (w : Word) (d d' : Data) (n : Nat) :
    instrOf ⟨w, d'⟩ n = (instrOf ⟨w, d⟩ n).map (Instr.withData d') := by
  unfold instrOf
  split <;> rfl

theorem decode_withData (w : Word) (d d' : Data) : decode ⟨w, d'⟩ = (decode ⟨w, d⟩).withData d' := by
  simp only [decode, instrOf_withData w d d']
  cases opcodeRow (opField w).toNat with
  | none => rfl
  | some row =>
    cases instrOf ⟨w, d⟩ (opField w).toNat with
    | none => rfl
    | some i => by_cases h : w &&& row.mask = row.matchBits <;> simp [h, Decoded.withData]

/-- Settles O5: the answers for two values of DATA are one answer but for its DATA operand. -/
theorem dataNeverChangesDecoding : Obligations.DataNeverChangesDecoding := by
  intro w d d'
  rw [decode_withData w d d']
  refine ⟨fun why => ?_, fun i h => ?_⟩
  · cases decode ⟨w, d⟩ <;> simp [Decoded.withData]
  · exact congrArg (Decoded.withData d') h

/-- Settles O1, by evaluating the decoder. -/
theorem writtenWordsDecode : Obligations.WrittenWordsDecode := by
  unfold Obligations.WrittenWordsDecode
  decide

end Sys2Proof
end

section
/-! PROOFS. A step of the block runs the accepted command, legal or not, and always has a next state (R82, R103). -/

namespace Sys2Proof.Machine

/-- The block runs the accepted command when neither a hold nor `rst_n` keeps it (R82, R103). -/
theorem step_of_running {s : State} {c : Command} (hc : s.cmd = some c) (hh : s.held = false)
    (hr : s.resetNext = none) : step s = runCommand c s := by
  simp [step, hc, hh, hr]

/-- `rst_n` meets the command that would have run (R351, R352). -/
theorem step_of_reset {s t : State} {c : Command} {k : Nat} {rest : List HostAction} (hc : s.cmd = some c)
    (hh : s.held = false) (hr : s.resetNext = some (k, rest)) (hrun : runCommand c s = .next t) :
    step s = .next { s.abandon k t with script := rest } := by
  simp [step, hc, hh, hr, runAbandoned, hrun]

/-- Settles O6: the step runs the word, and the word is its command. -/
theorem stepRunsDecodedCommand : Obligations.StepRunsDecodedCommand :=
  fun s _ _ hc hh hr hd => (step_of_running hc hh hr).trans (runCommand_of_instr hd s)

/-- Settles O7, by the two outcomes of the error-state check. -/
theorem illegalWordRaises : Obligations.IllegalWordRaises := by
  intro s c why hc hh hr hd
  rw [step_of_running hc hh hr, runCommand_of_illegal hd, State.illegalWord]
  refine ⟨fun he => ?_, fun he => ?_⟩
  · rw [unlessErr_of_ok he, raise_of_ok he]
  · rw [unlessErr_of_err he]
    rfl

/-- Settles O8, by who moves: the host, the command, or the command as `rst_n` meets it. -/
theorem everyStepAnswers : Obligations.EveryStepAnswers := by
  intro s
  by_cases hw : s.cmd = none ∨ s.held = true
  · exact ⟨_, step_of_waiting hw⟩
  obtain ⟨hc, hh⟩ := not_or.mp hw
  obtain ⟨c, hc⟩ := Option.ne_none_iff_exists'.mp hc
  have hh := Bool.eq_false_of_not_eq_true hh
  obtain ⟨t, ht⟩ := runCommand_next c s
  cases hr : s.resetNext with
  | none => exact ⟨t, (step_of_running hc hh hr).trans ht⟩
  | some reset => exact ⟨_, step_of_reset hc hh hr ht⟩

end Sys2Proof.Machine
end

section
/-! PROOFS. What BUILD ends in (R143, R144, R147): FREQ_OVERFLOW, EMPTY, SINGLE, MULTI or LEN_OVERFLOW, and that the
same FREQ gives the same state again. -/

namespace Sys2Proof.Machine

/-- The sum that BUILD checks is the sum of FREQ's entries (R143). -/
theorem freqTotal_eq_sum_toList (freq : Table Data) : freqTotal freq = (freq.toList.map BitVec.toNat).sum := by
  have h : (entries freq).map Prod.snd = freq.toList :=
    List.map_snd_zip (by rw [allSyms_length, Vector.length_toList])
  rw [freqTotal, ← h, List.map_map]
  rfl

/-- The sum fits in 64 bits, as BUILD checks it (R143). -/
theorem freqTotal_fits {freq : Table Data} (h : (freq.toList.map BitVec.toNat).sum < 2 ^ 64) :
    ¬ freqTotal freq ≥ Config.freqLimit := by
  rw [freqTotal_eq_sum_toList]
  exact Nat.not_le.mpr h

theorem exec_build_of_ok {s : State} (he : s.err = false) : exec .build s = .next s.build :=
  congrArg Host.Outcome.next (unlessErr_of_ok he _)

/-- Outside the error state BUILD ends in what its body gives. -/
theorem eq_build_of_exec {s t : State} (he : s.err = false) (h : exec .build s = .next t) : t = s.build := by
  rw [exec_build_of_ok he] at h
  exact (Host.Outcome.next.inj h).symm

/-- Settles O28: the first thing BUILD does is to check the sum. -/
theorem buildRefusesOverflow : Obligations.BuildRefusesOverflow := by
  intro s he hsum
  rw [← freqTotal_eq_sum_toList] at hsum
  rw [exec_build_of_ok he, build_refused hsum, raise_of_ok he]
  rfl

theorem leafNodes_of_live_singleton {freq : Table Data} {x : Sym} (h : live freq = [x]) :
    leafNodes freq = [leafNode freq x] := by
  rw [leafNodes, h, List.map_singleton]

/-- Settles O29, by the cases of BUILD that make no tree. -/
theorem buildOfFewSymbols : Obligations.BuildOfFewSymbols := by
  intro s he hsum
  have hfits := freqTotal_fits hsum
  refine ⟨fun hl => ⟨s.withLeaves.nodes, ?_⟩, fun x hl => ⟨s.withLeaves.nodes, ?_, ?_⟩⟩
  · have hn : s.withLeaves.nnodes = 0#10 := by
      rw [State.withLeaves, State.setArena, leafNodes_length, hl, List.length_nil]
    rw [exec_build_of_ok he, build_empty hfits hl, ← hn]
    rfl
  · have hw : s.withLeaves.nodes = writeArena s.nodes [leafNode s.freq x] := by
      rw [State.withLeaves, State.setArena, leafNodes_of_live_singleton hl]
    rw [hw, writeArena_getElem?]
    rfl
  · have hn : s.withLeaves.nnodes = 1#10 := by
      rw [State.withLeaves, State.setArena, leafNodes_length, hl, List.length_singleton]
    rw [exec_build_of_ok he, build_single hfits hl, ← hn]
    rfl

/-- The arena of a tree is `2n - 1` nodes (R145). -/
theorem pairNodes_leafNodes_length {freq : Table Data} (h2 : 2 ≤ (live freq).length) :
    (pairNodes (leafNodes freq)).length = 2 * (live freq).length - 1 := by
  rw [pairNodes_length _ (List.ne_nil_of_length_pos (by rw [leafNodes_length]; omega)), leafNodes_length]

theorem withTree_nnodes {s : State} (h2 : 2 ≤ (live s.freq).length) :
    s.withTree.nnodes = BitVec.ofNat 10 (2 * (live s.freq).length - 1) := by
  rw [State.withTree, State.setArena, pairNodes_leafNodes_length h2]

/-- BUILD of lengths up to 32, from the command on (R147). -/
theorem exec_build_fits {s : State} (he : s.err = false) (hfits : ¬ freqTotal s.freq ≥ Config.freqLimit)
    (h2 : 2 ≤ (live s.freq).length) (hmax : maxLen (treeLens s.freq) ≤ 32) :
    exec .build s = .next ({ s.withTree with
      code := canonTable (treeLens s.freq) (tableFill 0#32), mode := .multi }.respondOk
        (BitVec.ofNat 64 (live s.freq).length)) := by
  rw [exec_build_of_ok he, build_tree hfits h2, buildTree_fits (Nat.not_lt.mpr hmax)]

/-- Settles O32: MAXLEN of the lengths that DEPTHS makes decides. -/
theorem buildLimitsLengths : Obligations.BuildLimitsLengths := by
  intro s he hsum h2
  have hfits := freqTotal_fits hsum
  refine ⟨s.withTree.nodes, treeLens s.freq, fun hmax => ?_, fun hmax => ?_⟩
  · rw [exec_build_fits he hfits h2 hmax, ← withTree_nnodes h2]
    rfl
  · rw [exec_build_of_ok he, build_tree hfits h2, buildTree_overflow hmax, raise_of_ok (by exact he),
      ← withTree_nnodes h2]
    rfl

/-- No length of a tree is above the number of its internal nodes (R146). -/
theorem maxLen_treeLens_le {freq : Table Data} (h2 : 2 ≤ (live freq).length) :
    maxLen (treeLens freq) ≤ (live freq).length - 1 := by
  obtain ⟨y, hy⟩ := List.exists_mem_of_length_pos (show 0 < (live freq).length by omega)
  rw [← present_treeLens freq h2] at hy
  obtain ⟨x, hx, e⟩ := maxLen_mem hy
  rw [present_treeLens freq h2] at hx
  have hm : maxLen (treeLens freq) ∈ (live freq).map fun x => (tableGet (treeLens freq) x).toNat :=
    e ▸ List.mem_map_of_mem hx
  rw [map_toNat_treeLens freq h2, List.mem_map] at hm
  obtain ⟨k, hk, e⟩ := hm
  rw [← e]
  exact (treeDepths_fillsTree freq h2).le k hk

/-- Settles O33: the lengths are at most 32, so BUILD makes the table. -/
theorem buildOfTwoTo33Completes : Obligations.BuildOfTwoTo33Completes := by
  intro s he hsum h2 h33
  have hmax : maxLen (treeLens s.freq) ≤ 32 := (maxLen_treeLens_le h2).trans (by omega)
  exact ⟨_, exec_build_fits he (freqTotal_fits hsum) h2 hmax, rfl, rfl, he, present_treeLens s.freq h2⟩

/-- A BUILD that ends outside the error state has not refused the sum (R143). -/
theorem freqTotal_fits_of_build {s : State} (h : s.build.err = false) : ¬ freqTotal s.freq ≥ Config.freqLimit := by
  intro hsum
  rw [build_refused hsum] at h
  simp at h

/-- A BUILD of a tree that ends outside the error state has lengths up to 32 (R147). -/
theorem maxLen_le_of_build {s : State} (h2 : 2 ≤ (live s.freq).length) (h : s.build.err = false) :
    maxLen (treeLens s.freq) ≤ 32 := by
  refine Nat.not_lt.mp fun hmax => ?_
  rw [build_tree (freqTotal_fits_of_build h) h2, buildTree_overflow hmax] at h
  simp at h

/-- Settles O34: outside the error state BUILD leaves lengths up to 32, and the lengths of a tree are then complete. -/
theorem buildLengthsAreComplete : Obligations.BuildLengthsAreComplete := by
  intro s t he h2 h ht
  obtain rfl := eq_build_of_exec he h
  have hmax := maxLen_le_of_build h2 ht
  rw [exec_build_fits he (freqTotal_fits_of_build ht) h2 hmax] at h
  rw [← Host.Outcome.next.inj h]
  exact treeLens_complete s.freq h2 hmax

/-- Writing an arena again changes nothing. -/
theorem writeArena_writeArena (v : Vector Node 511) (arena : List Node) :
    writeArena (writeArena v arena) arena = writeArena v arena := by
  refine Vector.ext fun k hk => Option.some.inj ?_
  rw [← Vector.getElem?_eq_getElem hk, ← Vector.getElem?_eq_getElem hk, writeArena_getElem?]
  split
  · next h => rw [writeArena_getElem?, if_pos h]
  · rfl

/-- BUILD after a BUILD of the same FREQ gives the same state (R143). -/
theorem build_build {s : State} (h : s.build.err = false) : s.build.build = s.build := by
  have hfits := freqTotal_fits_of_build h
  rcases build_cases s with hsum | ⟨-, hl | ⟨x, hl⟩ | hl⟩
  · exact absurd hsum hfits
  · rw [build_empty hfits hl, build_empty (by exact hfits) (by exact hl)]
    simp only [State.respondOk, State.respond, State.withLeaves, State.setArena, writeArena_writeArena]
  · rw [build_single hfits hl, build_single (by exact hfits) (by exact hl)]
    simp only [State.respondOk, State.respond, State.withLeaves, State.setArena, writeArena_writeArena]
  · have hmax := Nat.not_lt.mpr (maxLen_le_of_build hl h)
    rw [build_tree hfits hl, buildTree_fits hmax, build_tree (by exact hfits) (by exact hl)]
    refine (buildTree_fits (by exact hmax)).trans ?_
    simp only [State.respondOk, State.respond, State.withTree, State.setArena, writeArena_writeArena]

/-- Settles O35: a BUILD that ends outside the error state began there, and writes what it has written already. -/
theorem buildRepeatedIsSame : Obligations.BuildRepeatedIsSame := by
  intro s t h ht
  have he : s.err = false := by
    refine Bool.eq_false_of_not_eq_true fun he => ?_
    rw [← Host.Outcome.next.inj h, unlessErr_of_err he] at ht
    exact Bool.false_ne_true (ht.symm.trans he)
  obtain rfl := eq_build_of_exec he h
  rw [exec_build_of_ok ht, build_build ht]

end Sys2Proof.Machine
end

section
/-! PROOFS. The nodes that PAIR makes (R140, R145). The queue holds the keys of the nodes that no internal node has taken
yet; a turn takes the two least of them, so each internal node stands over the two least of its queue. -/

namespace Sys2Proof.Machine

/-- Slot `id` holds an internal node over the two nodes of least key in its queue, the lesser on the left (R145). -/
structure PairedNode (n : Nat) (v : Vector Node 511) (id : Nat) : Prop where
  internal : ∃ (l r : NodeId) (f : Data), v[id]? = some (Node.mk false 0#8 l r f)
  sum : slotFreq v id = slotFreq v (slotLeft v id) + slotFreq v (slotRight v id)
  left_inQueue : inQueue n v id (slotLeft v id)
  right_inQueue : inQueue n v id (slotRight v id)
  ordered : keyBefore v (slotLeft v id) (slotRight v id)
  least : ∀ c, inQueue n v id c → c ≠ slotLeft v id → c ≠ slotRight v id → keyBefore v (slotRight v id) c

/-! ### Arenas that agree below a node -/

/-- Two arenas that agree in a slot agree in its fields. -/
theorem slotFields_congr {v w : Vector Node 511} {i : Nat} (h : w[i]? = v[i]?) :
    slotFreq w i = slotFreq v i ∧ slotLeft w i = slotLeft v i ∧ slotRight w i = slotRight v i := by
  simp only [slotFreq, slotLeft, slotRight, h, and_self]

/-- The queue at node `id` is a matter of the slots below it (R145). -/
theorem inQueue_congr {n id c : Nat} {v w : Vector Node 511} (h : ∀ i < id, w[i]? = v[i]?) :
    inQueue n w id c ↔ inQueue n v id c := by
  refine and_congr_right fun _ => forall₃_congr fun j _ hj => ?_
  obtain ⟨-, hl, hr⟩ := slotFields_congr (h j hj)
  rw [hl, hr]

/-- So is the order of two nodes below it (R140). -/
theorem keyBefore_congr {id a b : Nat} {v w : Vector Node 511} (h : ∀ i < id, w[i]? = v[i]?) (ha : a < id)
    (hb : b < id) : keyBefore w a b ↔ keyBefore v a b := by
  rw [keyBefore, keyBefore, (slotFields_congr (h a ha)).1, (slotFields_congr (h b hb)).1]

/-- Which nodes `id` pairs is a matter of the slots up to it (R145). -/
theorem PairedNode.congr {n id : Nat} {v w : Vector Node 511} (h : PairedNode n v id)
    (hw : ∀ i ≤ id, w[i]? = v[i]?) : PairedNode n w id := by
  have hlt : ∀ i < id, w[i]? = v[i]? := fun i hi => hw i hi.le
  obtain ⟨hf, hl, hr⟩ := slotFields_congr (hw id le_rfl)
  have hleft := h.left_inQueue.1
  have hright := h.right_inQueue.1
  constructor
  · rw [hw id le_rfl]
    exact h.internal
  · rw [hf, hl, hr, (slotFields_congr (hlt _ hleft)).1, (slotFields_congr (hlt _ hright)).1]
    exact h.sum
  · rw [hl, inQueue_congr hlt]
    exact h.left_inQueue
  · rw [hr, inQueue_congr hlt]
    exact h.right_inQueue
  · rw [hl, hr, keyBefore_congr hlt hleft hright]
    exact h.ordered
  · intro c hc
    rw [hl, hr, keyBefore_congr hlt hright hc.1]
    exact h.least c ((inQueue_congr hlt).mp hc)

/-! ### The queue -/

/-- The keys in PAIR's queue are those of the nodes that are in it when node `m` is made; no earlier node's child is at
`m` or above, and the frequencies have a sum that fits in 64 bits (R143, R145). -/
structure QueueTracks (n : Nat) (v : Vector Node 511) (q : List Key) (m : Nat) : Prop where
  mem : ∀ c, c ∈ q.map Prod.snd ↔ inQueue n v m c
  freq : ∀ k ∈ q, slotFreq v k.2 = k.1
  children : ∀ j, n ≤ j → j < m → slotLeft v j < m ∧ slotRight v j < m
  total : (q.map Prod.fst).sum < 2 ^ 64

theorem QueueTracks.id_lt {n m : Nat} {v : Vector Node 511} {q : List Key} (h : QueueTracks n v q m) {k : Key}
    (hk : k ∈ q) : k.2 < m :=
  ((h.mem k.2).mp (List.mem_map_of_mem hk)).1

theorem QueueTracks.congr {n m : Nat} {v w : Vector Node 511} {q : List Key} (h : QueueTracks n v q m)
    (hw : ∀ i < m, w[i]? = v[i]?) : QueueTracks n w q m where
  mem c := (h.mem c).trans (inQueue_congr hw).symm
  freq k hk := (slotFields_congr (hw _ (h.id_lt hk))).1.trans (h.freq k hk)
  children j hn hj := by
    obtain ⟨-, hl, hr⟩ := slotFields_congr (hw j hj)
    rw [hl, hr]
    exact h.children j hn hj
  total := h.total

/-- The queue after node `m` is made has lost the children of `m` and gained `m` (R145). -/
theorem inQueue_succ {n m c : Nat} {v : Vector Node 511} (hn : n ≤ m)
    (hch : ∀ j, n ≤ j → j < m + 1 → slotLeft v j < m ∧ slotRight v j < m) :
    inQueue n v (m + 1) c ↔ (inQueue n v m c ∧ c ≠ slotLeft v m ∧ c ≠ slotRight v m) ∨ c = m := by
  constructor
  · rintro ⟨hc, hfree⟩
    rcases Nat.lt_succ_iff_lt_or_eq.mp hc with hc | rfl
    · obtain ⟨hl, hr⟩ := hfree m hn (Nat.lt_succ_self m)
      exact .inl ⟨⟨hc, fun j h1 h2 => hfree j h1 (Nat.lt_succ_of_lt h2)⟩, hl.symm, hr.symm⟩
    · exact .inr rfl
  · rintro (⟨⟨hc, hfree⟩, hl, hr⟩ | rfl)
    · refine ⟨Nat.lt_succ_of_lt hc, fun j h1 h2 => ?_⟩
      rcases Nat.lt_succ_iff_lt_or_eq.mp h2 with h2 | rfl
      · exact hfree j h1 h2
      · exact ⟨hl.symm, hr.symm⟩
    · refine ⟨Nat.lt_succ_self c, fun j h1 h2 => ?_⟩
      obtain ⟨hl, hr⟩ := hch j h1 h2
      exact ⟨hl.ne, hr.ne⟩

/-- Of two nodes the one comes first that the other's key is not below (R140). -/
theorem keyBefore_of_keyLt {v : Vector Node 511} {a b : Key} (ha : slotFreq v a.2 = a.1) (hb : slotFreq v b.2 = b.1)
    (hne : a.2 ≠ b.2) (h : keyLt b a = false) : keyBefore v a.2 b.2 := by
  rw [← Bool.not_eq_true, keyLt_iff] at h
  rw [keyBefore, ha, hb]
  omega

/-! ### A turn of PAIR -/

section
variable {n : Nat} {v : Vector Node 511} {q q1 q2 : List Key} {a b : Key}

/-- A turn takes two keys out of the queue (R145). -/
theorem perm_of_extractMin (h1 : extractMin q = some (a, q1)) (h2 : extractMin q1 = some (b, q2)) :
    q.Perm (a :: b :: q2) :=
  (extractMin_spec h1).1.trans ((extractMin_spec h2).1.cons a)

/-- The two keys that a turn takes name different nodes, and neither is left in the queue (R145). -/
theorem ids_distinct (hnd : (q.map Prod.snd).Nodup) (p : q.Perm (a :: b :: q2)) :
    a.2 ≠ b.2 ∧ a.2 ∉ q2.map Prod.snd ∧ b.2 ∉ q2.map Prod.snd := by
  have h : (a.2 :: b.2 :: q2.map Prod.snd).Nodup := (p.map Prod.snd).nodup_iff.mp hnd
  simp only [List.nodup_cons, List.mem_cons, not_or] at h
  obtain ⟨⟨hab, ha⟩, hb, -⟩ := h
  exact ⟨hab, ha, hb⟩

/-- The sum that PAIR gives a node does not wrap (R145). -/
theorem QueueTracks.sum_lt {m : Nat} (h : QueueTracks n v q m) (p : q.Perm (a :: b :: q2)) :
    a.1 + (b.1 + (q2.map Prod.fst).sum) < 2 ^ 64 := by
  have := h.total
  rwa [(p.map Prod.fst).sum_eq] at this

/-- The fields of the node that a turn makes (R145). -/
theorem QueueTracks.slotFields_joinNode {m : Nat} (h : QueueTracks n v q m) (p : q.Perm (a :: b :: q2)) (hm : m < 512)
    (hnode : v[m]? = some (joinNode a b)) :
    slotFreq v m = a.1 + b.1 ∧ slotLeft v m = a.2 ∧ slotRight v m = b.2 := by
  have ha := h.id_lt (p.mem_iff.mpr (List.mem_cons_self ..))
  have hb := h.id_lt (p.mem_iff.mpr (List.mem_cons_of_mem _ (List.mem_cons_self ..)))
  have hsum := h.sum_lt p
  simp only [slotFreq, slotLeft, slotRight, hnode, Option.getD_some, joinNode, BitVec.toNat_ofNat]
  omega

/-- The node that a turn makes is over the two least of its queue (R145). -/
theorem QueueTracks.pairedNode {m : Nat} (h : QueueTracks n v q m) (hnd : (q.map Prod.snd).Nodup) (hm : m < 512)
    (h1 : extractMin q = some (a, q1)) (h2 : extractMin q1 = some (b, q2)) (hnode : v[m]? = some (joinNode a b)) :
    PairedNode n v m := by
  have p := perm_of_extractMin h1 h2
  obtain ⟨hp1, hleast1⟩ := extractMin_spec h1
  obtain ⟨hp2, hleast2⟩ := extractMin_spec h2
  obtain ⟨hf, hl, hr⟩ := h.slotFields_joinNode p hm hnode
  obtain ⟨hab, -, -⟩ := ids_distinct hnd p
  have ha : a ∈ q := p.mem_iff.mpr (by simp)
  have hb : b ∈ q := p.mem_iff.mpr (by simp)
  constructor
  · exact ⟨_, _, _, hnode⟩
  · rw [hf, hl, hr, h.freq a ha, h.freq b hb]
  · rw [hl]; exact (h.mem _).mp (List.mem_map_of_mem ha)
  · rw [hr]; exact (h.mem _).mp (List.mem_map_of_mem hb)
  · rw [hl, hr]; exact keyBefore_of_keyLt (h.freq a ha) (h.freq b hb) hab (hleast1 b hb)
  · rw [hl, hr]
    intro c hc hca hcb
    obtain ⟨k, hk, rfl⟩ := List.mem_map.mp ((h.mem c).mpr hc)
    have hk1 : k ∈ q1 := by
      rcases List.mem_cons.mp (hp1.mem_iff.mp hk) with rfl | hk
      · exact absurd rfl hca
      · exact hk
    exact keyBefore_of_keyLt (h.freq b hb) (h.freq k hk) hcb.symm (hleast2 k hk1)

/-- After the turn the queue is that of the next node (R145). -/
theorem QueueTracks.next {m : Nat} (h : QueueTracks n v q m) (hnd : (q.map Prod.snd).Nodup) (hn : n ≤ m) (hm : m < 512)
    (p : q.Perm (a :: b :: q2)) (hnode : v[m]? = some (joinNode a b)) :
    QueueTracks n v (q2 ++ [(a.1 + b.1, m)]) (m + 1) := by
  obtain ⟨hf, hl, hr⟩ := h.slotFields_joinNode p hm hnode
  have hch : ∀ j, n ≤ j → j < m + 1 → slotLeft v j < m ∧ slotRight v j < m := fun j h1 h2 => by
    rcases Nat.lt_succ_iff_lt_or_eq.mp h2 with h2 | rfl
    · exact h.children j h1 h2
    · rw [hl, hr]
      exact ⟨h.id_lt (p.mem_iff.mpr (by simp)), h.id_lt (p.mem_iff.mpr (by simp))⟩
  constructor
  · intro c
    rw [inQueue_succ hn hch, hl, hr, ← h.mem, (p.map Prod.snd).mem_iff]
    obtain ⟨hab, ha2, hb2⟩ := ids_distinct hnd p
    simp only [List.map_append, List.map_cons, List.map_nil, List.mem_append, List.mem_cons, List.not_mem_nil, or_false]
    refine or_congr_left ⟨fun hc => ⟨.inr (.inr hc), fun e => ha2 (e ▸ hc), fun e => hb2 (e ▸ hc)⟩, ?_⟩
    rintro ⟨hc | hc | hc, hca, hcb⟩
    · exact absurd hc hca
    · exact absurd hc hcb
    · exact hc
  · intro k hk
    rcases List.mem_append.mp hk with hk | hk
    · exact h.freq k (p.mem_iff.mpr (by simp [hk]))
    · rw [List.mem_singleton.mp hk, hf]
  · exact fun j h1 h2 => ⟨Nat.lt_succ_of_lt (hch j h1 h2).1, Nat.lt_succ_of_lt (hch j h1 h2).2⟩
  · have := h.sum_lt p
    rw [List.map_append, List.sum_append, List.map_singleton, List.sum_singleton]
    omega

end

/-- A longer arena leaves the slots of a shorter one as they were (R145). -/
theorem writeArena_prefix {arena arena' : List Node} (v : Vector Node 511) (h : arena <+: arena') {i : Nat}
    (hi : i < arena.length) : (writeArena v arena')[i]? = (writeArena v arena)[i]? := by
  obtain ⟨more, rfl⟩ := h
  rw [writeArena_getElem?, writeArena_getElem?, List.length_append, List.getElem?_append_left hi]
  exact if_congr (by omega) rfl rfl

/-- Every node that PAIR makes is over the two least of its queue (R145). -/
theorem pairLoop_pairedNode {n : Nat} (v : Vector Node 511) (j : Nat) (q : List Key) (arena : List Node)
    (hq : j < q.length) (hok : QueueOk q arena) (hn : n ≤ arena.length) (hN : arena.length + j ≤ 511)
    (h : QueueTracks n (writeArena v arena) q arena.length) (id : Nat) (h1 : arena.length ≤ id)
    (h2 : id < arena.length + j) : PairedNode n (writeArena v (pairLoop j q arena)) id := by
  induction j generalizing q arena with
  | zero => omega
  | succ j ih =>
    obtain ⟨a, b, q1, q2, e1, e2, e⟩ := pairLoop_succ j q arena (by omega)
    have p := perm_of_extractMin e1 e2
    have hlen : (arena ++ [joinNode a b]).length = arena.length + 1 := by simp
    have hnode : (writeArena v (arena ++ [joinNode a b]))[arena.length]? = some (joinNode a b) := by
      rw [writeArena_getElem?, if_pos (by omega), List.getElem?_concat_length]
    have h : QueueTracks n (writeArena v (arena ++ [joinNode a b])) q arena.length :=
      h.congr fun i hi => writeArena_prefix v (List.prefix_append ..) hi
    rw [e]
    rcases Nat.eq_or_lt_of_le h1 with rfl | h1
    · exact (h.pairedNode hok.1 (by omega) e1 e2 hnode).congr fun i hi =>
        writeArena_prefix v (pairLoop_prefix ..) (by omega)
    · refine ih _ _ ?_ (hok.next p) (by omega) (by omega) ?_ (by omega) (by omega)
      · have := p.length_eq
        simp only [List.length_cons, List.length_append, List.length_nil] at this ⊢
        omega
      · rw [hlen]
        exact h.next hok.1 hn (by omega) p hnode

/-! ### The leaves -/

/-- A leaf's key names a node of the leaves, each once (R144). -/
theorem leafKeys_queueOk (leaves : List Node) : QueueOk (leafKeys leaves) leaves := by
  refine ⟨by rw [leafKeys_ids]; exact List.nodup_range, fun k hk => ?_⟩
  have := List.mem_map_of_mem (f := Prod.snd) hk
  rwa [leafKeys_ids, List.mem_range] at this

/-- The frequencies of the leaves are those of the live symbols (R144). -/
theorem leafKeys_freqs (freq : Table Data) :
    (leafKeys (leafNodes freq)).map Prod.fst = (live freq).map fun x => (tableGet freq x).toNat := by
  have h : ((leafNodes freq).zipIdx).map Prod.fst = leafNodes freq := List.zipIdx_map_fst ..
  rw [leafKeys, List.map_map]
  calc _ = (((leafNodes freq).zipIdx).map Prod.fst).map fun n => n.freq.toNat := by rw [List.map_map]; rfl
    _ = _ := by rw [h, leafNodes, List.map_map]; rfl

/-- The live symbols' frequencies sum to no more than all frequencies do (R143). -/
theorem sum_live_le_freqTotal (freq : Table Data) :
    ((live freq).map fun x => (tableGet freq x).toNat).sum ≤ freqTotal freq := by
  rw [live_eq_filter, freqTotal_eq_sum]
  exact (List.filter_sublist.map _).sum_le_sum fun _ _ => Nat.zero_le _

/-- The queue that PAIR starts from is that of its first node (R145). -/
theorem queueTracks_leafKeys {freq : Table Data} (v : Vector Node 511) (hfits : ¬ freqTotal freq ≥ Config.freqLimit) :
    QueueTracks (live freq).length (writeArena v (leafNodes freq)) (leafKeys (leafNodes freq)) (live freq).length := by
  constructor
  · intro c
    rw [leafKeys_ids, List.mem_range, leafNodes_length, inQueue]
    exact ⟨fun h => ⟨h, fun j h1 h2 => absurd h2 (Nat.not_lt.mpr h1)⟩, And.left⟩
  · intro k hk
    have hlt := (leafKeys_queueOk (leafNodes freq)).2 k hk
    have h256 := live_length_le freq
    obtain ⟨⟨node, i⟩, hmem, rfl⟩ := List.mem_map.mp hk
    rw [List.mem_zipIdx_iff_getElem?] at hmem
    rw [leafNodes_length] at hlt
    rw [slotFreq, writeArena_getElem?, if_pos (by rw [leafNodes_length]; omega), hmem]
    rfl
  · exact fun j h1 h2 => absurd h2 (Nat.not_lt.mpr h1)
  · rw [leafKeys_freqs]
    exact (sum_live_le_freqTotal freq).trans_lt (Nat.not_le.mp hfits)

/-- Every internal node of BUILD's tree is over the two least of its queue (R145). -/
theorem withTree_pairedNode {s : State} (hfits : ¬ freqTotal s.freq ≥ Config.freqLimit) {id : Nat}
    (h1 : (live s.freq).length ≤ id) (h2 : id < 2 * (live s.freq).length - 1) :
    PairedNode (live s.freq).length s.withTree.nodes id := by
  have h256 := live_length_le s.freq
  have hn := leafNodes_length s.freq
  refine pairLoop_pairedNode s.nodes _ _ _ ?_ (leafKeys_queueOk _) hn.ge ?_ ?_ id ?_ ?_
  · rw [leafKeys_length]; omega
  · omega
  · rw [hn]; exact queueTracks_leafKeys s.nodes hfits
  · omega
  · omega

/-- The leaves of BUILD's tree stand in the order of the live symbols (R144). -/
theorem withTree_leaf {s : State} {k : Nat} {x : Sym} (hx : (live s.freq)[k]? = some x) :
    s.withTree.nodes[k]? = some (leafNode s.freq x) := by
  obtain ⟨hk, -⟩ := List.getElem?_eq_some_iff.mp hx
  have h256 := live_length_le s.freq
  rw [State.withTree, State.setArena, pairNodes, writeArena_prefix s.nodes (pairLoop_prefix ..)
    (by rwa [leafNodes_length]), writeArena_getElem?, if_pos (by rw [leafNodes_length]; omega), leafNodes,
    List.getElem?_map, hx, Option.map_some]

/-- BUILD of a tree leaves the tree and its lengths, whether they fit or not (R145 to R147). -/
theorem build_tree_fields {s : State} (hfits : ¬ freqTotal s.freq ≥ Config.freqLimit) (h2 : 2 ≤ (live s.freq).length) :
    s.build.nodes = s.withTree.nodes ∧ s.build.nnodes = s.withTree.nnodes ∧ s.build.len = treeLens s.freq := by
  rw [build_tree hfits h2]
  by_cases hmax : maxLen (treeLens s.freq) > Config.maxCodeLen
  · rw [buildTree_overflow hmax, State.raise_nodes, State.raise_nnodes, State.raise_len]
    exact ⟨rfl, rfl, rfl⟩
  · rw [buildTree_fits hmax]
    exact ⟨rfl, rfl, rfl⟩

/-- Settles O30: PAIR writes the leaves first, and then one node a turn over the two least of its queue. -/
theorem buildPairsLeastKeys : Obligations.BuildPairsLeastKeys := by
  intro s t he hsum h2 h
  have hfits := freqTotal_fits hsum
  obtain rfl := eq_build_of_exec he h
  obtain ⟨hnodes, hnnodes, -⟩ := build_tree_fields hfits h2
  rw [hnodes, hnnodes, withTree_nnodes h2]
  refine ⟨?_, fun k x hx => withTree_leaf hx, fun id h1 h3 => ?_⟩
  · have := live_length_le s.freq
    exact Nat.mod_eq_of_lt (by omega)
  · obtain ⟨internal, sum, left, right, ordered, least⟩ := withTree_pairedNode hfits h1 h3
    exact ⟨internal, sum, left, right, ordered, least⟩

end Sys2Proof.Machine
end

section
/-! PROOFS. The lengths that BUILD gives are the depths of the leaves (R146, R150). DEPTHS walks the internal nodes from
the root down the ids; a turn sets the depths of two children, which no other turn sets, and which have lower ids. -/

namespace Sys2Proof.Machine

/-- No two internal nodes have a child in common, and a node's children differ (R145, R150). -/
theorem PairedNode.children_ne {n id id' : Nat} {v : Vector Node 511} (h : PairedNode n v id') (hn : n ≤ id)
    (hlt : id < id') {c : Nat} (hc : c = slotLeft v id' ∨ c = slotRight v id') :
    c ≠ slotLeft v id ∧ c ≠ slotRight v id := by
  rcases hc with rfl | rfl
  · obtain ⟨hl, hr⟩ := h.left_inQueue.2 id hn hlt
    exact ⟨hl.symm, hr.symm⟩
  · obtain ⟨hl, hr⟩ := h.right_inQueue.2 id hn hlt
    exact ⟨hl.symm, hr.symm⟩

theorem PairedNode.left_ne_right {n id : Nat} {v : Vector Node 511} (h : PairedNode n v id) :
    slotLeft v id ≠ slotRight v id := fun e => by
  have := h.ordered
  rw [e, keyBefore] at this
  omega

/-- DEPTHS at an internal node sets the depths of its two children (R146). -/
theorem PairedNode.depthStep_eq {n id : Nat} {v : Vector Node 511} {arena : List Node} (h : PairedNode n v id)
    (ha : arena[id]? = v[id]?) (d : List Nat) :
    depthStep arena d id = (d.set (slotLeft v id) (d.getD id 0 + 1)).set (slotRight v id) (d.getD id 0 + 1) := by
  obtain ⟨l, r, f, hnode⟩ := h.internal
  simp [depthStep, ha, hnode, slotLeft, slotRight]

/-- The turn makes the children one deeper than the node. -/
theorem PairedNode.getD_depthStep_children {n id : Nat} {v : Vector Node 511} {arena : List Node} {d : List Nat}
    (h : PairedNode n v id) (ha : arena[id]? = v[id]?) (hd : id < d.length) :
    (depthStep arena d id).getD (slotLeft v id) 0 = d.getD id 0 + 1 ∧
      (depthStep arena d id).getD (slotRight v id) 0 = d.getD id 0 + 1 := by
  have hl := h.left_inQueue.1.trans hd
  have hr := h.right_inQueue.1.trans hd
  rw [h.depthStep_eq ha]
  generalize d.getD id 0 + 1 = e
  simp [List.getD_eq_getElem?_getD, h.left_ne_right.symm, hl, hr]

/-- The turn changes no other depth. -/
theorem PairedNode.getD_depthStep_other {n id c : Nat} {v : Vector Node 511} {arena : List Node} (d : List Nat)
    (h : PairedNode n v id) (ha : arena[id]? = v[id]?) (hc : c ≠ slotLeft v id ∧ c ≠ slotRight v id) :
    (depthStep arena d id).getD c 0 = d.getD c 0 := by
  obtain ⟨hl, hr⟩ := hc
  rw [h.depthStep_eq ha]
  simp [List.getD_eq_getElem?_getD, hl.symm, hr.symm]

/-- The depths of an arena of `N` nodes when DEPTHS has walked the internal nodes from the root down to `lo`, `k` of
them (R146). -/
def depthsFrom (arena : List Node) (N lo k : Nat) : List Nat :=
  (List.range' lo k).reverse.foldl (depthStep arena) (List.replicate N 0)

theorem nodeDepths_eq_depthsFrom (n : Nat) (arena : List Node) :
    nodeDepths n arena = depthsFrom arena (2 * n - 1) n (n - 1) := rfl

theorem depthsFrom_length (arena : List Node) (N lo k : Nat) : (depthsFrom arena N lo k).length = N := by
  rw [depthsFrom, foldl_depthStep_length, List.length_replicate]

theorem depthsFrom_succ (arena : List Node) (N lo k : Nat) :
    depthsFrom arena N lo (k + 1) = depthStep arena (depthsFrom arena N (lo + 1) k) lo := by
  rw [depthsFrom, List.range'_succ, List.reverse_cons, List.foldl_append]
  rfl

/-- At every point of the walk the root has depth 0, and the children of each walked node are one deeper than it
(R146). -/
theorem depthsFrom_children {n N : Nat} {v : Vector Node 511} {arena : List Node}
    (hv : ∀ id, n ≤ id → id < N → PairedNode n v id) (ha : ∀ id < N, arena[id]? = v[id]?) (k lo : Nat) (hlo : n ≤ lo)
    (hk : lo + k = N) :
    (depthsFrom arena N lo k).getD (N - 1) 0 = 0 ∧ ∀ id, lo ≤ id → id < N →
      (depthsFrom arena N lo k).getD (slotLeft v id) 0 = (depthsFrom arena N lo k).getD id 0 + 1 ∧
        (depthsFrom arena N lo k).getD (slotRight v id) 0 = (depthsFrom arena N lo k).getD id 0 + 1 := by
  induction k generalizing lo with
  | zero => exact ⟨by simp [depthsFrom], fun id h1 h2 => by omega⟩
  | succ k ih =>
    obtain ⟨hroot, hwalked⟩ := ih (lo + 1) (by omega) (by omega)
    have hlen := depthsFrom_length arena N (lo + 1) k
    have hpair := hv lo hlo (by omega)
    have halo := ha lo (by omega)
    have hleft := hpair.left_inQueue.1
    have hright := hpair.right_inQueue.1
    rw [depthsFrom_succ]
    generalize depthsFrom arena N (lo + 1) k = d at hroot hwalked hlen
    have hkeep : ∀ c, lo ≤ c → (depthStep arena d lo).getD c 0 = d.getD c 0 := fun c hc =>
      hpair.getD_depthStep_other d halo ⟨by omega, by omega⟩
    refine ⟨(hkeep _ (by omega)).trans hroot, fun id h1 h2 => ?_⟩
    rw [hkeep id h1]
    rcases Nat.eq_or_lt_of_le h1 with rfl | h1
    · exact hpair.getD_depthStep_children halo (by omega)
    · have hid := hv id (by omega) h2
      rw [hpair.getD_depthStep_other d halo (hid.children_ne hlo h1 (.inl rfl)),
        hpair.getD_depthStep_other d halo (hid.children_ne hlo h1 (.inr rfl))]
      exact hwalked id h1 h2

/-- The depth that BUILD's DEPTHS gives to node `id` (R146). -/
def treeDepth (freq : Table Data) (id : Nat) : Nat :=
  (nodeDepths (live freq).length (pairNodes (leafNodes freq))).getD id 0

/-- The root has depth 0, and a child one more than its parent (R146). -/
theorem treeDepth_children {s : State} (hfits : ¬ freqTotal s.freq ≥ Config.freqLimit)
    (h2 : 2 ≤ (live s.freq).length) :
    treeDepth s.freq (2 * (live s.freq).length - 2) = 0 ∧
      ∀ id, (live s.freq).length ≤ id → id < 2 * (live s.freq).length - 1 →
        treeDepth s.freq (slotLeft s.withTree.nodes id) = treeDepth s.freq id + 1 ∧
          treeDepth s.freq (slotRight s.withTree.nodes id) = treeDepth s.freq id + 1 := by
  have h256 := live_length_le s.freq
  simp only [treeDepth, nodeDepths_eq_depthsFrom]
  refine depthsFrom_children (fun id h1 h3 => withTree_pairedNode hfits h1 h3) (fun id hid => ?_) _ _ le_rfl (by omega)
  rw [State.withTree, State.setArena, writeArena_getElem?, if_pos (by rw [pairNodes_leafNodes_length h2]; omega)]

/-- A live symbol's length is the depth of its leaf (R146). -/
theorem treeLens_eq_treeDepth {freq : Table Data} (h2 : 2 ≤ (live freq).length) {k : Nat} {x : Sym}
    (hx : (live freq)[k]? = some x) : (tableGet (treeLens freq) x).toNat = treeDepth freq k := by
  obtain ⟨hk, -⟩ := List.getElem?_eq_some_iff.mp hx
  have h := congrArg (·[k]?) (map_toNat_treeLens freq h2)
  simpa only [treeDepth, List.getElem?_map, hx, List.getElem?_range hk, Option.map_some, Option.some.injEq] using h

/-- Settles O31: DEPTHS gives the nodes their depths, and the live symbols take those of their leaves. -/
theorem buildLengthsAreDepths : Obligations.BuildLengthsAreDepths := by
  intro s t he hsum h2 h
  have hfits := freqTotal_fits hsum
  obtain rfl := eq_build_of_exec he h
  obtain ⟨hnodes, -, hlen⟩ := build_tree_fields hfits h2
  obtain ⟨hroot, hchildren⟩ := treeDepth_children hfits h2
  rw [hnodes, hlen]
  refine ⟨present_treeLens s.freq h2, treeDepth s.freq, hroot, hchildren, fun k x hx => ?_⟩
  rw [State.lenOf, hlen, treeLens_eq_treeDepth h2 hx]

end Sys2Proof.Machine
end

section
/-! PROOFS. SETFREQ and the reads of the symbol tables (R141, R142, R185, R186). -/

namespace Sys2Proof.Machine

/-- Settles O26: the command's body, outside the error state. -/
theorem setfreqSetsEntry : Obligations.SetfreqSetsEntry :=
  fun _ _ _ he => ⟨rfl, congrArg Host.Outcome.next (unlessErr_of_ok he _)⟩

/-- Settles O27: the reads are the bodies of their commands, and what they can return is in the invariants. -/
theorem tableReadsReturnEntry : Obligations.TableReadsReturnEntry := by
  intro s sym he
  refine ⟨rfl, rfl, rfl, fun hinv => ⟨hinv.lenBound he sym, ?_⟩, ?_, ?_, ?_⟩
  · rintro (hm | habsent)
    · exact hinv.noneCode hm sym
    · exact hinv.absentCode sym habsent
  all_goals exact congrArg Host.Outcome.next (unlessErr_of_ok he _)

end Sys2Proof.Machine
end

section
/-! PROOFS. The canonical codes of a MULTI table by the order of CANON (R182): which symbols stand before a symbol, and
that the codes' spans fill the strings of 32 bits from the first code to the last (R183). -/

namespace Sys2Proof.Machine

/-! ### The order of CANON -/

theorem not_canonBefore_self (s : State) (x : Sym) : ¬ canonBefore s x x := by
  unfold canonBefore
  omega

theorem canonBefore_asymm {s : State} {x y : Sym} (h : canonBefore s x y) : ¬ canonBefore s y x := by
  unfold canonBefore at *
  omega

theorem canonBefore_lenOf_le {s : State} {x y : Sym} (h : canonBefore s x y) : s.lenOf x ≤ s.lenOf y := by
  unfold canonBefore at h
  omega

/-- The order of CANON is strict, because each present symbol stands in it once (R182). -/
theorem canonOrder_pairwise_canonBefore (s : State) : (canonOrder s.len).Pairwise (canonBefore s) := by
  have hnodup := (canonOrder_perm s.len).nodup_iff.mpr (present_nodup s.len)
  refine (canonOrder_pairwise s.len).imp₂ (fun x y hle hne => ?_) hnodup
  have hne : x.toNat ≠ y.toNat := fun e => hne (BitVec.eq_of_toNat_eq e)
  simp only [canonLe, Bool.or_eq_true, decide_eq_true_eq, Bool.and_eq_true, beq_iff_eq] at hle
  unfold canonBefore State.lenOf
  omega

/-- A present symbol parts the order of CANON into the symbols before it and those after it (R182). -/
theorem canonOrder_split {s : State} {x : Sym} (hx : x ∈ present s.len) :
    ∃ pre post, canonOrder s.len = pre ++ x :: post ∧
      (∀ y, y ∈ pre ↔ y ∈ present s.len ∧ canonBefore s y x) ∧
      (∀ y, y ∈ post ↔ y ∈ present s.len ∧ canonBefore s x y) := by
  obtain ⟨pre, post, hord⟩ := List.append_of_mem ((canonOrder_perm s.len).mem_iff.mpr hx)
  have hpair := canonOrder_pairwise_canonBefore s
  rw [hord] at hpair
  obtain ⟨-, htail, hpre⟩ := List.pairwise_append.mp hpair
  have hpre : ∀ y ∈ pre, canonBefore s y x := fun y hy => hpre y hy x (by simp)
  have hpost := (List.pairwise_cons.mp htail).1
  have hmem : ∀ y, y ∈ present s.len ↔ y ∈ pre ∨ y = x ∨ y ∈ post := fun y => by
    rw [← (canonOrder_perm s.len).mem_iff, hord, List.mem_append, List.mem_cons]
  refine ⟨pre, post, hord, fun y => ⟨fun hy => ⟨(hmem y).mpr (.inl hy), hpre y hy⟩, fun ⟨hy, h⟩ => ?_⟩,
    fun y => ⟨fun hy => ⟨(hmem y).mpr (.inr (.inr hy)), hpost y hy⟩, fun ⟨hy, h⟩ => ?_⟩⟩
  · rcases (hmem y).mp hy with hm | rfl | hm
    · exact hm
    · exact absurd h (not_canonBefore_self s y)
    · exact absurd h (canonBefore_asymm (hpost y hm))
  · rcases (hmem y).mp hy with hm | rfl | hm
    · exact absurd h (canonBefore_asymm (hpre y hm))
    · exact absurd h (not_canonBefore_self s y)
    · exact hm

/-! ### The spans of the codes -/

/-- A shorter code takes as many strings as all its extensions to a longer length take together (R181). -/
theorem codeSpan_eq_mul {s : State} {x y : Sym} (hxy : s.lenOf x ≤ s.lenOf y) (hy : s.lenOf y ≤ 32) :
    codeSpan s.len x = 2 ^ (s.lenOf y - s.lenOf x) * codeSpan s.len y := by
  rw [codeSpan, codeSpan, ← Nat.pow_add]
  unfold State.lenOf at *
  congr 1
  omega

/-- All codes of one length, taken together, take every string (R181). -/
theorem two_pow_mul_codeSpan {s : State} {x : Sym} (hx : s.lenOf x ≤ 32) :
    2 ^ s.lenOf x * codeSpan s.len x = 2 ^ 32 := by
  rw [codeSpan, ← Nat.pow_add]
  exact congrArg _ (Nat.add_sub_cancel' hx)

/-- A number below the spans of some codes together lies in one of the spans, laid one after the other. -/
theorem exists_span_of_lt {len : Table Byte} {xs : List Sym} {v : Nat} (h : v < spanSum len xs) :
    ∃ pre x post, xs = pre ++ x :: post ∧ spanSum len pre ≤ v ∧ v < spanSum len pre + codeSpan len x := by
  induction xs generalizing v with
  | nil => simp at h
  | cons y ys ih =>
    rw [spanSum_cons] at h
    by_cases hy : v < codeSpan len y
    · exact ⟨[], y, ys, rfl, Nat.zero_le _, by simpa using hy⟩
    · obtain ⟨pre, x, post, rfl, hlo, hhi⟩ := ih (v := v - codeSpan len y) (by omega)
      exact ⟨y :: pre, x, post, rfl, by rw [spanSum_cons]; omega, by rw [spanSum_cons]; omega⟩

/-- A complete code has a symbol, so a longest one (R37, R181). -/
theorem CompleteLens.exists_len_eq_maxLen {len : Table Byte} (h : CompleteLens len) :
    ∃ x ∈ present len, (tableGet len x).toNat = maxLen len := by
  obtain ⟨z, hz⟩ := List.exists_mem_of_length_pos (Nat.lt_of_lt_of_le Nat.two_pos h.1)
  exact maxLen_mem hz

section
variable {s : State} (hi : s.Inv) (hm : s.mode = .multi)
include hi hm

theorem State.Inv.lenOf_le_of_multi {x : Sym} (hx : x ∈ present s.len) : s.lenOf x ≤ 32 := by
  obtain ⟨⟨-, h32, -⟩, -⟩ := hi.multiTable hm
  exact h32 x hx

theorem State.Inv.spanSum_canonOrder : spanSum s.len (canonOrder s.len) = 2 ^ 32 := by
  obtain ⟨⟨-, -, hkraft⟩, -⟩ := hi.multiTable hm
  rw [← kraftSum_eq_spanSum, hkraft]

/-- The first code is 0 (R182). -/
theorem State.Inv.codeOf_first {x : Sym} (hx : x ∈ present s.len)
    (hfirst : ∀ y ∈ present s.len, ¬ canonBefore s y x) : s.codeOf x = 0 := by
  obtain ⟨pre, post, hord, hpre, -⟩ := canonOrder_split hx
  have hnil : pre = [] := List.eq_nil_iff_forall_not_mem.mpr fun y hy => by
    obtain ⟨hy, hyx⟩ := (hpre y).mp hy
    exact hfirst y hy hyx
  have hcode := hi.codeOf_mul_span hm hord
  rw [hnil, spanSum_nil] at hcode
  exact (Nat.mul_eq_zero.mp hcode).resolve_right (codeSpan_pos ..).ne'

/-- The next code is the previous one plus one, shifted left by the increase in length (R182). -/
theorem State.Inv.codeOf_next {x y : Sym} (hx : x ∈ present s.len) (hy : y ∈ present s.len)
    (hxy : canonBefore s x y) (hnext : ∀ z ∈ present s.len, ¬ (canonBefore s x z ∧ canonBefore s z y)) :
    s.codeOf y = (s.codeOf x + 1) * 2 ^ (s.lenOf y - s.lenOf x) := by
  obtain ⟨pre, post, hord, hpre, -⟩ := canonOrder_split hy
  obtain ⟨a, b, rfl⟩ := List.append_of_mem ((hpre x).mpr ⟨hx, hxy⟩)
  have hpair := canonOrder_pairwise_canonBefore s
  rw [hord] at hpair
  obtain ⟨-, hpair, -⟩ := List.pairwise_append.mp (List.pairwise_append.mp hpair).1
  obtain rfl : b = [] := List.eq_nil_iff_forall_not_mem.mpr fun z hz => by
    obtain ⟨hmem, hzy⟩ := (hpre z).mp (by simp [hz])
    exact hnext z hmem ⟨(List.pairwise_cons.mp hpair).1 z hz, hzy⟩
  have hcy := hi.codeOf_mul_span hm hord
  have hcx := hi.codeOf_mul_span hm (x := x) (pre := a) (post := y :: post) (by rw [hord]; simp)
  have hspan := codeSpan_eq_mul (canonBefore_lenOf_le hxy) (hi.lenOf_le_of_multi hm hy)
  refine Nat.eq_of_mul_eq_mul_right (codeSpan_pos s.len y) ?_
  calc s.codeOf y * codeSpan s.len y = spanSum s.len a + codeSpan s.len x := by simp [hcy]
    _ = (s.codeOf x + 1) * codeSpan s.len x := by rw [← hcx]; ring
    _ = _ := by rw [hspan, Nat.mul_assoc]

/-- The last code is the longest, and it is all ones (R182). -/
theorem State.Inv.codeOf_last {x : Sym} (hx : x ∈ present s.len)
    (hlast : ∀ y ∈ present s.len, ¬ canonBefore s x y) :
    s.lenOf x = maxLen s.len ∧ s.codeOf x = 2 ^ maxLen s.len - 1 := by
  have hlen : s.lenOf x = maxLen s.len := by
    obtain ⟨y, hy, hmax⟩ := maxLen_mem hx
    have hle : s.lenOf x ≤ maxLen s.len := len_le_maxLen s.len x
    have hnot := hlast y hy
    unfold canonBefore at hnot
    rw [← State.lenOf] at hmax
    omega
  refine ⟨hlen, ?_⟩
  obtain ⟨pre, post, hord, -, hpost⟩ := canonOrder_split hx
  have hnil : post = [] := List.eq_nil_iff_forall_not_mem.mpr fun y hy => by
    obtain ⟨hy, hxy⟩ := (hpost y).mp hy
    exact hlast y hy hxy
  have hend : (s.codeOf x + 1) * codeSpan s.len x = 2 ^ s.lenOf x * codeSpan s.len x := by
    rw [two_pow_mul_codeSpan (hi.lenOf_le_of_multi hm hx), ← hi.spanSum_canonOrder hm, hord, hnil, spanSum_append,
      spanSum_cons, spanSum_nil, ← hi.codeOf_mul_span hm hord]
    ring
  rw [← hlen, ← Nat.eq_of_mul_eq_mul_right (codeSpan_pos s.len x) hend, Nat.add_sub_cancel]

/-- A later code begins where an earlier one ends or after it (R182). -/
theorem State.Inv.code_succ_mul_le {x y : Sym} (hx : x ∈ present s.len) (hy : y ∈ present s.len)
    (hxy : canonBefore s x y) : (s.codeOf x + 1) * 2 ^ (s.lenOf y - s.lenOf x) ≤ s.codeOf y := by
  obtain ⟨pre, post, hord, hpre, -⟩ := canonOrder_split hy
  have hle := hi.code_end_le_code hm hord ((hpre x).mpr ⟨hx, hxy⟩)
  rw [codeSpan_eq_mul (canonBefore_lenOf_le hxy) (hi.lenOf_le_of_multi hm hy), ← Nat.mul_assoc] at hle
  exact Nat.le_of_mul_le_mul_right hle (codeSpan_pos ..)

/-- A bit string of length MAXLEN, spelled out to 32 bits, lies in the span of one code, which it begins with (R183
item 1). -/
theorem State.Inv.exists_code_prefix {bs : List Bool} (hbs : bs.length = maxLen s.len) :
    ∃ x ∈ present s.len, s.codeBits x <+: bs := by
  obtain ⟨hlens, -⟩ := hi.multiTable hm
  obtain ⟨y, hy, hmax⟩ := hlens.exists_len_eq_maxLen
  have h32 : s.lenOf y ≤ 32 := hi.lenOf_le_of_multi hm hy
  have hlt : bitsValue bs * codeSpan s.len y < spanSum s.len (canonOrder s.len) := by
    have hv := bitsValue_lt bs
    rw [hbs, ← hmax] at hv
    rw [hi.spanSum_canonOrder hm, ← two_pow_mul_codeSpan h32]
    exact Nat.mul_lt_mul_of_pos_right hv (codeSpan_pos ..)
  obtain ⟨pre, x, post, hord, hlo, hhi⟩ := exists_span_of_lt hlt
  have hx : x ∈ present s.len := (canonOrder_perm s.len).mem_iff.mp (by simp [hord])
  have hxy : s.lenOf x ≤ s.lenOf y := (len_le_maxLen s.len x).trans_eq hmax.symm
  have hdiv : bitsValue bs / 2 ^ (s.lenOf y - s.lenOf x) = s.codeOf x := by
    have hpos := codeSpan_pos s.len y
    rw [← hi.codeOf_mul_span hm hord, codeSpan_eq_mul hxy h32, ← Nat.mul_assoc] at hlo hhi
    rw [← Nat.add_mul, ← Nat.succ_mul] at hhi
    exact Nat.div_eq_of_lt_le (Nat.le_of_mul_le_mul_right hlo hpos) (Nat.lt_of_mul_lt_mul_right hhi)
  refine ⟨x, hx, bitsOf (bitsValue bs) (s.lenOf y - s.lenOf x), ?_⟩
  rw [State.codeBits, ← hdiv, ← bitsOf_add, Nat.add_sub_cancel' hxy, State.lenOf, hmax, ← hbs, bitsOf_bitsValue]

end

/-- Settles O40, by the place of a code among those before it in the order of CANON. -/
theorem canonicalCodes : Obligations.CanonicalCodes := fun _ hi hm =>
  ⟨fun _ hx => hi.codeOf_first hm hx, fun _ hx _ hy => hi.codeOf_next hm hx hy, fun _ hx => hi.codeOf_lt hm hx,
    fun _ hx => hi.codeOf_last hm hx⟩

/-- Settles O41: two codes take different strings, and all codes together take every string. -/
theorem codesPrefixFreeAndComplete : Obligations.CodesPrefixFreeAndComplete := fun _ hi hm =>
  ⟨(hi.prefixCode hm).prefixFree, fun _ hbs => hi.exists_code_prefix hm hbs⟩

/-- Settles O42: a code lies below the place where it ends, and a later one does not. -/
theorem shorterCodesAreLower : Obligations.ShorterCodesAreLower := fun _ hi hm _ hx _ hy hxy =>
  (Nat.mul_lt_mul_of_pos_right (Nat.lt_succ_self _) (Nat.two_pow_pos _)).trans_le
    (hi.code_succ_mul_le hm hx hy hxy)

end Sys2Proof.Machine
end

section
/-! PROOFS. SETLEN, GENCODE and RDENT (R180, R181, R187): the cases of GENCODE by the lengths it finds, and the fields
of an entry. -/

namespace Sys2Proof.Machine

/-! ### SETLEN -/

theorem lenAccepted_iff (len : Byte) : lenAccepted len = true ↔ len.toNat ≤ 32 := decide_eq_true_iff

theorem exec_setlen_of_ok {s : State} (he : s.err = false) (sym : Sym) (len : Byte) :
    exec (.setlen sym len) s = .next (s.loadLen sym len) :=
  congrArg Host.Outcome.next (unlessErr_of_ok he _)

/-- Settles O37, by the two cases of the operand's range. -/
theorem setlenLoadsLength : Obligations.SetlenLoadsLength := by
  intro s sym len he
  refine ⟨rfl, fun hlen => ?_, fun hlen => ?_⟩
  · rw [exec_setlen_of_ok he, State.loadLen, if_pos ((lenAccepted_iff len).mpr hlen)]
    rfl
  · rw [exec_setlen_of_ok he, State.loadLen, if_neg (mt (lenAccepted_iff len).mp (Nat.not_le.mpr hlen)),
      raise_of_ok he, BitVec.ofNat_toNat]

/-! ### GENCODE -/

theorem exec_gencode_of_ok {s : State} (he : s.err = false) : exec .gencode s = .next s.genCode :=
  congrArg Host.Outcome.next (unlessErr_of_ok he _)

/-- GENCODE of no symbol (R181). -/
theorem genCode_empty {s : State} (hp : present s.len = []) :
    s.genCode = { s with code := tableFill 0#32, mode := .empty }.respondOk 0#64 := by
  rw [State.genCode, hp]

/-- GENCODE of one symbol (R181). -/
theorem genCode_single {s : State} {x : Sym} (hp : present s.len = [x]) :
    s.genCode = if tableGet s.len x = 1#8 then { s with code := tableFill 0#32, mode := .single }.respondOk 1#64
      else s.refuseTable (s.lenOf x) := by
  rw [State.genCode, hp]
  rfl

/-- GENCODE of two or more symbols (R181). -/
theorem genCode_of_two_le {s : State} (h2 : 2 ≤ nsym s.len) :
    s.genCode = if 32 < maxLen s.len then s.refuseTable (maxLen s.len)
      else if kraftSum s.len ≠ 2 ^ 32 then s.refuseTable (kraftSum s.len)
      else { s with code := canonTable s.len (tableFill 0#32), mode := .multi }.respondOk
        (BitVec.ofNat 64 (nsym s.len)) := by
  unfold nsym at h2
  rcases hp : present s.len with _ | ⟨x, _ | ⟨y, rest⟩⟩
  · simp [hp] at h2
  · simp [hp] at h2
  · rw [State.genCode, hp]
    rfl

/-- GENCODE of a complete code (R181). -/
theorem genCode_multi {s : State} (h : CompleteLens s.len) :
    s.genCode = { s with code := canonTable s.len (tableFill 0#32), mode := .multi }.respondOk
      (BitVec.ofNat 64 (nsym s.len)) := by
  obtain ⟨y, hy, hmax⟩ := h.exists_len_eq_maxLen
  obtain ⟨h2, h32, hkraft⟩ := h
  have hmax : ¬ 32 < maxLen s.len := Nat.not_lt.mpr (hmax ▸ h32 y hy)
  rw [genCode_of_two_le h2, if_neg hmax, if_neg (not_not.mpr hkraft)]

theorem lenOf_eq_one_iff {s : State} {x : Sym} : s.lenOf x = 1 ↔ tableGet s.len x = 1#8 :=
  BitVec.toNat_inj (y := 1#8)

/-- Settles O38, by the three cases of GENCODE that make a table. -/
theorem gencodeBuildsTable : Obligations.GencodeBuildsTable := by
  intro s he
  rw [exec_gencode_of_ok he]
  refine ⟨fun hp => ?_, fun x hp h1 => ?_, fun hc => ?_⟩
  · rw [genCode_empty hp]
    rfl
  · rw [genCode_single hp, if_pos (lenOf_eq_one_iff.mp h1)]
    rfl
  · rw [genCode_multi hc]
    rfl

/-- What a refused GENCODE leaves, outside the error state (R181, R316). -/
theorem refuseTable_of_ok {s : State} (he : s.err = false) (arg : Nat) :
    s.refuseTable arg = { s with
      code := tableFill 0#32, mode := .none,
      err := true, errCode := .format, errArg := BitVec.ofNat 64 arg, errCmd := encodeWord .gencode,
      cmd := none, hold := none, rsp := some ⟨.error, 0#64⟩ } := by
  rw [State.refuseTable, raise_of_ok (by exact he)]
  rfl

/-- Settles O39: in each of the three cases GENCODE refuses the lengths with the argument given. -/
theorem gencodeRefusesLengths : Obligations.GencodeRefusesLengths := by
  intro s arg he hcases
  have hrefused : s.genCode = s.refuseTable arg := by
    rcases hcases with ⟨x, hp, hne, rfl⟩ | ⟨h2, hmax, rfl⟩ | ⟨h2, hmax, hkraft, rfl⟩
    · rw [genCode_single hp, if_neg (mt lenOf_eq_one_iff.mpr hne)]
    · rw [genCode_of_two_le h2, if_pos hmax]
    · rw [genCode_of_two_le h2, if_neg (Nat.not_lt.mpr hmax), if_pos hkraft]
  rw [exec_gencode_of_ok he, hrefused, refuseTable_of_ok he]
  rfl

/-- Settles O43: GENCODE builds the table that the invariants say is there. -/
theorem gencodeKeepsMultiTable : Obligations.GencodeKeepsMultiTable := by
  intro s hi he hm
  obtain ⟨hlens, hcode⟩ := hi.multiTable hm
  rw [exec_gencode_of_ok he, genCode_multi hlens, ← hcode, ← hm]
  rfl

/-! ### RDENT -/

/-- The fields of an entry stand one above the other and do not overlap (R187). -/
theorem packEntry_eq_ofNat_sum (s : State) (x : Sym) : s.packEntry x =
    BitVec.ofNat 64 (x.toNat + s.lenOf x * 2 ^ 8 + s.codeOf x * 2 ^ 16) := by
  have hsym := x.isLt
  have hlen : s.lenOf x < 2 ^ 8 := BitVec.isLt _
  rw [← or_mul_two_pow (by omega), ← or_mul_two_pow (by omega)]
  apply BitVec.eq_of_toNat_eq
  simp [State.packEntry, State.lenOf, State.codeOf, Nat.shiftLeft_eq]

theorem exec_rdent_of_ok {s : State} (he : s.err = false) {k : Byte} {o : Option Sym}
    (h : (present s.len)[k.toNat]? = o) :
    exec (.rdent k) s = .next (s.respondOk (o.elim allOnes s.packEntry)) := by
  refine congrArg Host.Outcome.next ((unlessErr_of_ok he _).trans ?_)
  rw [h]
  cases o <;> rfl

/-- Settles O44: the index names a present symbol or none, and the command answers with what it names. -/
theorem rdentReturnsEntry : Obligations.RdentReturnsEntry := by
  intro s k he
  refine ⟨rfl, fun hk => ?_, fun x hx => ?_⟩
  · rw [exec_rdent_of_ok he (List.getElem?_eq_none hk)]
    rfl
  · rw [exec_rdent_of_ok he hx, ← packEntry_eq_ofNat_sum]
    rfl

end Sys2Proof.Machine
end

section
/-! PROOFS. The bit writer (R220 to R224): what a run of PUTBIT appends to the bits written, and the padded byte that
FLUSH sends. -/

namespace Sys2Proof.Machine

/-! ### PUTBIT -/

/-- PUTBIT for each bit of a list appends the list to what the writer has put and counts it; nothing else changes
(R220). -/
theorem putBits_spec (s : State) (bs : List Bool) :
    ∃ acc nbits out, s.putBits bs = { s with
        bwAcc := acc, bwNbits := nbits, bwBitcnt := s.bwBitcnt + BitVec.ofNat 64 bs.length, out := s.out ++ out } ∧
      { s with bwAcc := acc, bwNbits := nbits, out := s.out ++ out }.writerBits = s.writerBits ++ bs := by
  induction bs generalizing s with
  | nil => exact ⟨s.bwAcc, s.bwNbits, [], by simp [State.putBits], by simp⟩
  | cons b bs ih =>
    obtain ⟨_, _, out, hput, hbits⟩ := putBit_spec s b
    obtain ⟨acc, nbits, out', hputs, hbits'⟩ := ih (s.putBit b)
    have hcount : s.bwBitcnt + 1#64 + BitVec.ofNat 64 bs.length = s.bwBitcnt + BitVec.ofNat 64 (b :: bs).length := by
      rw [BitVec.add_assoc, BitVec.ofNat_add_ofNat, List.length_cons, Nat.add_comm]
    rw [hput] at hputs hbits'
    refine ⟨acc, nbits, out ++ out', ?_, ?_⟩
    · rw [← hcount, ← List.append_assoc]
      exact (congrArg (State.putBits · bs) hput).trans hputs
    · rw [List.append_cons, ← hbits, ← List.append_assoc]
      exact hbits'

/-! ### WRSYM -/

theorem exec_wrsym_of_ok {s : State} (he : s.err = false) (sym : Sym) : exec (.wrsym sym) s = .next (s.writeSym sym) :=
  congrArg Host.Outcome.next (unlessErr_of_ok he _)

/-- WRSYM of a symbol that a valid table has a code for (R221). -/
theorem exec_wrsym_code {s : State} {sym : Sym} (he : s.err = false) (hm : s.mode ≠ .none)
    (hsym : sym ∈ present s.len) : exec (.wrsym sym) s = .next ((s.putBits (s.codeBits sym)).respondOk 0#64) := by
  rw [exec_wrsym_of_ok he, State.writeSym, if_neg hm, if_neg ((mem_present ..).mp hsym)]
  rfl

/-- Settles O45: the command puts the bits of the code one by one. -/
theorem wrsymPutsCode : Obligations.WrsymPutsCode := by
  intro s sym he hm hlen
  obtain ⟨acc, nbits, out, hput, hbits⟩ := putBits_spec s (s.codeBits sym)
  refine ⟨acc, nbits, out, ?_, hbits⟩
  rw [exec_wrsym_code he hm ((lenOf_ne_zero_iff s sym).mp hlen), hput, State.codeBits, bitsOf_length]
  rfl

/-- Settles O46, by the order of the two checks. -/
theorem wrsymRefuses : Obligations.WrsymRefuses := by
  intro s sym he
  rw [exec_wrsym_of_ok he, State.writeSym]
  refine ⟨fun hm => ?_, fun hm hlen => ?_⟩
  · rw [if_pos hm, raise_of_ok he]
  · have habsent : tableGet s.len sym = 0#8 := BitVec.eq_of_toNat_eq hlen
    rw [if_neg hm, if_pos habsent, raise_of_ok he, BitVec.ofNat_toNat]

/-! ### WRBITS -/

/-- Settles O47: the bits put are the low ones of DATA, whatever DATA holds above them. -/
theorem wrbitsPutsLowBits : Obligations.WrbitsPutsLowBits := by
  intro s len bits he
  refine ⟨rfl, fun hlen => ?_, fun hlen => ?_⟩
  · obtain ⟨acc, nbits, out, hput, hbits⟩ := putBits_spec s (bitsOf bits.toNat len.toNat)
    rw [bitsOf_length] at hput
    refine ⟨acc, nbits, out, congrArg Host.Outcome.next ((unlessErr_of_ok he _).trans ?_), ?_⟩
    · rw [if_pos ((lenAccepted_iff len).mpr hlen), State.putCode, hput]
      rfl
    · rw [bitsOf_mod _ _ _ le_rfl, hbits]
  · refine congrArg Host.Outcome.next ((unlessErr_of_ok he _).trans ?_)
    rw [if_neg (mt (lenAccepted_iff len).mp (Nat.not_le.mpr hlen)), raise_of_ok he, BitVec.ofNat_toNat]

/-! ### FLUSH and BWRST -/

theorem bitsOf_zero (l : Nat) : bitsOf 0 l = List.replicate l false := by
  induction l with
  | zero => rfl
  | succ l ih => rw [bitsOf, ih, Nat.zero_testBit, List.replicate_succ]

/-- The bits of a number shifted left are its own and then zeros (R10). -/
theorem bitsOf_mul_two_pow (v l k : Nat) : bitsOf (v * 2 ^ k) (l + k) = bitsOf v l ++ List.replicate k false := by
  rw [bitsOf_add, Nat.mul_div_cancel _ (Nat.two_pow_pos k), ← bitsOf_mod (v * 2 ^ k) k k le_rfl, Nat.mul_mod_left,
    bitsOf_zero]

/-- The byte that FLUSH sends is the pending bits and then zeros (R223). -/
theorem byteBits_paddedByte (s : State) : byteBits s.paddedByte =
    bitsOf s.bwAcc.toNat s.bwNbits.toNat ++ List.replicate (8 - s.bwNbits.toNat) false := by
  have h8 : s.bwNbits.toNat + (8 - s.bwNbits.toNat) = 8 := Nat.add_sub_cancel' s.bwNbits.isLt.le
  rw [← bitsOf_mul_two_pow, h8, byteBits, State.paddedByte, BitVec.toNat_shiftLeft, Nat.shiftLeft_eq,
    bitsOf_mod _ _ _ le_rfl]

/-- FLUSH with no bit pending (R223). -/
theorem exec_flush_empty {s : State} (he : s.err = false) (hn : s.bwNbits = 0#3) :
    exec .flush s = .next (s.respondOk s.bwBitcnt) := by
  refine congrArg Host.Outcome.next ((unlessErr_of_ok he _).trans (if_neg ?_))
  simp [hn]

/-- FLUSH with bits pending (R223). -/
theorem exec_flush_pending {s : State} (he : s.err = false) (hn : s.bwNbits ≠ 0#3) :
    exec .flush s = .next
      (({ s with bwAcc := 0#8, bwNbits := 0#3 }.outPush s.paddedByte).respondOk s.bwBitcnt) := by
  refine congrArg Host.Outcome.next ((unlessErr_of_ok he _).trans (if_pos (Nat.pos_of_ne_zero fun h0 => hn ?_)))
  exact BitVec.eq_of_toNat_eq h0

/-- Settles O48, by whether a bit is pending. -/
theorem flushPadsLastByte : Obligations.FlushPadsLastByte :=
  ⟨rfl, fun s he => ⟨fun hn => exec_flush_empty he hn,
    fun hn => ⟨s.paddedByte, exec_flush_pending he hn, byteBits_paddedByte s⟩⟩⟩

theorem exec_bwrst_of_ok {s : State} (he : s.err = false) :
    exec .bwrst s = .next ({ s with bwAcc := 0#8, bwNbits := 0#3, bwBitcnt := 0#64 }.respondOk 0#64) :=
  congrArg Host.Outcome.next (unlessErr_of_ok he _)

/-- Settles O49: the command's body, outside the error state. -/
theorem bwrstRestartsWriter : Obligations.BwrstRestartsWriter := ⟨rfl, fun _ he => exec_bwrst_of_ok he⟩

end Sys2Proof.Machine
end

section
/-! PROOFS. The round trip (R225, R257): the payload that BWRST, WRSYM and FLUSH push is the codes of the symbols and a
padding of zeros, and DECODE of the count gives the symbols back. -/

namespace Sys2Proof.Machine

/-! ### Commands one after the other -/

theorem execOk_of_next {i : Instr} {s t : State} {v : Data} (h : exec i s = .next (t.respondOk v)) :
    execOk i s = some (t.respondOk v) := by
  rw [execOk, h]
  rfl

theorem execAllOk_cons {i : Instr} {s t : State} (h : execOk i s = some t) (is : List Instr) :
    execAllOk (i :: is) s = execAllOk is t := by
  rw [execAllOk, h, Option.bind_some]

theorem execAllOk_singleton (i : Instr) (s : State) : execAllOk [i] s = execOk i s := by
  cases h : execOk i s <;> simp [execAllOk, h]

/-! ### Encoding -/

/-- PUTBIT does not look at the ports. -/
theorem respondOk_putBit (s : State) (v : Data) (b : Bool) : (s.respondOk v).putBit b = (s.putBit b).respondOk v := by
  by_cases h : s.bwNbits.toNat + 1 = 8 <;> simp [State.putBit, State.respondOk, State.respond, State.outPush, h]

theorem respondOk_putBits (s : State) (v : Data) (bs : List Bool) :
    (s.respondOk v).putBits bs = (s.putBits bs).respondOk v := by
  induction bs generalizing s with
  | nil => rfl
  | cons b bs ih =>
    have h := ih (s.putBit b)
    rwa [← respondOk_putBit] at h

/-- Nor does FLUSH. -/
theorem execOk_flush_respondOk (s : State) (v : Data) : execOk .flush (s.respondOk v) = execOk .flush s := rfl

theorem putBits_append (s : State) (bs bs' : List Bool) : s.putBits (bs ++ bs') = (s.putBits bs).putBits bs' :=
  List.foldl_append ..

/-- PUTBIT leaves the table and the error state as they are. -/
theorem putBits_table (s : State) (bs : List Bool) : (s.putBits bs).err = s.err ∧ (s.putBits bs).mode = s.mode ∧
    (s.putBits bs).len = s.len ∧ (s.putBits bs).codeBits = s.codeBits := by
  obtain ⟨acc, nbits, out, hput, -⟩ := putBits_spec s bs
  rw [hput]
  exact ⟨rfl, rfl, rfl, rfl⟩

/-- One WRSYM per symbol and then FLUSH is FLUSH after the bits of all the codes (R221, R225). -/
theorem execAllOk_wrsyms_flush {s : State} {xs : List Sym} (he : s.err = false) (hm : s.mode ≠ .none)
    (hxs : ∀ x ∈ xs, x ∈ present s.len) :
    execAllOk (xs.map .wrsym ++ [.flush]) s = execOk .flush (s.putBits (xs.flatMap s.codeBits)) := by
  induction xs generalizing s with
  | nil => exact execAllOk_singleton ..
  | cons x xs ih =>
    obtain ⟨herr, hmode, hlen, hcode⟩ := putBits_table s (s.codeBits x)
    have hcode : ((s.putBits (s.codeBits x)).respondOk 0#64).codeBits = s.codeBits := hcode
    have hx := execOk_of_next (exec_wrsym_code he hm (hxs x (by simp)))
    have hrest := ih (s := (s.putBits (s.codeBits x)).respondOk 0#64) (herr.trans he) (hmode ▸ hm)
      fun y hy => by rw [State.respondOk_len, hlen]; exact hxs y (by simp [hy])
    rw [List.map_cons, List.cons_append, execAllOk_cons hx, hrest, hcode, respondOk_putBits, execOk_flush_respondOk,
      ← putBits_append, List.flatMap_cons]

/-- After FLUSH the bits of OUT are all bits written and fewer than 8 zeros (R223). -/
theorem execOk_flush {s : State} (he : s.err = false) : ∃ (t : State) (out : List Byte) (k : Nat),
    execOk .flush s = some t ∧ t.out = s.out ++ out ∧ t.rsp = some ⟨.ok, s.bwBitcnt⟩ ∧
      t.out.flatMap byteBits = s.writerBits ++ List.replicate k false ∧ k < 8 := by
  by_cases hn : s.bwNbits = 0#3
  · refine ⟨_, [], 0, execOk_of_next (exec_flush_empty he hn), by simp, rfl, ?_, by omega⟩
    simp [State.writerBits, hn, bitsOf]
  · have hpos : s.bwNbits.toNat ≠ 0 := fun h0 => hn (BitVec.eq_of_toNat_eq h0)
    refine ⟨_, [s.paddedByte], 8 - s.bwNbits.toNat, execOk_of_next (exec_flush_pending he hn), rfl, rfl, ?_,
      by omega⟩
    rw [State.writerBits, List.append_assoc, ← byteBits_paddedByte]
    simp

/-- The state after BWRST (R224). -/
def State.bwrstarted (s : State) : State :=
  { s with bwAcc := 0#8, bwNbits := 0#3, bwBitcnt := 0#64 }.respondOk 0#64

theorem bwrstarted_writerBits (s : State) : s.bwrstarted.writerBits = s.out.flatMap byteBits := List.append_nil _

/-- The payload is the codes of the symbols, from the first bit of a byte on, and fewer than 8 zeros; FLUSH answers the
number of code bits (R223, R225). -/
theorem execAllOk_encode {e : State} {xs : List Sym} (he : e.err = false) (hm : e.mode ≠ .none)
    (hxs : ∀ x ∈ xs, x ∈ present e.len) : ∃ (e' : State) (payload : List Byte) (k : Nat),
    execAllOk ([.bwrst] ++ xs.map .wrsym ++ [.flush]) e = some e' ∧ e'.out = e.out ++ payload ∧
      e'.rsp = some ⟨.ok, BitVec.ofNat 64 (xs.flatMap e.codeBits).length⟩ ∧
      payload.flatMap byteBits = xs.flatMap e.codeBits ++ List.replicate k false ∧ k < 8 := by
  obtain ⟨acc, nbits, out, hput, hbits⟩ := putBits_spec e.bwrstarted (xs.flatMap e.codeBits)
  have hrun : execAllOk ([.bwrst] ++ xs.map .wrsym ++ [.flush]) e =
      execOk .flush (e.bwrstarted.putBits (xs.flatMap e.codeBits)) :=
    (execAllOk_cons (execOk_of_next (exec_bwrst_of_ok he)) _).trans
      (execAllOk_wrsyms_flush (s := e.bwrstarted) he hm hxs)
  have hflush := execOk_flush (s := e.bwrstarted.putBits (xs.flatMap e.codeBits)) ((putBits_table ..).1.trans he)
  rw [hput] at hrun hflush
  obtain ⟨t, out', k, hflush, hout, hrsp, hpad, hk⟩ := hflush
  have hout : t.out = e.out ++ (out ++ out') := hout.trans (List.append_assoc ..)
  refine ⟨t, out ++ out', k, hrun.trans hflush, hout, ?_, ?_, hk⟩
  · rw [hrsp]
    exact congrArg (fun v => some (Response.mk .ok v)) (BitVec.zero_add _)
  · have hpad := hpad.trans (congrArg (· ++ _) hbits)
    rwa [hout, List.flatMap_append, bwrstarted_writerBits, List.append_assoc, List.append_cancel_left_eq] at hpad

/-! ### Decoding -/

/-- The state after BRSTART (R250). -/
def State.brstarted (s : State) (budget : Data) : State :=
  { s with brBudget := budget, brPos := 0#64, brByte := 0#8, brNbits := 0#4 }.respondOk 0#64

theorem execAllOk_brstart {s : State} (he : s.err = false) (budget : Data) (i : Instr) :
    execAllOk [.brstart budget, i] s = execOk i (s.brstarted budget) := by
  have hstart : exec (.brstart budget) s = .next (s.brstarted budget) :=
    congrArg Host.Outcome.next (unlessErr_of_ok he _)
  rw [execAllOk_cons (execOk_of_next hstart), execAllOk_singleton]
  rfl

theorem brstarted_budgetLeft (s : State) {n : Nat} (h : n < 2 ^ 64) :
    (s.brstarted (BitVec.ofNat 64 n)).budgetLeft = n := Nat.mod_eq_of_lt h

theorem length_flatMap_byteBits (bytes : List Byte) : (bytes.flatMap byteBits).length = 8 * bytes.length := by
  simp [List.length_flatMap, Nat.mul_comm]

theorem length_flatMap_codeBits (s : State) (xs : List Sym) :
    (xs.flatMap s.codeBits).length = (xs.map s.lenOf).sum := by
  simp [List.length_flatMap, State.codeBits]

/-- The codes of some symbols are no shorter than MINLEN bits each (R37). -/
theorem length_mul_minLen_le {s : State} {xs : List Sym} (hxs : ∀ x ∈ xs, x ∈ present s.len) :
    xs.length * minLen s.len ≤ (xs.flatMap s.codeBits).length := by
  rw [length_flatMap_codeBits, ← List.length_map (f := s.lenOf), ← smul_eq_mul]
  refine List.card_nsmul_le_sum _ _ fun l hl => ?_
  obtain ⟨x, hx, rfl⟩ := List.mem_map.mp hl
  exact minLen_le_len s.len x (hxs x hx)

/-- The codes of a MULTI table are no longer than 32 bits each (R181). -/
theorem length_flatMap_codeBits_le {s : State} {xs : List Sym} (hi : s.Inv) (hm : s.mode = .multi)
    (hxs : ∀ x ∈ xs, x ∈ present s.len) : (xs.flatMap s.codeBits).length ≤ xs.length * 32 := by
  rw [length_flatMap_codeBits, ← List.length_map (f := s.lenOf), ← smul_eq_mul]
  refine List.sum_le_card_nsmul _ _ fun l hl => ?_
  obtain ⟨x, hx, rfl⟩ := List.mem_map.mp hl
  exact hi.lenOf_le_of_multi hm (hxs x hx)

/-- DECODE of no symbols, with a valid table (R256). -/
theorem exec_decode_zero {s : State} (he : s.err = false) (hm : s.mode ≠ .none) :
    exec (.decode 0#64) s = .next (s.respondOk 0#64) := by
  rw [exec_decode_of_ok he, State.decodeCmd, if_neg hm, if_pos rfl]

/-- DECODE pushes the symbols whose codes are next and consumes their bits (R256). -/
theorem exec_decode_codes {s : State} {xs : List Sym} {rest : List Bool} {count : Data} (hc : s.PrefixCode)
    (he : s.err = false) (hh : s.hold = none) (hm : s.mode = .multi) (hcount : count.toNat = xs.length)
    (hxs : ∀ x ∈ xs, x ∈ present s.len) (h : s.readerBits = xs.flatMap s.codeBits ++ rest)
    (hb : (xs.flatMap s.codeBits).length ≤ s.budgetLeft) :
    exec (.decode count) s = .next
      (((s.afterBits (xs.flatMap s.codeBits).length).pushAll xs).respondOk count) := by
  by_cases h0 : count = 0#64
  · subst h0
    obtain rfl := List.eq_nil_of_length_eq_zero hcount.symm
    rw [exec_decode_zero he (by rw [hm]; decide)]
    simp
  · have hcheck : s.tooShort count.toNat = false := by
      rw [← Bool.not_eq_true, tooShort_iff, Nat.not_lt, hcount]
      exact (length_mul_minLen_le hxs).trans hb
    rw [exec_decode_of_ok he, decodeCmd_eq ⟨hm, h0, fun _ => hcheck⟩, progress_of_hold_none hh,
      hc.decodeFrom_codes hxs h hb (by omega), decodeFrom_done (by show count.toNat ≤ 0 + xs.length; omega)]

/-- DECODE with a SINGLE table repeats the symbol and reads nothing (R256). -/
theorem exec_decode_single {s : State} {x : Sym} {count : Data} (he : s.err = false) (hm : s.mode = .single)
    (hx : present s.len = [x]) (hmin : minLen s.len = 1) (hb : count.toNat ≤ s.budgetLeft) :
    exec (.decode count) s = .next ((s.pushAll (List.replicate count.toNat x)).respondOk count) := by
  by_cases h0 : count = 0#64
  · subst h0
    rw [exec_decode_zero he (by rw [hm]; decide)]
    simp
  · have hcheck : s.tooShort count.toNat = false := by
      rw [← Bool.not_eq_true, tooShort_iff, Nat.not_lt, hmin, Nat.mul_one]
      exact hb
    have honly : s.onlySym = x := by rw [State.onlySym, hx, List.headD_cons]
    simp [exec_decode_of_ok he, State.decodeCmd, hm, h0, hcheck, honly, State.pushAll]

/-! ### The three modes -/

/-- The table of a MULTI mode is a matter of the lengths (R182), so encoder and decoder have the same codes. -/
theorem State.Inv.codeBits_congr {e d : State} (he : e.Inv) (hd : d.Inv) (hme : e.mode = .multi) (hmd : d.mode = .multi)
    (hlen : d.len = e.len) : d.codeBits = e.codeBits := by
  obtain ⟨-, hce⟩ := he.multiTable hme
  obtain ⟨-, hcd⟩ := hd.multiTable hmd
  have hcode : d.code = e.code := by rw [hcd, hce, hlen]
  funext x
  simp only [State.codeBits, State.codeOf, State.lenOf, hlen, hcode]

/-- Where IN holds the codes of some symbols and a padding, DECODE with a budget of all its bits gives the symbols, and
BR_POS is the number of code bits (R257). -/
theorem execAllOk_decode_codes {d : State} {xs : List Sym} {pad : List Bool} (hc : d.PrefixCode) (he : d.err = false)
    (hm : d.mode = .multi) (hxs : ∀ x ∈ xs, x ∈ present d.len)
    (hbits : d.inq.flatMap byteBits = xs.flatMap d.codeBits ++ pad) (hcount : xs.length < 2 ^ 64)
    (hbudget : 8 * d.inq.length < 2 ^ 64) : ∃ d' : State,
    execAllOk [.brstart (BitVec.ofNat 64 (8 * d.inq.length)), .decode (BitVec.ofNat 64 xs.length)] d = some d' ∧
      d'.out = d.out ++ xs ∧ d'.brPos.toNat = (xs.flatMap d.codeBits).length := by
  have hlen := congrArg List.length hbits
  rw [length_flatMap_byteBits, List.length_append] at hlen
  have hleft := brstarted_budgetLeft d hbudget
  have hdecode := exec_decode_codes (s := d.brstarted (BitVec.ofNat 64 (8 * d.inq.length)))
    (count := BitVec.ofNat 64 xs.length) ⟨hc.fits, hc.prefixFree⟩ he rfl hm (Nat.mod_eq_of_lt hcount) hxs hbits
    (show (xs.flatMap d.codeBits).length ≤ _ by omega)
  have hpos : (0#64 + BitVec.ofNat 64 (xs.flatMap d.codeBits).length).toNat = (xs.flatMap d.codeBits).length := by
    rw [BitVec.zero_add, BitVec.toNat_ofNat]
    exact Nat.mod_eq_of_lt (by omega)
  exact ⟨_, (execAllOk_brstart he _ _).trans (execOk_of_next hdecode), rfl, hpos⟩

/-- With a SINGLE table DECODE repeats the symbol and leaves all bits of IN (R257). -/
theorem execAllOk_decode_single {d : State} {x : Sym} {n : Nat} (he : d.err = false) (hm : d.mode = .single)
    (hx : present d.len = [x]) (hmin : minLen d.len = 1) (hn : n ≤ 8 * d.inq.length)
    (hbudget : 8 * d.inq.length < 2 ^ 64) : ∃ d' : State,
    execAllOk [.brstart (BitVec.ofNat 64 (8 * d.inq.length)), .decode (BitVec.ofNat 64 n)] d = some d' ∧
      d'.out = d.out ++ List.replicate n x ∧ d'.brPos = 0#64 ∧ d'.brNbits = 0#4 ∧ d'.inq = d.inq := by
  have hleft := brstarted_budgetLeft d hbudget
  have hcount : (BitVec.ofNat 64 n).toNat = n := Nat.mod_eq_of_lt (by omega)
  have hdecode := exec_decode_single (s := d.brstarted (BitVec.ofNat 64 (8 * d.inq.length)))
    (count := BitVec.ofNat 64 n) he hm hx hmin (by omega)
  rw [hcount] at hdecode
  exact ⟨_, (execAllOk_brstart he _ _).trans (execOk_of_next hdecode), rfl, rfl, rfl, rfl⟩

/-- A byte of zeros only. -/
theorem eq_zero_of_byteBits {b : Byte} (h : ∀ x ∈ byteBits b, x = false) : b = 0#8 := by
  have hbits := List.eq_replicate_iff.mpr ⟨byteBits_length b, h⟩
  exact BitVec.eq_of_toNat_eq (bitsOf_inj b.isLt (by decide) (hbits.trans (bitsOf_zero 8).symm))

/-- Bytes whose bits are all 0. -/
theorem eq_replicate_zero_of_flatMap_byteBits {bytes : List Byte} {m : Nat}
    (h : bytes.flatMap byteBits = List.replicate m false) : bytes = List.replicate bytes.length 0#8 := by
  refine List.eq_replicate_iff.mpr ⟨rfl, fun b hb => eq_zero_of_byteBits fun x hx => ?_⟩
  have hmem : x ∈ bytes.flatMap byteBits := List.mem_flatMap.mpr ⟨b, hb, hx⟩
  rw [h] at hmem
  exact List.eq_of_mem_replicate hmem

/-- The code in a SINGLE table is one 0 bit (R36, R47). -/
theorem State.Inv.single_codes {s : State} (hi : s.Inv) (hm : s.mode = .single) {x : Sym} (hx : x ∈ present s.len) :
    present s.len = [x] ∧ s.codeBits x = [false] := by
  obtain ⟨y, hy, hl, hc⟩ := hi.singleTable hm
  obtain rfl : x = y := List.mem_singleton.mp (hy ▸ hx)
  rw [State.codeBits, hl, hc]
  exact ⟨hy, rfl⟩

/-- With a SINGLE table the payload is zeros only, one bit a symbol and the padding (R225). -/
theorem execAllOk_encode_single {e : State} {x : Sym} (n : Nat) (hi : e.Inv) (he : e.err = false)
    (hm : e.mode = .single) (hx : x ∈ present e.len) : ∃ e' : State,
    execAllOk ([.bwrst] ++ List.replicate n (.wrsym x) ++ [.flush]) e = some e' ∧
      e'.out = e.out ++ List.replicate ((n + 7) / 8) 0#8 ∧ e'.rsp = some ⟨.ok, BitVec.ofNat 64 n⟩ := by
  obtain ⟨-, hcode⟩ := hi.single_codes hm hx
  obtain ⟨e', payload, k, hrun, hout, hrsp, hbits, hk⟩ := execAllOk_encode (xs := List.replicate n x) he
    (by rw [hm]; decide) fun y hy => List.eq_of_mem_replicate hy ▸ hx
  have hcodes : (List.replicate n x).flatMap e.codeBits = List.replicate n false := by
    simp [List.flatMap_replicate, hcode]
  rw [hcodes, List.replicate_append_replicate] at hbits
  have hbytes := congrArg List.length hbits
  rw [length_flatMap_byteBits, List.length_replicate] at hbytes
  rw [eq_replicate_zero_of_flatMap_byteBits hbits, show payload.length = (n + 7) / 8 by omega] at hout
  rw [List.map_replicate] at hrun
  rw [hcodes, List.length_replicate] at hrsp
  exact ⟨e', hrun, hout, hrsp⟩

/-- Settles O60: the payload is the codes and a padding; the decoder finds the codes in it, or needs none of them. -/
theorem roundTrip : Obligations.RoundTrip := by
  refine ⟨fun e d xs hie hid hee hed hme hmd hlen _ hxs hsize => ?_,
    fun e d x n hie hid hee hed hme hmd hlen _ hx hsize => ?_, fun d budget he hm _ => ?_⟩
  · obtain ⟨e', payload, k, hrun, hout, hrsp, hbits, hk⟩ := execAllOk_encode hee (by rw [hme]; decide) hxs
    have hcodes := hie.codeBits_congr hid hme hmd hlen
    have hle := length_flatMap_codeBits_le hie hme hxs
    have hbytes := congrArg List.length hbits
    rw [length_flatMap_byteBits, List.length_append, List.length_replicate] at hbytes
    rw [← hcodes] at hbits
    obtain ⟨d', hdecode, hpush, hpos⟩ := execAllOk_decode_codes (d := { d with inq := payload })
      ⟨(hid.prefixCode hmd).fits, (hid.prefixCode hmd).prefixFree⟩ hed hmd (hlen ▸ hxs) hbits (by omega)
      (show 8 * payload.length < 2 ^ 64 by omega)
    exact ⟨e', d', payload, hrun, hout, hrsp, hdecode, hpush, hcodes ▸ hpos⟩
  · obtain ⟨e', hrun, hout, hrsp⟩ := execAllOk_encode_single n hie hee hme hx
    have hp := (hid.single_codes hmd (hlen ▸ hx)).1
    have hbytes : (List.replicate ((n + 7) / 8) 0#8 : List Byte).length = (n + 7) / 8 := List.length_replicate
    obtain ⟨d', hdecode, hpush, hpos, hnbits, hin⟩ := execAllOk_decode_single (n := n)
      (d := { d with inq := List.replicate ((n + 7) / 8) 0#8 }) hed hmd hp (hid.minLen_single hmd)
      (by dsimp only; omega) (by dsimp only; omega)
    exact ⟨e', d', _, hrun, hout, rfl, hrsp, hdecode, hpush, hpos, hnbits, hin⟩
  · have hdecode := exec_decode_zero (s := d.brstarted budget) he (show d.mode ≠ .none by rw [hm]; decide)
    exact ⟨_, (execAllOk_brstart he _ _).trans (execOk_of_next hdecode), rfl, rfl, rfl⟩

end Sys2Proof.Machine
end

section
/-! PROOFS. The commands of the bit reader where no byte is missing (R250 to R256): the bits at hand within the budget
are what is read, or the budget ends before that and TRUNCATED is raised with all bits before its end consumed. -/

namespace Sys2Proof.Machine

/-! ### Bits at hand within the budget -/

/-- Bits consumed within the budget are the next ones of the stream (R251). -/
theorem readerBits_afterBits_drop {s : State} {k : Nat} (hk : k ≤ s.readerBits.length) (hb : k ≤ s.budgetLeft) :
    (s.afterBits k).readerBits = s.readerBits.drop k := by
  have hlen : (s.readerBits.take k).length = k := List.length_take_of_le hk
  have h := readerBits_afterBits (List.take_append_drop k s.readerBits).symm (hlen.trans_le hb)
  rwa [hlen] at h

/-- RDBITS of the first bits at hand reads them and goes on after them (R252). -/
theorem readBits_add {s : State} {k : Nat} (hk : k ≤ s.readerBits.length) (hb : k ≤ s.budgetLeft) (j : Nat) :
    readBits (k + j) 0 0 s = readBits j (bitsValue (s.readerBits.take k)) k (s.afterBits k) := by
  have hlen : (s.readerBits.take k).length = k := List.length_take_of_le hk
  have h := readBits_of_readerBits (read := []) (List.take_append_drop k s.readerBits).symm (hlen.trans_le hb) j
  rwa [List.nil_append, hlen] at h

/-! ### The end of the budget -/

section
variable {s : State} (hp : s.brPos.toNat ≤ s.brBudget.toNat)
include hp

/-- All bits of the budget consumed, BR_POS is BR_BUDGET (R251). -/
theorem afterBits_budgetLeft_brPos : (s.afterBits s.budgetLeft).brPos = s.brBudget := by
  apply BitVec.eq_of_toNat_eq
  have := s.brBudget.isLt
  simp only [State.afterBits, State.budgetLeft, BitVec.toNat_add, BitVec.toNat_ofNat]
  omega

/-- RDBITS of more bits than the budget has ends with it (R252). -/
theorem readBits_truncated_of_budgetLeft (hk : s.budgetLeft ≤ s.readerBits.length) {k : Nat} (hlt : s.budgetLeft < k) :
    readBits k 0 0 s = .truncated (s.afterBits s.budgetLeft) := by
  obtain ⟨j, rfl⟩ := Nat.exists_eq_add_of_lt hlt
  exact (readBits_add hk le_rfl (j + 1)).trans (readBits_truncated (if_pos (afterBits_budgetLeft_brPos hp)) ..)

end

/-- DECODE1 ends with a budget whose bits begin with no code (R253). -/
theorem decodeSym_truncated_of_readerBits {s : State} {bs rest : List Bool} {k : Nat} (h : s.readerBits = bs ++ rest)
    (hk : bs.length = k) (hb : k ≤ s.budgetLeft) (hend : (s.afterBits k).brPos = s.brBudget)
    (hno : ∀ x ∈ present s.len, ¬ s.codeBits x <+: bs) : s.decodeSym 0 0 = .truncated (s.afterBits k) := by
  subst hk
  exact (decodeSym_of_readerBits (read := []) h hb hno).trans (decodeSym_truncated (if_pos hend) ..)

/-- The first error is recorded, with BR_POS at a value it already has (R316). -/
theorem raise_of_ok_of_brPos {s : State} {pos : Data} (he : s.err = false) (hp : s.brPos = pos) (e : ErrCode)
    (arg : Data) (w : Word) : s.raise e arg w = { s with
      brPos := pos, err := true, errCode := e, errArg := arg, errCmd := w,
      cmd := none, hold := none, rsp := some ⟨.error, 0#64⟩ } := by
  subst hp
  exact raise_of_ok he ..

/-! ### BRSTART -/

/-- Settles O50, by the definition of BRSTART outside the error state. -/
theorem brstartStartsReader : Obligations.BrstartStartsReader := fun _ _ he =>
  ⟨rfl, congrArg Host.Outcome.next (unlessErr_of_ok he _)⟩

/-! ### RDBITS -/

theorem exec_rdbits_of_ok {s : State} (he : s.err = false) (len : Byte) : exec (.rdbits len) s = .next (s.readCmd len) :=
  congrArg Host.Outcome.next (unlessErr_of_ok he _)

/-- RDBITS that begins ends on what its loop reads (R252). -/
theorem exec_rdbits_begin {s : State} {len : Byte} (he : s.err = false) (hh : s.hold = none) (hl : len.toNat ≤ 32) :
    exec (.rdbits len) s = .next ((readBits len.toNat 0 0 s).conclude (encodeWord (.rdbits len))) := by
  rw [exec_rdbits_of_ok he, readCmd_eq ((lenAccepted_iff len).mpr hl), progress_of_hold_none hh, Nat.sub_zero]

/-- Settles O51: the bits at hand are read one after the other, or the count is refused before the first. -/
theorem rdbitsReadsBits : Obligations.RdbitsReadsBits := by
  intro s len he hh
  refine ⟨fun hl hb hk => ⟨?_, readerBits_afterBits_drop hk hb⟩, fun hl => ?_⟩
  · rw [exec_rdbits_begin he hh hl, show readBits len.toNat 0 0 s = .got _ _ from readBits_add hk hb 0]
    rfl
  · rw [exec_rdbits_of_ok he, State.readCmd, if_neg (mt (lenAccepted_iff len).mp (Nat.not_le.mpr hl)),
      raise_of_ok he, BitVec.ofNat_toNat]

/-- Settles O52: the bits of the budget are read, and GETBIT gives no further one. -/
theorem rdbitsTruncated : Obligations.RdbitsTruncated := by
  intro s len he hh hp hl hlt hk
  refine ⟨?_, readerBits_afterBits_drop hk le_rfl⟩
  rw [exec_rdbits_begin he hh hl, readBits_truncated_of_budgetLeft hp hk hlt]
  exact congrArg _ (raise_of_ok_of_brPos (s := s.afterBits s.budgetLeft) he (afterBits_budgetLeft_brPos hp) ..)

/-! ### DECSYM -/

theorem exec_decsym_of_ok {s : State} (he : s.err = false) : exec .decsym s = .next s.decsymCmd :=
  congrArg Host.Outcome.next (unlessErr_of_ok he _)

/-- DECSYM without a table (R254). -/
theorem decsymCmd_none {s : State} (hm : s.mode = .none) :
    s.decsymCmd = s.raise .noTable 0#64 (encodeWord .decsym) := by
  rw [State.decsymCmd, hm]

/-- DECSYM with an EMPTY table (R254). -/
theorem decsymCmd_empty {s : State} (hm : s.mode = .empty) :
    s.decsymCmd = s.raise .noSym 0#64 (encodeWord .decsym) := by
  rw [State.decsymCmd, hm]

/-- DECSYM with a SINGLE table (R254). -/
theorem decsymCmd_single {s : State} {x : Sym} {rest : List Sym} (hm : s.mode = .single)
    (hx : present s.len = x :: rest) : s.decsymCmd = s.respondOk (BitVec.ofNat 64 x.toNat) := by
  rw [State.decsymCmd, hm, BitVec.ofNat_toNat]
  simp only [State.onlySym, hx, List.headD_cons]

/-- DECSYM in MULTI mode that begins ends on what DECODE1 reads (R254). -/
theorem exec_decsym_begin {s : State} (he : s.err = false) (hh : s.hold = none) (hm : s.mode = .multi) :
    exec .decsym s = .next ((s.decodeSym 0 0).conclude (encodeWord .decsym)) := by
  rw [exec_decsym_of_ok he, decsymCmd_eq hm, progress_of_hold_none hh]

/-- Settles O53: no code begins another, so DECODE1 reads on to the end of the one that is next. -/
theorem decsymDecodesSymbol : Obligations.DecsymDecodesSymbol := by
  rintro s x hi he hh hm hx ⟨rest, hbits⟩ hb
  have hlen : (s.codeBits x).length = s.lenOf x := bitsOf_length ..
  have hk : s.lenOf x ≤ s.readerBits.length := by
    rw [← hbits, List.length_append, hlen]
    exact Nat.le_add_right ..
  refine ⟨?_, readerBits_afterBits_drop hk hb⟩
  rw [exec_decsym_begin he hh hm, (hi.prefixCode hm).decodeSym_codeBits hx hbits.symm hb]
  rfl

/-- Settles O54: the bits of the budget begin with no code, and GETBIT gives no further one. -/
theorem decsymTruncated : Obligations.DecsymTruncated := by
  intro s hi he hh hm hk hno
  refine ⟨?_, readerBits_afterBits_drop hk le_rfl⟩
  have hend := afterBits_budgetLeft_brPos hi.readerPos
  rw [exec_decsym_begin he hh hm, decodeSym_truncated_of_readerBits (List.take_append_drop _ _).symm
    (List.length_take_of_le hk) le_rfl hend hno]
  exact congrArg _ (raise_of_ok_of_brPos (s := s.afterBits s.budgetLeft) he hend ..)

/-- Settles O55, by the three modes in which DECSYM reads no bit. -/
theorem decsymWithoutBits : Obligations.DecsymWithoutBits := by
  intro s he
  rw [exec_decsym_of_ok he]
  refine ⟨fun x rest hm hx => ?_, fun hm => ?_, fun hm => ?_⟩
  · rw [decsymCmd_single hm hx]
    rfl
  · rw [decsymCmd_none hm, raise_of_ok he]
    rfl
  · rw [decsymCmd_empty hm, raise_of_ok he]
    rfl

/-! ### DECODE -/

/-- Settles O56: the loop of DECODE reads one code after the other. -/
theorem decodePushesSymbols : Obligations.DecodePushesSymbols := by
  rintro s xs count hi he hh hm hcount hxs ⟨rest, hbits⟩ hb
  have hk : (xs.flatMap s.codeBits).length ≤ s.readerBits.length := by
    rw [← hbits, List.length_append]
    exact Nat.le_add_right ..
  exact ⟨exec_decode_codes (hi.prefixCode hm) he hh hm hcount hxs hbits.symm hb, readerBits_afterBits_drop hk hb⟩

/-- The loop of DECODE whose budget holds the codes of some symbols, and after them no code, pushes the symbols and
raises TRUNCATED with their number, all bits of the budget consumed (R256). -/
theorem State.PrefixCode.decodeFrom_truncated_of_budgetLeft {s : State} (hc : s.PrefixCode)
    (hp : s.brPos.toNat ≤ s.brBudget.toNat) {xs : List Sym} {tail : List Bool} {count : Data}
    (hlt : xs.length < count.toNat)
    (hxs : ∀ x ∈ xs, x ∈ present s.len) (hk : s.budgetLeft ≤ s.readerBits.length)
    (hbits : s.readerBits.take s.budgetLeft = xs.flatMap s.codeBits ++ tail)
    (hno : ∀ x ∈ present s.len, ¬ s.codeBits x <+: tail) :
    s.decodeFrom count ⟨0, 0, 0⟩ = ((s.afterBits s.budgetLeft).pushAll xs).raise .truncated
      (BitVec.ofNat 64 xs.length) (encodeWord (.decode count)) := by
  have hlen : s.budgetLeft = (xs.flatMap s.codeBits).length + tail.length := by
    rw [← List.length_append, ← hbits, List.length_take_of_le hk]
  have hall : s.readerBits = xs.flatMap s.codeBits ++ (tail ++ s.readerBits.drop s.budgetLeft) := by
    rw [← List.append_assoc, ← hbits, List.take_append_drop]
  have htail := readerBits_afterBits hall (by omega)
  have hleft := budgetLeft_afterBits (s := s) (k := (xs.flatMap s.codeBits).length) (by omega)
  have hadd : ((s.afterBits (xs.flatMap s.codeBits).length).pushAll xs).afterBits tail.length =
      (s.afterBits s.budgetLeft).pushAll xs := by
    rw [afterBits_pushAll, State.afterBits_add _ _ _ (by rw [← readerBits_length]; omega), ← hlen]
  have hsym := decodeSym_truncated_of_readerBits (s := (s.afterBits (xs.flatMap s.codeBits).length).pushAll xs) htail
    rfl (show _ ≤ (s.afterBits _).budgetLeft by omega) (hadd ▸ afterBits_budgetLeft_brPos hp) hno
  rw [hadd] at hsym
  rw [hc.decodeFrom_codes hxs hall (by omega) (by omega), Nat.zero_add, decodeFrom_truncated hlt hsym]

/-- Settles O57: the early check passes, the loop pushes the symbols before the end of the budget, and GETBIT gives no
bit after it. -/
theorem decodeTruncatedInLoop : Obligations.DecodeTruncatedInLoop := by
  intro s xs tail count hi he hh hm hlt hxs hk hbits hno hbudget
  refine ⟨?_, readerBits_afterBits_drop hk le_rfl⟩
  rw [exec_decode_of_ok he, decodeCmd_eq (entersLoop_of_budget hm (Nat.zero_lt_of_lt hlt) hbudget),
    progress_of_hold_none hh, (hi.prefixCode hm).decodeFrom_truncated_of_budgetLeft hi.readerPos hlt hxs hk hbits hno]
  exact congrArg _ (raise_of_ok_of_brPos (s := (s.afterBits s.budgetLeft).pushAll xs) he
    (afterBits_budgetLeft_brPos hi.readerPos) ..)

/-- Settles O58: a SINGLE table has one symbol, of one bit, so the early check asks a bit for each. -/
theorem decodeSingleRepeatsSymbol : Obligations.DecodeSingleRepeatsSymbol := by
  intro s count hi he _ hm hb
  obtain ⟨x, hx, -, -⟩ := hi.singleTable hm
  exact ⟨x, hx, exec_decode_single he hm hx (hi.minLen_single hm) hb⟩

end Sys2Proof.Machine
end

section
/-! PROOFS. NOP and CLR (R290, R291): the one word of NOP, the state that CLR leaves, and that in the error state every
other command only responds (R317). -/

namespace Sys2Proof.Machine

/-- NOP's encoding has no bit set, so by the decoder's inverses no other word is NOP (R103, R290). -/
theorem decode_eq_nop_iff (c : Command) : decode c = .instr .nop ↔ c.word = 0#32 := by
  constructor
  · intro h
    have hword : encodeWord .nop = c.word := encodeOfDecode c .nop h
    exact hword.symm
  · intro h
    obtain ⟨w, d⟩ := c
    subst h
    exact (dataNeverChangesDecoding 0#32 0#64 d).2 .nop (decodeOfEncode .nop)

/-- Settles O19: NOP does nothing but respond, with no check of the error state. -/
theorem nopOnlyResponds : Obligations.NopOnlyResponds := ⟨decode_eq_nop_iff, execNop_eq⟩

/-- In the error state every command but CLR only responds: it is rejected, or it is NOP or RDREG (R317). -/
theorem exec_inError_responds {i : Instr} {s t : State} (hclr : i ≠ .clr) (he : s.err = true)
    (h : exec i s = .next t) : ∃ st v, t = s.respond st v := by
  cases exec_answers h with
  | clr hi ht => exact absurd hi hclr
  | inError _ st v ht => exact ⟨st, v, ht⟩
  | runs hok _ => simp [he] at hok

/-- Settles O20: CLR's arena is that of the reset state, and a response leaves ERR as it is. -/
theorem clrGivesResetState : Obligations.ClrGivesResetState := by
  refine ⟨rfl, fun s => ⟨State.reset.nodes, rfl⟩, fun i s t he h ht => ?_⟩
  by_contra hclr
  obtain ⟨st, v, rfl⟩ := exec_inError_responds hclr he h
  simp [he] at ht

end Sys2Proof.Machine
end

section
/-! PROOFS. The error state keeps every command but NOP, CLR and RDREG from executing (R317). -/

namespace Sys2Proof.Machine

/-- A command's word decodes to it, whatever DATA comes with the word (R100, R103). -/
theorem decode_of_word_eq {c : Command} {i : Instr} (h : c.word = encodeWord i) :
    decode c = .instr (i.withData c.data) := by
  obtain ⟨w, d⟩ := c
  subst h
  exact (dataNeverChangesDecoding (encodeWord i) (encodeData i) d).2 i (decodeOfEncode i)

/-- A word of format S is its opcode under the row's mask and its SYM field outside the mask (R101, R105). -/
theorem masked_eq_wordN_iff (w : Word) (op : BitVec 6) :
    w &&& 0xFC03FFFF#32 = wordN op ↔ w = wordS op (symField w) := by
  have hword : wordS op (symField w) = wordN op ||| (w &&& fieldMask 18 8) :=
    congrArg (wordN op ||| ·) (extractLsb'_shiftLeft_eq_and w 18 8)
  have hop : ∀ op : BitVec 6, wordN op &&& 0xFC03FFFF#32 = wordN op := by decide
  have hdisj : fieldMask 18 8 &&& 0xFC03FFFF#32 = 0#32 := by decide
  have hall : 0xFC03FFFF#32 ||| fieldMask 18 8 = BitVec.allOnes 32 := by decide
  rw [hword]
  constructor
  · intro h
    rw [← h, ← BitVec.and_or_distrib_left, hall, BitVec.and_allOnes]
  · intro h
    rw [h, BitVec.and_or_distrib_right, BitVec.and_assoc, hdisj, hop, BitVec.and_zero, BitVec.or_zero]

/-- The three commands that execute in the error state (R317). -/
def ExecutesInError (i : Instr) : Prop := i = .nop ∨ i = .clr ∨ ∃ reg, i = .rdreg reg

/-- Every other command begins with the error-state check (R317). -/
theorem exec_inError_rejects {i : Instr} {s : State} (hi : ¬ ExecutesInError i) (he : s.err = true) :
    exec i s = .next s.reject := by
  cases i with
  | nop => exact absurd (.inl rfl) hi
  | clr => exact absurd (.inr (.inl rfl)) hi
  | rdreg reg => exact absurd (.inr (.inr ⟨reg, rfl⟩)) hi
  | _ => exact congrArg Host.Outcome.next (unlessErr_of_err he _)

/-- The words of the three commands that execute in the error state (R105, R317). -/
theorem executesInError_word {c : Command} {i : Instr} (hd : decode c = .instr i) (hi : ExecutesInError i) :
    c.word = 0x00000000#32 ∨ c.word = 0x04000000#32 ∨ c.word &&& 0xFC03FFFF#32 = 0x50000000#32 := by
  have hword : encodeWord i = c.word := encodeOfDecode c i hd
  rcases hi with rfl | rfl | ⟨reg, rfl⟩
  · exact .inl hword.symm
  · exact .inr (.inl hword.symm)
  · refine .inr (.inr ((masked_eq_wordN_iff c.word 0x14#6).mpr ?_))
    rw [← hword, encodeWord, symField_wordS]

/-- Settles O23: the three words decode to their commands, every other legal word to a command that the error-state
check rejects, and an illegal word is rejected by the same check. -/
theorem errorStateRejects : Obligations.ErrorStateRejects := by
  intro s c he hc hh hr
  have hrun (i : Instr) (hword : c.word = encodeWord i) : step s = exec (i.withData c.data) s :=
    (step_of_running hc hh hr).trans (runCommand_of_instr (decode_of_word_eq hword) s)
  refine ⟨fun hnop hclr hrdreg => ?_, hrun .nop, hrun .clr, fun h => ?_⟩
  · cases hd : decode c with
    | illegal why => exact (illegalWordRaises s c why hc hh hr hd).2 he
    | instr i =>
      have hi : ¬ ExecutesInError i := fun hi => by
        rcases executesInError_word hd hi with h | h | h
        · exact hnop h
        · exact hclr h
        · exact hrdreg h
      exact (step_of_running hc hh hr).trans ((runCommand_of_instr hd s).trans (exec_inError_rejects hi he))
  · exact hrun (.rdreg (symField c.word)) ((masked_eq_wordN_iff c.word 0x14#6).mp h)

end Sys2Proof.Machine
end

section
/-! PROOFS. Which errors a command raises (R312) and what the error entry leaves (R316): first for the ways a command
stops, then for the commands that raise. -/

namespace Sys2Proof.Machine

/-- In `t` the block is outside the error state, or the command of word `w` has raised one of the errors `es`
(R316). -/
def State.RaisesOnly (t : State) (w : Word) (es : List ErrCode) : Prop :=
  t.err = true → t.errCmd = w ∧ t.rsp = some ⟨.error, 0#64⟩ ∧ t.errCode ∈ es

section
variable {s : State} {w : Word} {es : List ErrCode} (he : s.err = false)
include he

theorem raisesOnly_of_ok : s.RaisesOnly w es := fun ht => by simp [he] at ht

theorem raisesOnly_respondOk (v : Data) : (s.respondOk v).RaisesOnly w es :=
  raisesOnly_of_ok (s := s.respondOk v) he

theorem raisesOnly_holdWith (p : Progress) : (s.holdWith p).RaisesOnly w es :=
  raisesOnly_of_ok (s := s.holdWith p) he

theorem raisesOnly_raise {e : ErrCode} (arg : Data) (hmem : e ∈ es) : (s.raise e arg w).RaisesOnly w es := by
  intro _
  simp [he, hmem]

theorem raisesOnly_unlessErr {body : State → State} (h : (body s).RaisesOnly w es) :
    (s.unlessErr body).RaisesOnly w es := by
  rwa [unlessErr_of_ok he]

/-! ### The commands that raise -/

/-- BUILD (R143, R147). -/
theorem raisesOnly_build : s.build.RaisesOnly (encodeWord .build) [.freqOverflow, .lenOverflow] := by
  rcases build_cases s with hsum | ⟨hsum, hl | ⟨x, hl⟩ | hl⟩
  · rw [build_refused hsum]
    exact raisesOnly_raise he _ (by decide)
  · rw [build_empty hsum hl]
    exact raisesOnly_respondOk he _
  · rw [build_single hsum hl]
    exact raisesOnly_respondOk he _
  · rw [build_tree hsum hl]
    by_cases hmax : maxLen (treeLens s.freq) > Config.maxCodeLen
    · rw [buildTree_overflow hmax]
      exact raisesOnly_raise (s := s.withTree.dropTable) he _ (by decide)
    · rw [buildTree_fits hmax]
      exact raisesOnly_respondOk he _

/-- SETLEN (R180). -/
theorem raisesOnly_loadLen (sym : Sym) (len : Byte) :
    (s.loadLen sym len).RaisesOnly (encodeWord (.setlen sym len)) [.format] := by
  unfold State.loadLen
  split
  · exact raisesOnly_respondOk he _
  · exact raisesOnly_raise he _ (by decide)

/-- GENCODE (R181). -/
theorem raisesOnly_genCode : s.genCode.RaisesOnly (encodeWord .gencode) [.format] := by
  have refused (arg : Nat) : (s.refuseTable arg).RaisesOnly (encodeWord .gencode) [.format] :=
    raisesOnly_raise (s := s.dropTable) he _ (List.mem_singleton_self ErrCode.format)
  unfold State.genCode
  split
  · exact raisesOnly_respondOk he _
  · split
    · exact raisesOnly_respondOk he _
    · exact refused _
  · split
    · exact refused _
    split
    · exact refused _
    · exact raisesOnly_respondOk he _

/-- WRSYM (R221). -/
theorem raisesOnly_writeSym (sym : Sym) :
    (s.writeSym sym).RaisesOnly (encodeWord (.wrsym sym)) [.noTable, .noSym] := by
  unfold State.writeSym
  split
  · exact raisesOnly_raise he _ (by decide)
  split
  · exact raisesOnly_raise he _ (by decide)
  · exact raisesOnly_respondOk ((putBits_table s _).1.trans he) _

/-- Reading bits leaves the error state as it is (R251). -/
theorem SymRead.Ends.leaves_ok {r : SymRead} (h : r.Ends s) : r.Leaves fun t => t.err = false := by
  cases r with
  | truncated t => obtain ⟨⟨-, -, -, hframe⟩, -⟩ := h; exact (congrArg State.err hframe).trans he
  | hold v l t => obtain ⟨⟨-, -, -, hframe⟩, -⟩ := h; exact (congrArg State.err hframe).trans he
  | got x t => obtain ⟨-, -, -, hframe⟩ := h; exact (congrArg State.err hframe).trans he

/-- How RDBITS and DECSYM end on what they have read (R252, R254). -/
theorem raisesOnly_conclude {r : SymRead} (h : r.Ends s) (hmem : .truncated ∈ es) :
    (r.conclude w).RaisesOnly w es := by
  have hr := h.leaves_ok he
  cases r with
  | truncated t => exact raisesOnly_raise hr _ hmem
  | hold v l t => exact raisesOnly_holdWith hr _
  | got x t => exact raisesOnly_respondOk hr _

/-- RDBITS (R252). -/
theorem raisesOnly_readCmd (len : Byte) :
    (s.readCmd len).RaisesOnly (encodeWord (.rdbits len)) [.illegalCmd, .truncated] := by
  by_cases hl : lenAccepted len = true
  · rw [readCmd_eq hl]
    exact raisesOnly_conclude he (readBits_ends ..) (by decide)
  · rw [State.readCmd, if_neg hl]
    exact raisesOnly_raise he _ (by decide)

/-- DECSYM (R254). -/
theorem raisesOnly_decsymCmd : s.decsymCmd.RaisesOnly (encodeWord .decsym) [.noTable, .noSym, .truncated] := by
  cases hm : s.mode with
  | none => rw [decsymCmd_none hm]; exact raisesOnly_raise he _ (by decide)
  | empty => rw [decsymCmd_empty hm]; exact raisesOnly_raise he _ (by decide)
  | single => rw [State.decsymCmd, hm]; exact raisesOnly_respondOk he _
  | multi => rw [decsymCmd_eq hm]; exact raisesOnly_conclude he (decodeSym_ends ..) (by decide)

theorem decodeSym_leaves_ok {v l : Nat} {r : SymRead} (h : s.decodeSym v l = r) : r.Leaves fun t => t.err = false :=
  h ▸ (decodeSym_ends s v l).leaves_ok he

/-- The loop of DECODE (R256). -/
theorem raisesOnly_decodeFrom (count : Data) (p : Progress) (hmem : .truncated ∈ es) :
    (s.decodeFrom count p).RaisesOnly (encodeWord (.decode count)) es := by
  induction s, p using decodeFrom_induction (count := count) with
  | done s p hp => rw [decodeFrom_done hp]; exact raisesOnly_respondOk he _
  | truncated s p t hp e =>
    rw [decodeFrom_truncated hp e]
    exact raisesOnly_raise (decodeSym_leaves_ok he e) _ hmem
  | hold s p v l t hp e =>
    rw [decodeFrom_hold hp e]
    exact raisesOnly_holdWith (decodeSym_leaves_ok he e) _
  | got s p x t hp e ih =>
    rw [decodeFrom_got hp e]
    exact ih (decodeSym_leaves_ok he e)

/-- DECODE (R256). -/
theorem raisesOnly_decodeCmd (count : Data) :
    (s.decodeCmd count).RaisesOnly (encodeWord (.decode count)) [.noTable, .format, .truncated] := by
  unfold State.decodeCmd
  split
  · exact raisesOnly_raise he _ (by decide)
  split
  · exact raisesOnly_respondOk he _
  split
  · exact raisesOnly_raise he _ (by decide)
  split
  · exact raisesOnly_raise he _ (by decide)
  split
  · exact raisesOnly_respondOk he _
  · exact raisesOnly_decodeFrom he count _ (by decide)

end

/-! ### All commands -/

/-- The errors that a command's row of R312 lists. -/
def rowErrors : Instr → List ErrCode
  | .build => [.freqOverflow, .lenOverflow]
  | .setlen _ _ => [.format]
  | .gencode => [.format]
  | .wrsym _ => [.noTable, .noSym]
  | .wrbits _ _ => [.illegalCmd]
  | .rdbits _ => [.illegalCmd, .truncated]
  | .decsym => [.noTable, .noSym, .truncated]
  | .decode _ => [.noTable, .format, .truncated]
  | .rdreg _ => [.illegalCmd]
  | _ => []

/-- The commands whose rows are empty end with an OK response outside the error state; each of the others is its
body's case above (R312). -/
theorem exec_raisesOnly {i : Instr} {s t : State} (he : s.err = false) (h : exec i s = .next t) :
    t.RaisesOnly (encodeWord i) (rowErrors i) := by
  cases i with
  | nop => cases h; exact raisesOnly_respondOk he _
  | clr => cases h; exact raisesOnly_of_ok rfl
  | setfreq | rdfreq | rdlen | rdcode | bwrst | brstart =>
    cases h; exact raisesOnly_unlessErr he (raisesOnly_respondOk he _)
  | rdnode | rdnfreq | rdent | flush =>
    cases h
    refine raisesOnly_unlessErr he ?_
    split
    · exact raisesOnly_respondOk he _
    · exact raisesOnly_respondOk he _
  | build => cases h; exact raisesOnly_unlessErr he (raisesOnly_build he)
  | setlen sym len => cases h; exact raisesOnly_unlessErr he (raisesOnly_loadLen he sym len)
  | gencode => cases h; exact raisesOnly_unlessErr he (raisesOnly_genCode he)
  | wrsym sym => cases h; exact raisesOnly_unlessErr he (raisesOnly_writeSym he sym)
  | wrbits len bits =>
    cases h
    refine raisesOnly_unlessErr he ?_
    split
    · exact raisesOnly_respondOk ((putBits_table s _).1.trans he) _
    · exact raisesOnly_raise he _ (List.mem_singleton_self _)
  | rdbits len => cases h; exact raisesOnly_unlessErr he (raisesOnly_readCmd he len)
  | decsym => cases h; exact raisesOnly_unlessErr he (raisesOnly_decsymCmd he)
  | decode count => cases h; exact raisesOnly_unlessErr he (raisesOnly_decodeCmd he count)
  | rdreg reg =>
    cases h
    split
    · exact raisesOnly_respondOk he _
    · exact raisesOnly_raise he _ (List.mem_singleton_self _)

/-- Settles O25: the rows of R312 are those of `rowErrors`. -/
theorem commandsRaiseOnlyTheirErrors : Obligations.CommandsRaiseOnlyTheirErrors := by
  intro i s t he h ht
  obtain ⟨hcmd, hrsp, hcode⟩ := exec_raisesOnly he h ht
  refine ⟨hcmd, hrsp, ?_⟩
  cases i <;> exact hcode

end Sys2Proof.Machine
end

section
/-! PROOFS. The values of the reset state (R350), and that `rst_n` gives them and keeps OUT (R351, R352). -/

namespace Sys2Proof.Machine

/-! ### The reset state -/

theorem reset_tables (x : Sym) : tableGet State.reset.freq x = 0#64 ∧ tableGet State.reset.len x = 0#8 ∧
    tableGet State.reset.code x = 0#32 :=
  ⟨tableGet_tableFill _ x, tableGet_tableFill _ x, tableGet_tableFill _ x⟩

/-- No symbol has a length after reset, so the registers derived from LEN are 0 (R37, R350). -/
theorem reset_derivedRegisters :
    nsym State.reset.len = 0 ∧ maxLen State.reset.len = 0 ∧ minLen State.reset.len = 0 := by
  have habsent (x : Sym) : (tableGet State.reset.len x).toNat = 0 := congrArg BitVec.toNat (tableGet_tableFill 0#8 x)
  exact ⟨congrArg List.length present_tableFill_zero, maxLen_minLen_of_absent habsent⟩

/-- Settles O16: the tables and what is derived from LEN by the lemmas above, each register as it is written. -/
theorem resetValues : Obligations.ResetValues := by
  obtain ⟨hnsym, hmax, hmin⟩ := reset_derivedRegisters
  exact ⟨reset_tables, rfl, rfl, hnsym, hmax, hmin, rfl, rfl, rfl, rfl, rfl, rfl, rfl, rfl, rfl, rfl, rfl, rfl, rfl⟩

/-! ### `rst_n` -/

/-- `rst_n` leaves of a state only OUT and what the host does next (R351). -/
theorem hardReset_eq (s : State) : s.hardReset = { State.reset with out := s.out, script := s.script } := rfl

/-- Of a command that pushes some bytes, `rst_n` leaves the first `k` of them behind those in OUT (R352). -/
theorem abandon_of_pushed {s t : State} {pushed : List Byte} (h : t.out = s.out ++ pushed) (k : Nat) :
    s.abandon k t = { State.reset with out := s.out ++ pushed.take k, script := s.script } := by
  rw [State.abandon, hardReset_eq, h, List.drop_left]

theorem hostMove_of_reset {s : State} {k : Nat} {rest : List HostAction} (hs : s.script = .reset k :: rest) :
    s.hostMove = { s with script := rest }.hardReset := by
  simp [State.hostMove, hs]

theorem resetNext_of_reset {s : State} {k : Nat} {rest : List HostAction} (hs : s.script = .reset k :: rest) :
    s.resetNext = some (k, rest) := by
  simp [State.resetNext, hs]

/-- Settles O10: where the block waits, `rst_n` is the host's move; where it runs a word, `rst_n` abandons the word. -/
theorem resetPinGivesResetState : Obligations.ResetPinGivesResetState := by
  intro s k rest hs
  refine ⟨fun hw => ⟨State.reset.nodes, ?_⟩, fun c t pushed hc hh hrun hout => ⟨State.reset.nodes, ?_⟩⟩
  · rw [step_of_waiting hw, hostMove_of_reset hs, hardReset_eq]
  · rw [step_of_reset hc hh (resetNext_of_reset hs) hrun, abandon_of_pushed hout]

end Sys2Proof.Machine
end
